-- ==== Sys2Proof/Word.lean ====
section
/-! DEFINITION. The words of the unit: the 8-bit storage byte, the 32-bit command word, the 64-bit operand,
cursor and result (00_scope.md R8). -/

namespace Sys2Proof

/-- The storage unit (R8). -/
abbrev Byte := BitVec 8

/-- A command word CMD (R8, R90). -/
abbrev Word := BitVec 32

/-- Operand A, result R and the cursor, bit index, length, capacity and mark registers (R8). -/
abbrev DWord := BitVec 64

end Sys2Proof
end

