-- ==== Sys2Proof/Syntax.lean ====
section
/-! DEFINITION. The commands of the unit: one constructor per row of spec/opcode_table.json (30_encoding.md R97). A command's
fields are kept as the codes of its word, since a reserved code is a command whose parameters are illegal (R100), and the
KIND check comes before the check of the codes (60_exceptions.md R352). -/

namespace Sys2Proof

/-- FieldWidth, the byte count of a scalar field (R92). -/
inductive Width where
  | w1 | w2 | w3 | w4 | w8
deriving DecidableEq, Repr

/-- ByteOrder (R93). -/
inductive ByteOrder where
  | big | little | middle | inverseMiddle
deriving DecidableEq, Repr

/-- Transform (R94). -/
inductive Transform where
  | none | add | subtract | negate
deriving DecidableEq, Repr

/-- The 32 commands of R97, in the table's order. `wid`, `ord`, `tr` and `nbits` are the fields WID, ORD, TR and NBITS. -/
inductive Instr where
  | constructReader
  | constructWriter
  | constructWriterCap
  | finalizeExact
  | finalizeFull
  | mark
  | resetCursor
  | enterBit
  | enterByte
  | put (wid : BitVec 4) (ord : BitVec 3) (tr : BitVec 3)
  | getS (wid : BitVec 4) (ord : BitVec 3) (tr : BitVec 3)
  | getU (wid : BitVec 4) (ord : BitVec 3) (tr : BitVec 3)
  | putBits (nbits : BitVec 6)
  | getBits (nbits : BitVec 6)
  | putUsmart
  | getUsmart
  | putSsmart
  | getSsmart
  | putXsmart
  | getXsmart
  | putBsmart
  | getBsmart
  | putStr
  | getStr
  | putFstr
  | getFstr
  | putBlk
  | getBlk
  | putBlkRev
  | getBlkRev
  | putBlkT (tr : BitVec 3)
  | getBlkT (tr : BitVec 3)
deriving DecidableEq, Repr

end Sys2Proof
end

