-- ==== Sys2Proof/Decode.lean ====
section
/-! DEFINITION. The decoder of a command word (30_encoding.md R90 to R98) and, after it, the encoder. Every word decodes to a
command or is rejected by name. -/

namespace Sys2Proof

/-- Why a word spells no command; both are ILLEGAL_COMMAND (R100 a). -/
inductive DecodeError where
  /-- R91: an OP value the map of R97 does not list. -/
  | unassignedOp (op : BitVec 8)
  /-- R96, R98: a nonzero bit in RSV or in a field the command does not use. -/
  | reservedBits (op : BitVec 8)
deriving DecidableEq, Repr

/-- OP, bits 7:0 (R90). -/
def opcode (w : Word) : BitVec 8 := w.extractLsb' 0 8

/-- WID, bits 11:8 (R90). -/
def widField (w : Word) : BitVec 4 := w.extractLsb' 8 4

/-- ORD, bits 14:12 (R90). -/
def ordField (w : Word) : BitVec 3 := w.extractLsb' 12 3

/-- TR, bits 17:15 (R90). -/
def trField (w : Word) : BitVec 3 := w.extractLsb' 15 3

/-- NBITS, bits 23:18 (R90). -/
def nbitsField (w : Word) : BitVec 6 := w.extractLsb' 18 6

/-- The mask of a command that uses no field (R98). -/
def fullMask : Word := 0xFFFFFFFF#32

/-- The mask of PUT, GET_S and GET_U: WID, ORD and TR are free (R98). -/
def scalarMask : Word := 0xFFFC00FF#32

/-- The mask of PUT_BITS and GET_BITS: NBITS is free (R98). -/
def bitsMask : Word := 0xFF03FFFF#32

/-- The mask of PUT_BLK_T and GET_BLK_T: TR is free (R98). -/
def transformMask : Word := 0xFFFC7FFF#32

/-- One row of the opcode map: its OP, its mask (MATCH is the OP value, R98) and the command its words spell. -/
structure OpcodeRow where
  op    : BitVec 8
  mask  : Word
  build : Word → Instr

/-- Lifecycle and access-mode rows of R97. -/
def lifecycleRows : List OpcodeRow :=
  [⟨0x01#8, fullMask, fun _ => .constructReader⟩,
   ⟨0x02#8, fullMask, fun _ => .constructWriter⟩,
   ⟨0x03#8, fullMask, fun _ => .constructWriterCap⟩,
   ⟨0x04#8, fullMask, fun _ => .finalizeExact⟩,
   ⟨0x05#8, fullMask, fun _ => .finalizeFull⟩,
   ⟨0x06#8, fullMask, fun _ => .mark⟩,
   ⟨0x07#8, fullMask, fun _ => .resetCursor⟩,
   ⟨0x10#8, fullMask, fun _ => .enterBit⟩,
   ⟨0x11#8, fullMask, fun _ => .enterByte⟩]

/-- Scalar and bit-field rows of R97. -/
def fieldRows : List OpcodeRow :=
  [⟨0x20#8, scalarMask, fun w => .put (widField w) (ordField w) (trField w)⟩,
   ⟨0x21#8, scalarMask, fun w => .getS (widField w) (ordField w) (trField w)⟩,
   ⟨0x22#8, scalarMask, fun w => .getU (widField w) (ordField w) (trField w)⟩,
   ⟨0x30#8, bitsMask, fun w => .putBits (nbitsField w)⟩,
   ⟨0x31#8, bitsMask, fun w => .getBits (nbitsField w)⟩]

/-- Smart rows of R97. -/
def smartRows : List OpcodeRow :=
  [⟨0x40#8, fullMask, fun _ => .putUsmart⟩,
   ⟨0x41#8, fullMask, fun _ => .getUsmart⟩,
   ⟨0x42#8, fullMask, fun _ => .putSsmart⟩,
   ⟨0x43#8, fullMask, fun _ => .getSsmart⟩,
   ⟨0x44#8, fullMask, fun _ => .putXsmart⟩,
   ⟨0x45#8, fullMask, fun _ => .getXsmart⟩,
   ⟨0x46#8, fullMask, fun _ => .putBsmart⟩,
   ⟨0x47#8, fullMask, fun _ => .getBsmart⟩]

/-- String and block rows of R97. -/
def blockRows : List OpcodeRow :=
  [⟨0x50#8, fullMask, fun _ => .putStr⟩,
   ⟨0x51#8, fullMask, fun _ => .getStr⟩,
   ⟨0x52#8, fullMask, fun _ => .putFstr⟩,
   ⟨0x53#8, fullMask, fun _ => .getFstr⟩,
   ⟨0x54#8, fullMask, fun _ => .putBlk⟩,
   ⟨0x55#8, fullMask, fun _ => .getBlk⟩,
   ⟨0x56#8, fullMask, fun _ => .putBlkRev⟩,
   ⟨0x57#8, fullMask, fun _ => .getBlkRev⟩,
   ⟨0x58#8, transformMask, fun w => .putBlkT (trField w)⟩,
   ⟨0x59#8, transformMask, fun w => .getBlkT (trField w)⟩]

/-- The opcode map (R97). -/
def opcodeMap : List OpcodeRow := lifecycleRows ++ fieldRows ++ smartRows ++ blockRows

/-- The command a word spells (R98): the row of its OP, then the check of the row's mask. -/
def decode (w : Word) : Except DecodeError Instr :=
  match opcodeMap.find? (fun r => r.op == opcode w) with
  | none => .error (.unassignedOp (opcode w))
  | some r => if w &&& r.mask = r.op.setWidth 32 then .ok (r.build w) else .error (.reservedBits (opcode w))

/-- The command an opcode-table word of `nbits` bits spells, `none` where the decoder rejects it. A command is one 32-bit
value on the command port, not bytes in storage, so there is no byte order in it (20_memory.md R64). -/
def decodeTableWord (nbits w : Nat) : Option Instr :=
  match decode (BitVec.ofNat 32 (w % 2 ^ nbits)) with
  | .ok i => some i
  | .error _ => none

/-- `CMD = OP | WID<<8 | ORD<<12 | TR<<15 | NBITS<<18` (R90). -/
def commandWord (op : BitVec 8) (wid : BitVec 4) (ord tr : BitVec 3) (nbits : BitVec 6) : Word :=
  op.setWidth 32 ||| wid.setWidth 32 <<< 8 ||| ord.setWidth 32 <<< 12 ||| tr.setWidth 32 <<< 15
    ||| nbits.setWidth 32 <<< 18

/-- The word of a command: its fields in their places, every other bit 0 (R90, R96, R97). -/
def encode : Instr → Word
  | .constructReader => commandWord 0x01#8 0 0 0 0
  | .constructWriter => commandWord 0x02#8 0 0 0 0
  | .constructWriterCap => commandWord 0x03#8 0 0 0 0
  | .finalizeExact => commandWord 0x04#8 0 0 0 0
  | .finalizeFull => commandWord 0x05#8 0 0 0 0
  | .mark => commandWord 0x06#8 0 0 0 0
  | .resetCursor => commandWord 0x07#8 0 0 0 0
  | .enterBit => commandWord 0x10#8 0 0 0 0
  | .enterByte => commandWord 0x11#8 0 0 0 0
  | .put wid ord tr => commandWord 0x20#8 wid ord tr 0
  | .getS wid ord tr => commandWord 0x21#8 wid ord tr 0
  | .getU wid ord tr => commandWord 0x22#8 wid ord tr 0
  | .putBits nbits => commandWord 0x30#8 0 0 0 nbits
  | .getBits nbits => commandWord 0x31#8 0 0 0 nbits
  | .putUsmart => commandWord 0x40#8 0 0 0 0
  | .getUsmart => commandWord 0x41#8 0 0 0 0
  | .putSsmart => commandWord 0x42#8 0 0 0 0
  | .getSsmart => commandWord 0x43#8 0 0 0 0
  | .putXsmart => commandWord 0x44#8 0 0 0 0
  | .getXsmart => commandWord 0x45#8 0 0 0 0
  | .putBsmart => commandWord 0x46#8 0 0 0 0
  | .getBsmart => commandWord 0x47#8 0 0 0 0
  | .putStr => commandWord 0x50#8 0 0 0 0
  | .getStr => commandWord 0x51#8 0 0 0 0
  | .putFstr => commandWord 0x52#8 0 0 0 0
  | .getFstr => commandWord 0x53#8 0 0 0 0
  | .putBlk => commandWord 0x54#8 0 0 0 0
  | .getBlk => commandWord 0x55#8 0 0 0 0
  | .putBlkRev => commandWord 0x56#8 0 0 0 0
  | .getBlkRev => commandWord 0x57#8 0 0 0 0
  | .putBlkT tr => commandWord 0x58#8 0 0 tr 0
  | .getBlkT tr => commandWord 0x59#8 0 0 tr 0

end Sys2Proof
end

