-- ==== Sys2Proof/Config.lean ====
section
/-! DEFINITION. What an implementation of the unit fixes and the spec leaves OPEN (00_scope.md R9 to R11): plain data
carried by the state, so that a statement about every state holds for every choice of it (log entries 3 and 4). -/

namespace Sys2Proof.Config

/-- One row of the growth function: `GROW(cap, need) = newcap` (R11). -/
structure GrowthRow where
  cap    : Nat
  need   : Nat
  newcap : Nat
deriving DecidableEq, Repr

/-- The open parameters MAX_CAPACITY (R9), DEFAULT_CAPACITY (R10) and GROW (R11). GROW is a function, and a state is plain
data, so it is given by the rows a run meets; a pair with no row grows to exactly what is needed (log entry 4). -/
structure Params where
  maxCapacity     : Nat
  defaultCapacity : Nat
  growth          : List GrowthRow
deriving DecidableEq, Repr

/-- The bound on MAX_CAPACITY of R9. -/
def capacityBound : Nat := 2 ^ 48

/-- The constraints of R9 and R10. (R11's is met by every table: `Machine.growTo` keeps it.) -/
abbrev Params.legal (p : Params) : Prop :=
  1 ≤ p.maxCapacity ∧ p.maxCapacity ≤ capacityBound ∧ p.defaultCapacity ≤ p.maxCapacity

/-- The parameters of the machine that `Machine.State.reset` is: DESIGN CHOICE (unsafe), log entries 3 and 4. -/
def resetParams : Params := { maxCapacity := capacityBound, defaultCapacity := 0, growth := [] }

end Sys2Proof.Config
end

