-- ==== Sys2Proof/Machine/State.lean ====
section
/-! DEFINITION. The state of one codec unit (10_state.md R20), with the host's commands and the open parameters beside it,
as plain data; the reasons a step can stop; and the state after power-on (R39). -/

namespace Sys2Proof.Machine

/-- KIND: what the unit currently is (R21). -/
inductive Kind where
  | none | reader | writer
deriving DecidableEq, Repr

/-- MODE: the access mode (R22). It selects the cursor's granularity and is no privilege mode (R359). -/
inductive Mode where
  | byte | bit
deriving DecidableEq, Repr

/-- The response codes of RESP and ERR (60_exceptions.md R350). Code 7 is never produced and has no constructor. -/
inductive Response where
  | ok | modeError | configurationError | boundsError | rangeError | illegalCommand | faulted
deriving DecidableEq, Repr

/-- The storage Mem as (index, byte) pairs in one canonical form (`Memory.wf`): indices strictly rising, no pair that holds
0x00, which is what an unlisted index reads as (new and grown storage is 0x00: decision D17, log entry 11). -/
abbrev Memory := List Host.Cell

/-- One command as the host issues it: the word CMD and the operands A and DIN (R35). -/
structure Command where
  cmd : Word
  a   : DWord
  din : List Byte
deriving DecidableEq, Repr

/-- One codec unit. -/
structure State where
  /-- KIND (R21). -/
  kind    : Kind
  /-- MODE (R22). -/
  mode    : Mode
  /-- CURSOR, the byte cursor (R23). -/
  cursor  : DWord
  /-- BITIDX, the bit index (R24). -/
  bitIdx  : DWord
  /-- LEN, a reader's storage length (R25). -/
  len     : DWord
  /-- CAP, a writer's storage capacity (R27). -/
  cap     : DWord
  /-- MARK, the marked byte cursor (R28). -/
  mark    : DWord
  /-- Mem, the storage (R29). -/
  mem     : Memory
  /-- R, the scalar result (R30). -/
  r       : DWord
  /-- DOUT, the byte-sequence result (R31). -/
  dout    : List Byte
  /-- RESP, the response of the last command (R32). -/
  resp    : Response
  /-- FAULT, the fault latch (R33). -/
  fault   : Bool
  /-- ERR, the latched error code (R33). -/
  err     : Response
  /-- The MODEL's own: the open parameters of this unit (R9 to R11). No command writes them. -/
  params  : Config.Params
  /-- The MODEL's own: operand A of the command being run (R35), an input that no command writes. -/
  opA     : DWord
  /-- The MODEL's own: operand DIN of the command being run (R35), an input that no command writes. -/
  opDin   : List Byte
  /-- The MODEL's own: the commands the host issues and the unit has not taken yet, in issue order (R71). -/
  pending : List Command
deriving DecidableEq, Repr

/-- The machine stops with no fault: every command completes with a response (R19; "No item of the unit is `stuck`",
93_implementation_defined.md). So the type has no constructor, and that is safe. -/
inductive Fault where
deriving DecidableEq, Repr

/-- Why the model gives a command no meaning. -/
inductive Refusal where
  /-- An instruction of the table whose meaning is not written; raised by an arm of `exec`. Safe. No arm raises it. -/
  | notModelled (mnemonic : String)
  /-- The host issued a DIN longer than MAX_CAPACITY, which is outside the interface and which a model refuses
  (70_reset_and_hazards.md R394); raised by `step`. Safe. -/
  | dinTooLong
deriving DecidableEq, Repr

/-- The power-on state of a unit with parameters `p` whose R and DOUT, which the spec leaves unspecified, hold `r` and
`dout` (R39, 70_reset_and_hazards.md R390). -/
def State.powerOn (p : Config.Params) (r : DWord) (dout : List Byte) : State where
  kind := .none
  mode := .byte
  cursor := 0
  bitIdx := 0
  len := 0
  cap := 0
  mark := 0
  mem := []
  r := r
  dout := dout
  resp := .ok
  fault := false
  err := .ok
  params := p
  opA := 0
  opDin := []
  pending := []

/-- The machine right after reset. R = 0 and DOUT = [] are DESIGN CHOICE (log entries 5 and 6), and so are the parameters
(entries 3 and 4): unsafe for a claim that rests on them. -/
def State.reset : State := State.powerOn Config.resetParams 0 []

end Sys2Proof.Machine
end

