-- ==== Sys2Proof/Machine/Ops.lean ====
section
/-! DEFINITION. The named operations every command is written over: the storage (10_state.md R29), the primitives of
00_scope.md R15, the checks common to all commands (60_exceptions.md R352), raising an error (R353 to R355), and construction,
which is the only way back from one (40_lifecycle.md R130 to R135). -/

namespace Sys2Proof.Machine

/-! ### Storage -/

/-- The canonical form of a storage list: indices strictly rising, no pair that holds 0x00. -/
abbrev Memory.wf (m : Memory) : Prop :=
  m.Pairwise (fun x y => x.1 < y.1) ∧ ∀ c ∈ m, c.2 ≠ 0#8

/-- What an unlisted index reads as: 0x00 (decision D17; log entry 11). -/
def unlistedByte : Byte := 0#8

/-- `Mem[i]` (R14). -/
def Memory.read : Memory → Nat → Byte
  | [], _ => unlistedByte
  | (a, b) :: t, i => if a = i then b else Memory.read t i

/-- `Mem[i] <- b` (R14), in the canonical form. -/
def Memory.write : Memory → Nat → Byte → Memory
  | [], i, b => if b = unlistedByte then [] else [(i, b)]
  | (a, c) :: t, i, b =>
    if i < a then
      if b = unlistedByte then (a, c) :: t else (i, b) :: (a, c) :: t
    else if i = a then
      if b = unlistedByte then t else (i, b) :: t
    else (a, c) :: Memory.write t i b

/-- `MemRead(i, n)` (R14). -/
def Memory.readBytes (m : Memory) (i : Nat) : Nat → List Byte
  | 0 => []
  | n + 1 => m.read i :: Memory.readBytes m (i + 1) n

/-- `MemWrite(i, bytes)` (R14). -/
def Memory.writeBytes (m : Memory) (i : Nat) : List Byte → Memory
  | [] => m
  | b :: bs => Memory.writeBytes (m.write i b) (i + 1) bs

/-- The storage that holds exactly these bytes from index 0. -/
def Memory.ofBytes (bytes : List Byte) : Memory := Memory.writeBytes [] 0 bytes

/-- `Mem[0..n)`: the bytes below index n. -/
def Memory.below (m : Memory) (n : Nat) : Memory := m.filter (fun c => decide (c.1 < n))

/-- `Mem[i] <- 0x00 for lo ≤ i < hi`. -/
def Memory.zeroFill (m : Memory) (lo hi : Nat) : Memory :=
  m.filter (fun c => decide (c.1 < lo ∨ hi ≤ c.1))

/-! ### Registers -/

/-- The value a 64-bit register takes when the natural number n is written to it (R8; log entry 9). -/
def reg (n : Nat) : DWord := BitVec.ofNat 64 n

/-! ### The primitives of R15 -/

/-- `GROW(cap, need)` (R11): the row of the unit's table where it has a legal one, else exactly `need` (log entry 4). -/
def growTo (p : Config.Params) (cap need : Nat) : Nat :=
  match p.growth.find? (fun g => g.cap == cap && g.need == need) with
  | some g => if need ≤ g.newcap ∧ g.newcap ≤ p.maxCapacity then g.newcap else need
  | none => need

/-- `grow(need)` (R15): new storage is filled with 0x00 (decision D17). -/
def State.grow (need : Nat) (s : State) : State :=
  let newcap := growTo s.params s.cap.toNat need
  { s with mem := s.mem.zeroFill s.cap.toNat newcap, cap := reg newcap }

/-- Makes a writer's storage cover `need` bytes: `require need ≤ MAX_CAPACITY else BOUNDS_ERROR`, then
`if need > CAP then grow(need)` (R15, 43_bits.md R238). -/
def State.cover (need : Nat) (s : State) : Except Response State :=
  if need ≤ s.params.maxCapacity then
    .ok (if s.cap.toNat < need then s.grow need else s)
  else .error .boundsError

/-- `peek()` (R15). -/
def State.peek (s : State) : Except Response Byte :=
  if s.cursor.toNat < s.len.toNat then .ok (s.mem.read s.cursor.toNat) else .error .boundsError

/-- `take(n)` (R15): the bytes, and the state with CURSOR moved over them. -/
def State.take (n : Nat) (s : State) : Except Response (List Byte × State) :=
  if s.cursor.toNat + n ≤ s.len.toNat then
    .ok (s.mem.readBytes s.cursor.toNat n, { s with cursor := reg (s.cursor.toNat + n) })
  else .error .boundsError

/-- `emit(bytes)` (R15), for a list of known length `n` that is built only once the storage covers it. -/
def State.emitSized (n : Nat) (bytes : Unit → List Byte) (s : State) : Except Response State :=
  (s.cover (s.cursor.toNat + n)).map (fun t =>
    { t with mem := t.mem.writeBytes s.cursor.toNat (bytes ()), cursor := reg (s.cursor.toNat + n) })

/-- `emit(bytes)` (R15). -/
def State.emit (bytes : List Byte) (s : State) : Except Response State :=
  s.emitSized bytes.length (fun _ => bytes)

/-! ### Errors -/

/-- Raising code `e` (R353, R354): RESP and, where no error is latched yet, FAULT and ERR; nothing else changes. Control goes
nowhere: there is no vector, no handler and no saved state. -/
def State.raise (e : Response) (s : State) : State :=
  { s with resp := e, fault := true, err := if s.fault then s.err else e }

/-- A command other than a CONSTRUCT issued while FAULT = 1 (R355): RESP <- FAULTED and nothing else changes. -/
def State.refuseFaulted (s : State) : State := { s with resp := .faulted }

/-! ### Construction, the unit's reset and the only return from an error (R356, R391) -/

/-- A successful CONSTRUCT: every field but R and DOUT (R39, R391). -/
def State.construct (k : Kind) (m : Memory) (len cap : Nat) (s : State) : State :=
  { s with
    kind := k, mode := .byte, cursor := 0, bitIdx := 0, len := reg len, cap := reg cap, mark := 0, mem := m,
    resp := .ok, fault := false, err := .ok }

/-- The unit as at power-on, R and DOUT unchanged (R135); the inputs stay. -/
def State.toPowerOn (s : State) : State :=
  { State.powerOn s.params s.r s.dout with opA := s.opA, opDin := s.opDin, pending := s.pending }

/-- A CONSTRUCT command that raises `e` (R135): first the power-on state, whatever the unit held, then the latch. -/
def State.failConstruct (e : Response) (s : State) : State := s.toPowerOn.raise e

/-- FINALIZE into a reader over `Mem[0..n)` (R133, R134): FAULT and ERR are left alone, R and DOUT too. -/
def State.finalize (n : DWord) (s : State) : State :=
  { s with
    kind := .reader, mode := .byte, cursor := 0, bitIdx := 0, len := n, cap := n, mark := 0,
    mem := s.mem.below n.toNat }

/-! ### The checks common to all commands -/

/-- The KIND column of R97. -/
inductive KindNeed where
  | reader | writer | built
deriving DecidableEq, Repr

/-- Whether a unit of kind `k` takes the command (R351 c, d, e). -/
def kindTakes : KindNeed → Kind → Bool
  | .reader, .reader => true
  | .writer, .writer => true
  | .built, .reader => true
  | .built, .writer => true
  | _, _ => false

/-- A command other than a CONSTRUCT, after its word has been decoded: the checks of R352 in their order (fault latch, KIND,
field values, MODE), then `body`, which makes the checks of the operands and of the storage and gives the effects. `field` is
what the command's field codes stand for, `none` where they are illegal (CONFIGURATION_ERROR). -/
def runCommand {α : Type} (need : KindNeed) (field : Option α) (mode : Mode)
    (body : α → State → Except Response State) (s : State) : Host.Outcome State Fault Refusal :=
  if s.fault then .next s.refuseFaulted
  else if kindTakes need s.kind then
    match field with
    | none => .next (s.raise .configurationError)
    | some f =>
      if s.mode = mode then
        match body f s with
        | .ok t => .next { t with resp := .ok }
        | .error e => .next (s.raise e)
      else .next (s.raise .modeError)
  else .next (s.raise .illegalCommand)

/-- `runCommand` for a command that uses no field. -/
def runPlain (need : KindNeed) (mode : Mode) (body : State → Except Response State) (s : State) :
    Host.Outcome State Fault Refusal :=
  runCommand need (some ()) mode (fun _ => body) s

/-! ### The command port -/

/-- A DIN longer than MAX_CAPACITY is outside the interface (R394; log entry 7). -/
def State.admits (s : State) (c : Command) : Bool := decide (c.din.length ≤ s.params.maxCapacity)

/-- The unit takes command `c` from the port: its operands are presented, `rest` is still to be issued (R35, R71). -/
def State.load (c : Command) (rest : List Command) (s : State) : State :=
  { s with opA := c.a, opDin := c.din, pending := rest }

/-- The OP values of the CONSTRUCT commands, taken while FAULT = 1 too (R352 1, R355). -/
def isConstructOp (op : BitVec 8) : Bool := op == 1#8 || op == 2#8 || op == 3#8

/-- A word that spells no command (R352 1 to 3): FAULTED under a fault unless its OP is a CONSTRUCT's; else ILLEGAL_COMMAND,
which for a malformed CONSTRUCT resets the unit first (R135). -/
def State.rejectWord (e : DecodeError) (s : State) : State :=
  match e with
  | .unassignedOp _ => if s.fault then s.refuseFaulted else s.raise .illegalCommand
  | .reservedBits op =>
    if isConstructOp op then s.failConstruct .illegalCommand
    else if s.fault then s.refuseFaulted else s.raise .illegalCommand

/-- The command whose word is an opcode-table word of `nbits` bits, with A = 0 and an empty DIN. -/
def tableCommand (nbits w : Nat) : Command :=
  { cmd := BitVec.ofNat 32 (w % 2 ^ nbits), a := 0, din := [] }

end Sys2Proof.Machine
end

