-- ==== Sys2Proof/Machine/AccessMode.lean ====
section
/-! DEFINITION. The access-mode commands (41_access_mode.md R160, R161). Entering the mode the unit is in is a MODE_ERROR, by
the MODE check of `runCommand` (R162). -/

namespace Sys2Proof.Machine

/-- ENTER_BIT (R160): BITIDX <- CURSOR * 8; CURSOR stays. -/
def execEnterBit (s : State) : Host.Outcome State Fault Refusal :=
  runPlain .built .byte (fun s => .ok { s with bitIdx := reg (s.cursor.toNat * 8), mode := .bit }) s

/-- ENTER_BYTE (R161): CURSOR <- ceil(BITIDX / 8); BITIDX stays. -/
def execEnterByte (s : State) : Host.Outcome State Fault Refusal :=
  runPlain .built .bit (fun s => .ok { s with cursor := reg ((s.bitIdx.toNat + 7) / 8), mode := .byte }) s

end Sys2Proof.Machine
end

