-- ==== Sys2Proof/Machine/Operands.lean ====
section
/-! DEFINITION. Every operand form: the field codes (30_encoding.md R92 to R95, R99), the byte orders and transforms of the
scalar codec (42_scalar.md R180 to R185), widening to 64 bits (00_scope.md R13) and big-endian values (44_varint.md). -/

namespace Sys2Proof.Machine

/-! ### Field codes -/

/-- R92. -/
def widthOf (wid : BitVec 4) : Option Width :=
  match wid.toNat with
  | 1 => some .w1
  | 2 => some .w2
  | 3 => some .w3
  | 4 => some .w4
  | 8 => some .w8
  | _ => none

/-- R93. -/
def orderOf (ord : BitVec 3) : Option ByteOrder :=
  match ord.toNat with
  | 0 => some .big
  | 1 => some .little
  | 2 => some .middle
  | 3 => some .inverseMiddle
  | _ => none

/-- R94. -/
def transformOf (tr : BitVec 3) : Option Transform :=
  match tr.toNat with
  | 0 => some .none
  | 1 => some .add
  | 2 => some .subtract
  | 3 => some .negate
  | _ => none

/-- R95: the bit-field width n. -/
def bitWidthOf (nbits : BitVec 6) : Option Nat :=
  if 1 ≤ nbits.toNat ∧ nbits.toNat ≤ 32 then some nbits.toNat else none

/-- The byte count w of a scalar field (R180). -/
def widthBytes : Width → Nat
  | .w1 => 1
  | .w2 => 2
  | .w3 => 3
  | .w4 => 4
  | .w8 => 8

/-- The parameters of a scalar command (R180). -/
structure ScalarField where
  width     : Width
  order     : ByteOrder
  transform : Transform
deriving DecidableEq, Repr

/-- R99 1 and 2: a middle order takes four bytes and no transform. -/
def combines (f : ScalarField) : Bool :=
  match f.order with
  | .big => true
  | .little => true
  | .middle => f.width == .w4 && f.transform == .none
  | .inverseMiddle => f.width == .w4 && f.transform == .none

/-- The field of PUT and GET_S, `none` where its codes or their combination are illegal (R92 to R94, R99). -/
def scalarField (wid : BitVec 4) (ord tr : BitVec 3) : Option ScalarField :=
  match widthOf wid, orderOf ord, transformOf tr with
  | some w, some o, some t => if combines ⟨w, o, t⟩ then some ⟨w, o, t⟩ else none
  | _, _, _ => none

/-- The field of GET_U: as PUT's, and not of 8 bytes (R99 3). -/
def unsignedField (wid : BitVec 4) (ord tr : BitVec 3) : Option ScalarField :=
  match scalarField wid ord tr with
  | some f => if f.width = .w8 then none else some f
  | none => none

/-! ### Widening -/

/-- `zext_N(v)` (R13). -/
def zext (n v : Nat) : DWord := (BitVec.ofNat n v).setWidth 64

/-- `sext_N(v)` (R13). -/
def sext (n v : Nat) : DWord := (BitVec.ofNat n v).signExtend 64

/-! ### Bytes of a value -/

/-- `byte_j(v) = v[8j+7:8j]` (R182). -/
def byteOf (v j : Nat) : Byte := BitVec.ofNat 8 (v >>> (8 * j))

/-- The bytes of v as a big-endian number of n bytes. -/
def beBytes (n v : Nat) : List Byte := (List.range n).map (fun k => byteOf v (n - 1 - k))

/-- The big-endian unsigned number of a byte list (`(s[0] << 8) | s[1]` and its longer forms). -/
def beValue (bytes : List Byte) : Nat := bytes.foldl (fun v b => (v <<< 8) ||| b.toNat) 0

/-! ### Byte order and transform -/

/-- The index of the value byte at stream position k (the table of R182). -/
def byteIndexAt (o : ByteOrder) (w k : Nat) : Nat :=
  match o with
  | .big => w - 1 - k
  | .little => k
  | .middle => [1, 0, 3, 2].getD k 0
  | .inverseMiddle => [2, 3, 0, 1].getD k 0

/-- `pos(ORD, w, j)`: the stream position of value byte j (R182). -/
def streamPos (o : ByteOrder) (w j : Nat) : Nat :=
  match o with
  | .big => w - 1 - j
  | .little => j
  | .middle => [1, 0, 3, 2].getD j 0
  | .inverseMiddle => [2, 3, 0, 1].getD j 0

/-- `enc`, the transform of a byte that is written (R184). -/
def encByte (t : Transform) (b : Byte) : Byte :=
  match t with
  | .none => b
  | .add => b + 128#8
  | .subtract => 128#8 - b
  | .negate => -b

/-- `dec`, the transform of a byte that is read (R184). -/
def decByte (t : Transform) (b : Byte) : Byte :=
  match t with
  | .none => b
  | .add => b - 128#8
  | .subtract => 128#8 - b
  | .negate => -b

/-- The bytes PUT writes for the value v, in stream order; the transform is value byte 0's alone (R183, R186). -/
def scalarBytes (f : ScalarField) (v : Nat) : List Byte :=
  (List.range (widthBytes f.width)).map (fun k =>
    let j := byteIndexAt f.order (widthBytes f.width) k
    if j = 0 then encByte f.transform (byteOf v j) else byteOf v j)

/-- `assemble(ORD, TR, w)` on the bytes taken (R185). -/
def assemble (f : ScalarField) (bytes : List Byte) : Nat :=
  (List.range (widthBytes f.width)).foldl (fun v j =>
    let s := bytes.getD (streamPos f.order (widthBytes f.width) j) 0
    let b := if j = 0 then decByte f.transform s else s
    v ||| (b.toNat <<< (8 * j))) 0

end Sys2Proof.Machine
end

