-- ==== Sys2Proof/Machine/Bits.lean ====
section
/-! DEFINITION. The bit packer and unpacker (43_bits.md R230 to R239): the mask ROM, the source's two loops, and the
commands. -/

namespace Sys2Proof.Machine

/-- The mask ROM, entries 0 to 32 (R231). -/
def maskRom : List Nat :=
  [0x00000000, 0x00000001, 0x00000003, 0x00000007, 0x0000000F, 0x0000001F, 0x0000003F, 0x0000007F,
   0x000000FF, 0x000001FF, 0x000003FF, 0x000007FF, 0x00000FFF, 0x00001FFF, 0x00003FFF, 0x00007FFF,
   0x0000FFFF, 0x0001FFFF, 0x0003FFFF, 0x0007FFFF, 0x000FFFFF, 0x001FFFFF, 0x003FFFFF, 0x007FFFFF,
   0x00FFFFFF, 0x01FFFFFF, 0x03FFFFFF, 0x07FFFFFF, 0x0FFFFFFF, 0x1FFFFFFF, 0x3FFFFFFF, 0x7FFFFFFF,
   0xFFFFFFFF]

/-- `MASK[w]` (R231). -/
def maskOf (w : Nat) : Nat := maskRom.getD w 0

/-- The bytes a field of width n at bit index b touches, `ceil(((b & 7) + n) / 8)` (R237). -/
def touchedBytes (b n : Nat) : Nat := (b % 8 + n + 7) / 8

/-- The unpack loop (R234) from byte p with `off` bits left in it and `rem` bits still to read. The first argument bounds the
rounds: a field takes one for each byte it touches. -/
def unpackLoop (m : Memory) : Nat → Nat → Nat → Nat → Nat → Nat
  | 0, _, _, _, v => v
  | rounds + 1, p, off, rem, v =>
    if off < rem then
      unpackLoop m rounds (p + 1) 8 (rem - off)
        (v ||| (((m.read p).toNat &&& maskOf off) <<< (rem - off)))
    else if rem = off then v ||| ((m.read p).toNat &&& maskOf off)
    else v ||| (((m.read p).toNat >>> (off - rem)) &&& maskOf rem)

/-- `unpack(n)` at bit index b (R233, R234). -/
def unpack (m : Memory) (b n : Nat) : Nat :=
  unpackLoop m (touchedBytes b n) (b >>> 3) (8 - b % 8) n 0

/-- The byte that holds `new` where `clear` has ones and its old bits elsewhere (R235). -/
def mergeByte (old : Byte) (clear new : Nat) : Byte :=
  BitVec.ofNat 8 ((old.toNat &&& (0xFF ^^^ clear)) ||| new)

/-- The pack loop (R235), with the arguments of `unpackLoop` and the value v. -/
def packLoop (v : Nat) : Nat → Memory → Nat → Nat → Nat → Memory
  | 0, m, _, _, _ => m
  | rounds + 1, m, p, off, rem =>
    if off < rem then
      packLoop v rounds (m.write p (mergeByte (m.read p) (maskOf off) ((v >>> (rem - off)) &&& maskOf off)))
        (p + 1) 8 (rem - off)
    else if rem = off then m.write p (mergeByte (m.read p) (maskOf off) (v &&& maskOf off))
    else m.write p (mergeByte (m.read p) (maskOf rem <<< (off - rem)) ((v &&& maskOf rem) <<< (off - rem)))

/-- `pack(n, v)` at bit index b (R233, R235). -/
def pack (m : Memory) (b n v : Nat) : Memory :=
  packLoop v (touchedBytes b n) m (b >>> 3) (8 - b % 8) n

/-- PUT_BITS (R238): writes `A[n-1:0]` (decision D15) and grows over every byte touched (R237). -/
def execPutBits (nbits : BitVec 6) (s : State) : Host.Outcome State Fault Refusal :=
  runCommand .writer (bitWidthOf nbits) .bit (fun n s =>
    let b := s.bitIdx.toNat
    (s.cover (b >>> 3 + touchedBytes b n)).map (fun t =>
      { t with mem := pack t.mem b n (s.opA.toNat % 2 ^ n), bitIdx := reg (b + n) })) s

/-- GET_BITS (R239): R is the unsigned field (decision D14); every byte touched lies below LEN (decision D38). -/
def execGetBits (nbits : BitVec 6) (s : State) : Host.Outcome State Fault Refusal :=
  runCommand .reader (bitWidthOf nbits) .bit (fun n s =>
    let b := s.bitIdx.toNat
    if b >>> 3 + touchedBytes b n ≤ s.len.toNat then
      .ok { s with bitIdx := reg (b + n), r := zext 32 (unpack s.mem b n) }
    else .error .boundsError) s

end Sys2Proof.Machine
end

