-- ==== Sys2Proof/Machine/Blocks.lean ====
section
/-! DEFINITION. The string and byte-block codec (45_string_block.md R310 to R320). A string is a byte sequence. -/

namespace Sys2Proof.Machine

/-- The count of bytes from index i, of the `left` bytes that are left, before the first 0x00 (R311). -/
def scanString (m : Memory) (i : Nat) : Nat → Nat
  | 0 => 0
  | left + 1 => if m.read i = 0#8 then 0 else scanString m (i + 1) left + 1

/-- GET_STR's effect (R311): the terminator is consumed and left out of DOUT; a string that runs to the end is no error. -/
def State.readString (s : State) : State :=
  let n := scanString s.mem s.cursor.toNat (s.len.toNat - s.cursor.toNat)
  let i := s.cursor.toNat + n
  { s with
    dout := s.mem.readBytes s.cursor.toNat n
    cursor := if i < s.len.toNat then reg (i + 1) else s.len }

/-- A string to be written holds no 0x00, else RANGE_ERROR; its bytes and the terminator are written (R310, R312, R314). -/
def State.writeString (s : State) : Except Response State :=
  if 0#8 ∈ s.opDin then .error .rangeError else s.emit (s.opDin ++ [0#8])

/-- A block read: A bytes are taken and DOUT is what `f` makes of them (R315, R317, R319). -/
def State.readBlock (f : List Byte → List Byte) (s : State) : Except Response State :=
  (s.take s.opA.toNat).map (fun x => { x.2 with dout := f x.1 })

/-- PUT_STR (R312). -/
def execPutStr (s : State) : Host.Outcome State Fault Refusal :=
  runPlain .writer .byte (fun s => s.writeString) s

/-- GET_STR (R311): no BOUNDS_ERROR in any case. -/
def execGetStr (s : State) : Host.Outcome State Fault Refusal :=
  runPlain .reader .byte (fun s => .ok s.readString) s

/-- PUT_FSTR (R314): the same bytes as PUT_STR. -/
def execPutFstr (s : State) : Host.Outcome State Fault Refusal :=
  runPlain .writer .byte (fun s => s.writeString) s

/-- GET_FSTR (R313): a zero first byte is consumed and stands for the empty string; any other is the string's first byte. -/
def execGetFstr (s : State) : Host.Outcome State Fault Refusal :=
  runPlain .reader .byte (fun s =>
    match s.peek with
    | .error e => .error e
    | .ok b0 =>
      if b0 = 0#8 then (s.take 1).map (fun x => { x.2 with dout := [] }) else .ok s.readString) s

/-- PUT_BLK (R316). -/
def execPutBlk (s : State) : Host.Outcome State Fault Refusal :=
  runPlain .writer .byte (fun s => s.emit s.opDin) s

/-- GET_BLK (R315). -/
def execGetBlk (s : State) : Host.Outcome State Fault Refusal :=
  runPlain .reader .byte (fun s => s.readBlock id) s

/-- PUT_BLK_REV (R318). -/
def execPutBlkRev (s : State) : Host.Outcome State Fault Refusal :=
  runPlain .writer .byte (fun s => s.emit s.opDin.reverse) s

/-- GET_BLK_REV (R317). -/
def execGetBlkRev (s : State) : Host.Outcome State Fault Refusal :=
  runPlain .reader .byte (fun s => s.readBlock List.reverse) s

/-- PUT_BLK_T (R320): every byte is transformed; NONE is a plain copy. -/
def execPutBlkT (tr : BitVec 3) (s : State) : Host.Outcome State Fault Refusal :=
  runCommand .writer (transformOf tr) .byte (fun t s => s.emit (s.opDin.map (encByte t))) s

/-- GET_BLK_T (R319). -/
def execGetBlkT (tr : BitVec 3) (s : State) : Host.Outcome State Fault Refusal :=
  runCommand .reader (transformOf tr) .byte (fun t s => s.readBlock (List.map (decByte t))) s

end Sys2Proof.Machine
end

