-- ==== Sys2Proof/Machine/Lifecycle.lean ====
section
/-! DEFINITION. The lifecycle commands (40_lifecycle.md R130 to R137). The CONSTRUCT commands are taken in every KIND and MODE
and while FAULT = 1. -/

namespace Sys2Proof.Machine

/-- CONSTRUCT_READER (R130). -/
def execConstructReader (s : State) : Host.Outcome State Fault Refusal :=
  .next (s.construct .reader (Memory.ofBytes s.opDin) s.opDin.length s.opDin.length)

/-- CONSTRUCT_WRITER (R131). -/
def execConstructWriter (s : State) : Host.Outcome State Fault Refusal :=
  .next (s.construct .writer [] 0 s.params.defaultCapacity)

/-- CONSTRUCT_WRITER_CAP (R132): A is the unsigned capacity; past MAX_CAPACITY it is a RANGE_ERROR (R135). -/
def execConstructWriterCap (s : State) : Host.Outcome State Fault Refusal :=
  if s.opA.toNat ≤ s.params.maxCapacity then .next (s.construct .writer [] 0 s.opA.toNat)
  else .next (s.failConstruct .rangeError)

/-- FINALIZE_EXACT (R133): the new reader holds the bytes written so far. -/
def execFinalizeExact (s : State) : Host.Outcome State Fault Refusal :=
  runPlain .writer .byte (fun s => .ok (s.finalize s.cursor)) s

/-- FINALIZE_FULL (R134): the new reader holds the writer's whole capacity. -/
def execFinalizeFull (s : State) : Host.Outcome State Fault Refusal :=
  runPlain .writer .byte (fun s => .ok (s.finalize s.cap)) s

/-- MARK (R136). -/
def execMark (s : State) : Host.Outcome State Fault Refusal :=
  runPlain .built .byte (fun s => .ok { s with mark := s.cursor }) s

/-- RESET_CURSOR (R137): a writer's bytes stay. -/
def execResetCursor (s : State) : Host.Outcome State Fault Refusal :=
  runPlain .built .byte (fun s => .ok { s with cursor := s.mark }) s

end Sys2Proof.Machine
end

