-- ==== Sys2Proof/Machine/Scalar.lean ====
section
/-! DEFINITION. The scalar codec commands (42_scalar.md R186 to R188). -/

namespace Sys2Proof.Machine

/-- A scalar read: the field's bytes are taken and assembled (R185), and R is what `widen w v` makes of the value. -/
def State.readScalar (widen : Nat → Nat → DWord) (f : ScalarField) (s : State) : Except Response State :=
  (s.take (widthBytes f.width)).map (fun x =>
    { x.2 with r := widen (8 * widthBytes f.width) (assemble f x.1) })

/-- PUT (R186): writes `A[8w-1:0]` (decision D13). -/
def execPut (wid : BitVec 4) (ord tr : BitVec 3) (s : State) : Host.Outcome State Fault Refusal :=
  runCommand .writer (scalarField wid ord tr) .byte
    (fun f s => s.emit (scalarBytes f (s.opA.toNat % 2 ^ (8 * widthBytes f.width)))) s

/-- GET_S (R187): R is the sign-extended value. -/
def execGetS (wid : BitVec 4) (ord tr : BitVec 3) (s : State) : Host.Outcome State Fault Refusal :=
  runCommand .reader (scalarField wid ord tr) .byte (fun f s => s.readScalar sext f) s

/-- GET_U (R188): R is the zero-extended value; an 8-byte field is a CONFIGURATION_ERROR. -/
def execGetU (wid : BitVec 4) (ord tr : BitVec 3) (s : State) : Host.Outcome State Fault Refusal :=
  runCommand .reader (unsignedField wid ord tr) .byte (fun f s => s.readScalar zext f) s

end Sys2Proof.Machine
end

