-- ==== Sys2Proof/Machine/Smart.lean ====
section
/-! DEFINITION. The variable-length integer codec (44_varint.md R260 to R269). -/

namespace Sys2Proof.Machine

/-! ### Shared reads and forms -/

/-- Takes n bytes as a big-endian unsigned number. -/
def State.takeBe (n : Nat) (s : State) : Except Response (Nat × State) :=
  (s.take n).map (fun x => (beValue x.1, x.2))

/-- A smart read (R260): the byte at CURSOR is peeked, and its bit 7 chooses between `short` and `long` bytes; the result says
which was chosen, with the big-endian number taken. -/
def State.takeSmart (short long : Nat) (s : State) : Except Response ((Bool × Nat) × State) :=
  match s.peek with
  | .error e => .error e
  | .ok b0 =>
    if b0.toNat < 0x80 then (s.takeBe short).map (fun x => ((false, x.1), x.2))
    else (s.takeBe long).map (fun x => ((true, x.1), x.2))

/-- The value of an unsigned smart (R260). -/
def usmartValue (x : Bool × Nat) : Nat := if x.1 then x.2 - 0x8000 else x.2

/-- `usmart_read()` (R260). -/
def State.usmartRead (s : State) : Except Response (Nat × State) :=
  (s.takeSmart 1 2).map (fun x => (usmartValue x.1, x.2))

/-- The bytes PUT_USMART writes for v (R262). -/
def usmartBytes (v : Nat) : List Byte :=
  if v < 0x80 then beBytes 1 v else beBytes 2 (v + 0x8000)

/-- The value of a signed smart (R263). -/
def ssmartValue (x : Bool × Nat) : Int := if x.1 then (x.2 : Int) - 0xC000 else (x.2 : Int) - 64

/-- The bytes PUT_SSMART writes for v (R264). -/
def ssmartBytes (v : Int) : List Byte :=
  if -64 ≤ v ∧ v ≤ 63 then beBytes 1 (v + 64).toNat else beBytes 2 (v + 0xC000).toNat

/-- The value of a big smart (R268). -/
def bsmartValue (x : Bool × Nat) : Nat := if x.1 then x.2 &&& 0x7FFFFFFF else x.2

/-- The bytes PUT_BSMART writes for v (R269). -/
def bsmartBytes (v : Nat) : List Byte :=
  if v ≤ 32767 then beBytes 2 v else beBytes 4 (v ||| 0x80000000)

/-- The sentinel that continues a chained smart (R265). -/
def sentinel : Nat := 32767

/-- The chain loop (R265, R267): the accumulator is 64 bits. The first argument bounds the rounds; every round takes at least
one byte, so one more round than there are bytes left is never used up (log entry 14). -/
def xsmartLoop : Nat → DWord → State → Except Response (DWord × State)
  | 0, _, _ => .error .boundsError
  | rounds + 1, acc, s =>
    match s.usmartRead with
    | .error e => .error e
    | .ok (u, t) =>
      if u = sentinel then xsmartLoop rounds (acc + reg sentinel) t else .ok (acc + reg u, t)

/-- The chained read at CURSOR (R265). -/
def State.xsmartRead (s : State) : Except Response (DWord × State) :=
  xsmartLoop (s.len.toNat - s.cursor.toNat + 1) 0 s

/-- The bytes PUT_XSMART writes for v (R266): q sentinels and the smart of the remainder. -/
def xsmartBytes (v : Nat) : List Byte :=
  (List.replicate (v / sentinel) (beBytes 2 0xFFFF)).flatten ++ usmartBytes (v % sentinel)

/-- The length of `xsmartBytes v`, without building the list. -/
def xsmartLength (v : Nat) : Nat := 2 * (v / sentinel) + (usmartBytes (v % sentinel)).length

/-- `require lo ≤ A ≤ hi else RANGE_ERROR` for A as a signed number (R102, decision D20), then the body. -/
def State.requireRange (lo hi : Int) (body : Int → State → Except Response State) (s : State) :
    Except Response State :=
  if lo ≤ s.opA.toInt ∧ s.opA.toInt ≤ hi then body s.opA.toInt s else .error .rangeError

/-! ### Commands -/

/-- PUT_USMART (R262). -/
def execPutUsmart (s : State) : Host.Outcome State Fault Refusal :=
  runPlain .writer .byte (State.requireRange 0 32767 (fun v s => s.emit (usmartBytes v.toNat))) s

/-- GET_USMART (R261). -/
def execGetUsmart (s : State) : Host.Outcome State Fault Refusal :=
  runPlain .reader .byte (fun s => s.usmartRead.map (fun x => { x.2 with r := zext 16 x.1 })) s

/-- PUT_SSMART (R264). -/
def execPutSsmart (s : State) : Host.Outcome State Fault Refusal :=
  runPlain .writer .byte (State.requireRange (-16384) 16383 (fun v s => s.emit (ssmartBytes v))) s

/-- GET_SSMART (R263). -/
def execGetSsmart (s : State) : Host.Outcome State Fault Refusal :=
  runPlain .reader .byte (fun s =>
    (s.takeSmart 1 2).map (fun x => { x.2 with r := BitVec.ofInt 64 (ssmartValue x.1) })) s

/-- PUT_XSMART (R266). -/
def execPutXsmart (s : State) : Host.Outcome State Fault Refusal :=
  runPlain .writer .byte (State.requireRange 0 (2 ^ 63 - 1) (fun v s =>
    s.emitSized (xsmartLength v.toNat) (fun _ => xsmartBytes v.toNat))) s

/-- GET_XSMART (R265). -/
def execGetXsmart (s : State) : Host.Outcome State Fault Refusal :=
  runPlain .reader .byte (fun s => s.xsmartRead.map (fun x => { x.2 with r := x.1 })) s

/-- PUT_BSMART (R269). -/
def execPutBsmart (s : State) : Host.Outcome State Fault Refusal :=
  runPlain .writer .byte (State.requireRange 0 (2 ^ 31 - 1) (fun v s => s.emit (bsmartBytes v.toNat))) s

/-- GET_BSMART (R268). -/
def execGetBsmart (s : State) : Host.Outcome State Fault Refusal :=
  runPlain .reader .byte (fun s =>
    (s.takeSmart 2 4).map (fun x => { x.2 with r := zext 32 (bsmartValue x.1) })) s

end Sys2Proof.Machine
end

