-- ==== Sys2Proof/Machine/Dispatch.lean ====
section
/-! DEFINITION. The dispatch of a decoded command to its meaning: one arm per constructor. -/

namespace Sys2Proof.Machine

def exec (i : Instr) (s : State) : Host.Outcome State Fault Refusal :=
  match i with
  | .constructReader => Sys2Proof.Machine.execConstructReader s
  | .constructWriter => Sys2Proof.Machine.execConstructWriter s
  | .constructWriterCap => Sys2Proof.Machine.execConstructWriterCap s
  | .finalizeExact => Sys2Proof.Machine.execFinalizeExact s
  | .finalizeFull => Sys2Proof.Machine.execFinalizeFull s
  | .mark => Sys2Proof.Machine.execMark s
  | .resetCursor => Sys2Proof.Machine.execResetCursor s
  | .enterBit => Sys2Proof.Machine.execEnterBit s
  | .enterByte => Sys2Proof.Machine.execEnterByte s
  | .put wid ord tr => Sys2Proof.Machine.execPut wid ord tr s
  | .getS wid ord tr => Sys2Proof.Machine.execGetS wid ord tr s
  | .getU wid ord tr => Sys2Proof.Machine.execGetU wid ord tr s
  | .putBits nbits => Sys2Proof.Machine.execPutBits nbits s
  | .getBits nbits => Sys2Proof.Machine.execGetBits nbits s
  | .putUsmart => Sys2Proof.Machine.execPutUsmart s
  | .getUsmart => Sys2Proof.Machine.execGetUsmart s
  | .putSsmart => Sys2Proof.Machine.execPutSsmart s
  | .getSsmart => Sys2Proof.Machine.execGetSsmart s
  | .putXsmart => Sys2Proof.Machine.execPutXsmart s
  | .getXsmart => Sys2Proof.Machine.execGetXsmart s
  | .putBsmart => Sys2Proof.Machine.execPutBsmart s
  | .getBsmart => Sys2Proof.Machine.execGetBsmart s
  | .putStr => Sys2Proof.Machine.execPutStr s
  | .getStr => Sys2Proof.Machine.execGetStr s
  | .putFstr => Sys2Proof.Machine.execPutFstr s
  | .getFstr => Sys2Proof.Machine.execGetFstr s
  | .putBlk => Sys2Proof.Machine.execPutBlk s
  | .getBlk => Sys2Proof.Machine.execGetBlk s
  | .putBlkRev => Sys2Proof.Machine.execPutBlkRev s
  | .getBlkRev => Sys2Proof.Machine.execGetBlkRev s
  | .putBlkT tr => Sys2Proof.Machine.execPutBlkT tr s
  | .getBlkT tr => Sys2Proof.Machine.execGetBlkT tr s

end Sys2Proof.Machine
end

