-- ==== Sys2Proof/Machine/Step.lean ====
section
/-! DEFINITION. One step of the unit: the next command the host has issued, decoded and run (00_scope.md R19; 20_memory.md R66,
R71). There is no program counter and nothing is fetched from Mem (10_state.md R26, 20_memory.md R64). -/

namespace Sys2Proof.Machine

/-- One step. With no command issued the unit is idle and keeps all its state (60_exceptions.md R364; log entry 8). -/
def step (s : State) : Host.Outcome State Fault Refusal :=
  match s.pending with
  | [] => .next s
  | c :: rest =>
    if s.admits c then
      match decode c.cmd with
      | .ok i => exec i (s.load c rest)
      | .error e => .next ((s.load c rest).rejectWord e)
    else .refused .dinTooLong

/-- `s` with the opcode-table word `w` issued as its next command, A = 0 and DIN empty (log entry 1). -/
def State.withFetchWord (s : State) (nbits w : Nat) : State :=
  { s with pending := tableCommand nbits w :: s.pending }

end Sys2Proof.Machine
end

