-- ==== Sys2Proof/Machine/Flags.lean ====
section
/-! DEFINITION. The status flags FAULT, ERR and MODE as the host sees them: the codes of the enumerations and the STATUS and
RESP words (10_state.md R33, R34, R40; 60_exceptions.md R350). No command computes an arithmetic flag (R33). -/

namespace Sys2Proof.Machine

/-- The 3-bit response codes (R350). -/
def responseCode : Response → BitVec 3
  | .ok => 0#3
  | .modeError => 1#3
  | .configurationError => 2#3
  | .boundsError => 3#3
  | .rangeError => 4#3
  | .illegalCommand => 5#3
  | .faulted => 6#3

/-- STATUS bit 1 (R34). -/
def modeCode : Mode → BitVec 1
  | .byte => 0#1
  | .bit => 1#1

/-- STATUS bits 3:2 (R34); 3 is never read. -/
def kindCode : Kind → BitVec 2
  | .none => 0#2
  | .reader => 1#2
  | .writer => 2#2

/-- STATUS: bit 0 FAULT, bit 1 MODE, bits 3:2 KIND, bits 6:4 ERR, bits 31:7 zero (R34). -/
def statusWord (s : State) : BitVec 32 :=
  (BitVec.ofBool s.fault).setWidth 32 ||| (modeCode s.mode).setWidth 32 <<< 1
    ||| (kindCode s.kind).setWidth 32 <<< 2 ||| (responseCode s.err).setWidth 32 <<< 4

/-- The RESP word: bits 2:0 RESP, bits 31:3 zero (R34). -/
def respWord (s : State) : BitVec 32 := (responseCode s.resp).setWidth 32

end Sys2Proof.Machine
end

