-- ==== Sys2Proof/Machine/HostPort.lean ====
section
/-! DEFINITION. The host's reads of the unit's registers (10_state.md R34): no side effect, and no way to write. -/

namespace Sys2Proof.Machine

/-- The registers of R34, numbers 0 to 8 in this order. -/
inductive HostReg where
  | status | resp | cursor | bitIdx | len | cap | mark | r | dout
deriving DecidableEq, Repr

/-- The register of a number (R34); no other number names one. -/
def hostRegOf : Nat → Option HostReg
  | 0 => some .status
  | 1 => some .resp
  | 2 => some .cursor
  | 3 => some .bitIdx
  | 4 => some .len
  | 5 => some .cap
  | 6 => some .mark
  | 7 => some .r
  | 8 => some .dout
  | _ => none

/-- A value read: 32 bits, 64 bits or a byte list (R34). -/
inductive HostValue where
  | word (v : Word)
  | dword (v : DWord)
  | bytes (v : List Byte)
deriving DecidableEq, Repr

/-- The LEN register: a reader's LEN, a writer's CURSOR, else 0 (R34). -/
def lenRegister (s : State) : DWord :=
  match s.kind with
  | .reader => s.len
  | .writer => s.cursor
  | .none => 0

/-- The CAP register: a writer's CAP, a reader's LEN, else 0 (R34). -/
def capRegister (s : State) : DWord :=
  match s.kind with
  | .reader => s.len
  | .writer => s.cap
  | .none => 0

/-- The value the host reads (R34). R and DOUT before the first command that writes them: log entries 5, 6 and 15. -/
def hostRead (reg : HostReg) (s : State) : HostValue :=
  match reg with
  | .status => .word (statusWord s)
  | .resp => .word (respWord s)
  | .cursor => .dword s.cursor
  | .bitIdx => .dword s.bitIdx
  | .len => .dword (lenRegister s)
  | .cap => .dword (capRegister s)
  | .mark => .dword s.mark
  | .r => .dword s.r
  | .dout => .bytes s.dout

end Sys2Proof.Machine
end

