-- ==== Sys2Proof/Machine/System.lean ====
section
/-! DEFINITION. Several units (00_scope.md R7): each has a state of its own and they share nothing (60_exceptions.md R357). -/

namespace Sys2Proof.Machine

/-- The units of a system, by number. The numbers are the model's: a unit does not see its own (R357). -/
abbrev System := List State

/-- One step of unit `k`; a number that names no unit does nothing. -/
def stepUnit (sys : System) (k : Nat) : Host.Outcome System Fault Refusal :=
  match sys[k]? with
  | none => .next sys
  | some s =>
    match step s with
    | .next t => .next (sys.set k t)
    | .fault f => .fault f
    | .refused r => .refused r

end Sys2Proof.Machine
end

