-- ==== Sys2Proof/Safety.lean ====
section
/-! DEFINITION. What holds of a unit between commands (10_state.md R38 and the ranges of R21 to R33), and what a faulted unit
is (70_reset_and_hazards.md R395). -/

namespace Sys2Proof.Machine

/-- Every listed byte of the storage lies below n (R29: Mem has the indices 0 to CAP-1). -/
abbrev Memory.within (m : Memory) (n : Nat) : Prop := ∀ c ∈ m, c.1 < n

/-- R38 for a READER. -/
abbrev State.readerInv (s : State) : Prop :=
  s.mark.toNat ≤ s.cursor.toNat ∧ s.cursor.toNat ≤ s.len.toNat ∧ s.len = s.cap ∧
  s.len.toNat ≤ s.params.maxCapacity ∧
  (s.mode = .bit → 8 * s.cursor.toNat ≤ s.bitIdx.toNat ∧ s.bitIdx.toNat ≤ 8 * s.len.toNat)

/-- R38 for a WRITER, whose LEN is 0 (R39). -/
abbrev State.writerInv (s : State) : Prop :=
  s.mark.toNat ≤ s.cursor.toNat ∧ s.cursor.toNat ≤ s.cap.toNat ∧ s.len = 0 ∧
  s.cap.toNat ≤ s.params.maxCapacity ∧
  (s.mode = .bit → 8 * s.cursor.toNat ≤ s.bitIdx.toNat ∧ s.bitIdx.toNat ≤ 8 * s.cap.toNat)

/-- R38 for KIND = NONE: as at power-on, but for R, DOUT, RESP, FAULT and ERR. -/
abbrev State.noneInv (s : State) : Prop :=
  s.mode = .byte ∧ s.cursor = 0 ∧ s.bitIdx = 0 ∧ s.len = 0 ∧ s.cap = 0 ∧ s.mark = 0 ∧ s.mem = []

/-- R38, by KIND. -/
abbrev State.kindInv (s : State) : Prop :=
  (s.kind = .reader → s.readerInv) ∧ (s.kind = .writer → s.writerInv) ∧ (s.kind = .none → s.noneInv)

/-- The status flags agree (R33, R350): ERR is OK exactly while FAULT = 0 and never FAULTED, and RESP is OK exactly while
FAULT = 0, since every error latches (R353). -/
abbrev State.flagsInv (s : State) : Prop :=
  (s.fault = false ↔ s.err = .ok) ∧ s.err ≠ .faulted ∧ (s.fault = false ↔ s.resp = .ok)

/-- The storage is in its canonical form and holds nothing at or past CAP (R29, R60). -/
abbrev State.memInv (s : State) : Prop := s.mem.wf ∧ s.mem.within s.cap.toNat

/-- The byte lists of the interface fit MAX_CAPACITY (R31, R35). -/
abbrev State.listInv (s : State) : Prop :=
  s.dout.length ≤ s.params.maxCapacity ∧ s.opDin.length ≤ s.params.maxCapacity

/-- What holds of a unit between commands. -/
abbrev State.Inv (s : State) : Prop :=
  s.params.legal ∧ s.memInv ∧ s.kindInv ∧ s.flagsInv ∧ s.listInv

/-- A faulted unit: only a CONSTRUCT command has an effect on it (R355, R395). -/
abbrev State.faulted (s : State) : Prop := s.fault = true

end Sys2Proof.Machine
end

