-- ==== Sys2Proof/WellFormed.lean ====
section
/-! DEFINITION. Which commands have legal parameters (30_encoding.md R92 to R95, R99). The others are commands too: their
meaning raises CONFIGURATION_ERROR. -/

namespace Sys2Proof

/-- R92: WID is 1, 2, 3, 4 or 8. -/
abbrev legalWid (wid : BitVec 4) : Prop := wid ∈ [1#4, 2#4, 3#4, 4#4, 8#4]

/-- R93: ORD is 0 to 3. -/
abbrev legalOrd (ord : BitVec 3) : Prop := ord.toNat ≤ 3

/-- R94: TR is 0 to 3. -/
abbrev legalTr (tr : BitVec 3) : Prop := tr.toNat ≤ 3

/-- R95: NBITS is 1 to 32. -/
abbrev legalNbits (nbits : BitVec 6) : Prop := 1 ≤ nbits.toNat ∧ nbits.toNat ≤ 32

/-- R99 1 and 2: MIDDLE and INVERSE_MIDDLE (codes 2 and 3) only with four bytes and without a transform. -/
abbrev legalCombination (wid : BitVec 4) (ord : BitVec 3) (tr : BitVec 3) : Prop :=
  ord = 2#3 ∨ ord = 3#3 → wid = 4#4 ∧ tr = 0#3

/-- The parameters of PUT and GET_S are legal. -/
abbrev legalScalar (wid : BitVec 4) (ord : BitVec 3) (tr : BitVec 3) : Prop :=
  legalWid wid ∧ legalOrd ord ∧ legalTr tr ∧ legalCombination wid ord tr

/-- A command whose parameters are legal. -/
def Instr.wellFormed : Instr → Bool
  | .constructReader => true
  | .constructWriter => true
  | .constructWriterCap => true
  | .finalizeExact => true
  | .finalizeFull => true
  | .mark => true
  | .resetCursor => true
  | .enterBit => true
  | .enterByte => true
  | .put wid ord tr => decide (legalScalar wid ord tr)
  | .getS wid ord tr => decide (legalScalar wid ord tr)
  -- R99 3: no unsigned read of an 8-byte field
  | .getU wid ord tr => decide (legalScalar wid ord tr ∧ wid ≠ 8#4)
  | .putBits nbits => decide (legalNbits nbits)
  | .getBits nbits => decide (legalNbits nbits)
  | .putUsmart => true
  | .getUsmart => true
  | .putSsmart => true
  | .getSsmart => true
  | .putXsmart => true
  | .getXsmart => true
  | .putBsmart => true
  | .getBsmart => true
  | .putStr => true
  | .getStr => true
  | .putFstr => true
  | .getFstr => true
  | .putBlk => true
  | .getBlk => true
  | .putBlkRev => true
  | .getBlkRev => true
  | .putBlkT tr => decide (legalTr tr)
  | .getBlkT tr => decide (legalTr tr)

end Sys2Proof
end

