-- ==== Sys2Proof/Certificates/Slice0/Obligations.lean ====
section
/-! DEFINITION. The statements for the provers. The definitions of `Sys2Proof.Claims` restate the spec's own tables, so that a
statement does not lean on the model's copy of them. -/

namespace Sys2Proof.Claims

open Sys2Proof.Machine

/-! ### The spec's tables -/

/-- The CONSTRUCT commands (R130 to R132). -/
def isConstruct : Instr → Bool
  | .constructReader => true
  | .constructWriter => true
  | .constructWriterCap => true
  | _ => false

/-- The FINALIZE commands (R133, R134). -/
def isFinalize : Instr → Bool
  | .finalizeExact => true
  | .finalizeFull => true
  | _ => false

/-- The KIND column of R97. -/
def kindsOf : Instr → List Kind
  | .constructReader => [.none, .reader, .writer]
  | .constructWriter => [.none, .reader, .writer]
  | .constructWriterCap => [.none, .reader, .writer]
  | .finalizeExact => [.writer]
  | .finalizeFull => [.writer]
  | .mark => [.reader, .writer]
  | .resetCursor => [.reader, .writer]
  | .enterBit => [.reader, .writer]
  | .enterByte => [.reader, .writer]
  | .put _ _ _ => [.writer]
  | .getS _ _ _ => [.reader]
  | .getU _ _ _ => [.reader]
  | .putBits _ => [.writer]
  | .getBits _ => [.reader]
  | .putUsmart => [.writer]
  | .getUsmart => [.reader]
  | .putSsmart => [.writer]
  | .getSsmart => [.reader]
  | .putXsmart => [.writer]
  | .getXsmart => [.reader]
  | .putBsmart => [.writer]
  | .getBsmart => [.reader]
  | .putStr => [.writer]
  | .getStr => [.reader]
  | .putFstr => [.writer]
  | .getFstr => [.reader]
  | .putBlk => [.writer]
  | .getBlk => [.reader]
  | .putBlkRev => [.writer]
  | .getBlkRev => [.reader]
  | .putBlkT _ => [.writer]
  | .getBlkT _ => [.reader]

/-- The MODE column of R97, the table of R162. -/
def modesOf : Instr → List Mode
  | .constructReader => [.byte, .bit]
  | .constructWriter => [.byte, .bit]
  | .constructWriterCap => [.byte, .bit]
  | .putBits _ => [.bit]
  | .getBits _ => [.bit]
  | .enterByte => [.bit]
  | _ => [.byte]

/-- The masks of R98, by OP; `none` for an unassigned OP. -/
def opMask (op : Nat) : Option Word :=
  if op ∈ [0x20, 0x21, 0x22] then some 0xFFFC00FF#32
  else if op ∈ [0x30, 0x31] then some 0xFF03FFFF#32
  else if op ∈ [0x58, 0x59] then some 0xFFFC7FFF#32
  else if 0x01 ≤ op ∧ op ≤ 0x07 ∨ 0x10 ≤ op ∧ op ≤ 0x11 ∨ 0x40 ≤ op ∧ op ≤ 0x47 ∨ 0x50 ≤ op ∧ op ≤ 0x57 then
    some 0xFFFFFFFF#32
  else none

/-- The OP of a word, `CMD[7:0]` (R90). -/
def opOf (w : Word) : Nat := w.toNat % 256

/-- A word that spells no command (R91, R96, R98). -/
def spellsNoCommand (w : Word) : Prop :=
  match opMask (opOf w) with
  | none => True
  | some m => w &&& m ≠ BitVec.ofNat 32 (opOf w)

/-- The codes of R92. -/
def widthName (n : Nat) : Width :=
  if n = 1 then .w1 else if n = 2 then .w2 else if n = 3 then .w3 else if n = 4 then .w4 else .w8

/-- The codes of R93. -/
def orderName (n : Nat) : ByteOrder :=
  if n = 0 then .big else if n = 1 then .little else if n = 2 then .middle else .inverseMiddle

/-- The codes of R94. -/
def transformName (n : Nat) : Transform :=
  if n = 0 then .none else if n = 1 then .add else if n = 2 then .subtract else .negate

/-- The commands that write R (R30: "Every GET command that returns a number writes it"). -/
def writesR : Instr → Bool
  | .getS _ _ _ => true
  | .getU _ _ _ => true
  | .getBits _ => true
  | .getUsmart => true
  | .getSsmart => true
  | .getXsmart => true
  | .getBsmart => true
  | _ => false

/-- The commands that write DOUT (R31). -/
def writesDout : Instr → Bool
  | .getStr => true
  | .getFstr => true
  | .getBlk => true
  | .getBlkRev => true
  | .getBlkT _ => true
  | _ => false

/-- The commands, FINALIZE apart, that leave CURSOR where it is (R23: byte-mode commands advance it by the bytes they read or
write, ENTER_BYTE and RESET_CURSOR set it, and in BIT mode it holds): MARK, ENTER_BIT and the two bit commands. -/
def keepsCursor : Instr → Bool
  | .mark => true
  | .enterBit => true
  | .putBits _ => true
  | .getBits _ => true
  | _ => false

/-- The commands that write bytes of a writer's Mem and may grow its CAP (R27, R29): the PUT commands. -/
def writesMem : Instr → Bool
  | .put _ _ _ => true
  | .putBits _ => true
  | .putUsmart => true
  | .putSsmart => true
  | .putXsmart => true
  | .putBsmart => true
  | .putStr => true
  | .putFstr => true
  | .putBlk => true
  | .putBlkRev => true
  | .putBlkT _ => true
  | _ => false

/-- The commands whose A column in R97 is not "—". -/
def readsA : Instr → Bool
  | .constructWriterCap => true
  | .put _ _ _ => true
  | .putBits _ => true
  | .putUsmart => true
  | .putSsmart => true
  | .putXsmart => true
  | .putBsmart => true
  | .getBlk => true
  | .getBlkRev => true
  | .getBlkT _ => true
  | _ => false

/-- The commands whose DIN column in R97 is not "—". -/
def readsDin : Instr → Bool
  | .constructReader => true
  | .putStr => true
  | .putFstr => true
  | .putBlk => true
  | .putBlkRev => true
  | .putBlkT _ => true
  | _ => false

/-- The bits of the response codes (R350). -/
def codeOf : Response → Nat
  | .ok => 0
  | .modeError => 1
  | .configurationError => 2
  | .boundsError => 3
  | .rangeError => 4
  | .illegalCommand => 5
  | .faulted => 6

/-- The bits of KIND in STATUS (R34). -/
def kindBits : Kind → Nat
  | .none => 0
  | .reader => 1
  | .writer => 2

/-! ### States before and after a command -/

/-- No fault is latched, and KIND and MODE are those the command needs. -/
abbrev ready (k : Kind) (m : Mode) (s : State) : Prop := s.fault = false ∧ s.kind = k ∧ s.mode = m

/-- A writer in BYTE mode that keeps the constraints on its parameters (R9, R10) and its storage (R29, R60). -/
abbrev writing (s : State) : Prop := ready .writer .byte s ∧ s.params.legal ∧ s.memInv

/-- The state after an error while FAULT = 0 (R353, R354). -/
def latched (e : Response) (s : State) : State := { s with resp := e, fault := true, err := e }

/-- The state after a failing CONSTRUCT (R135): power-on, R and DOUT unchanged, then the latch; the inputs are no state. -/
def constructFailed (e : Response) (s : State) : State :=
  { State.powerOn s.params s.r s.dout with
    opA := s.opA, opDin := s.opDin, pending := s.pending, resp := e, fault := true, err := e }

/-- The state after n bytes are consumed and the command completes (R15, R23). -/
def consumed (n : Nat) (s : State) : State :=
  { s with cursor := BitVec.ofNat 64 (s.cursor.toNat + n), resp := .ok }

/-- `[Mem[c], …, Mem[c+n-1]]` (R14). -/
def bytesFrom (m : Memory) (c n : Nat) : List Byte := (List.range n).map (fun k => m.read (c + k))

/-- What `emit(bytes)` leaves (R15): the bytes at CURSOR and no other byte, CURSOR past them, CAP grown only if it was short;
every other field as before, RESP = OK. -/
def emitted (s t : State) (bytes : List Byte) : Prop :=
  t = { s with cursor := t.cursor, cap := t.cap, mem := t.mem, resp := .ok } ∧
  t.cursor.toNat = s.cursor.toNat + bytes.length ∧
  t.cap.toNat = (if s.cap.toNat < s.cursor.toNat + bytes.length then
      growTo s.params s.cap.toNat (s.cursor.toNat + bytes.length) else s.cap.toNat) ∧
  (∀ k < bytes.length, t.mem.read (s.cursor.toNat + k) = bytes.getD k 0) ∧
  ∀ a, a < s.cursor.toNat ∨ s.cursor.toNat + bytes.length ≤ a → t.mem.read a = s.mem.read a

/-- `i` emits `bytes` at `s` when they fit MAX_CAPACITY, and raises BOUNDS_ERROR when they do not (R15, D18). -/
def emits (i : Instr) (s : State) (bytes : List Byte) : Prop :=
  (s.cursor.toNat + bytes.length ≤ s.params.maxCapacity → ∃ t, exec i s = .next t ∧ emitted s t bytes) ∧
  (s.params.maxCapacity < s.cursor.toNat + bytes.length → exec i s = .next (latched .boundsError s))

/-- Reader `u` has at its CURSOR the n bytes that lie from index c in `m`. -/
abbrev holdsAt (u : State) (m : Memory) (c n : Nat) : Prop :=
  u.cursor.toNat + n ≤ u.len.toNat ∧ ∀ k < n, u.mem.read (u.cursor.toNat + k) = m.read (c + k)

/-- Stream bit q of a storage: bit `7 - (q & 7)` of byte `Mem[q >> 3]` (R236). -/
def streamBit (m : Memory) (q : Nat) : Bool := (m.read (q / 8)).getLsbD (7 - q % 8)

/-- The first index no byte of a field of width n at bit index b reaches: `ceil((b + n) / 8)` (R237). -/
def fieldEnd (b n : Nat) : Nat := (b + n + 7) / 8

/-- Runs PUT_BITS for each field (width, A) in turn; `none` if one does not complete. -/
def putFields : List (BitVec 6 × DWord) → State → Option State
  | [], s => some s
  | (n, v) :: rest, s =>
    match exec (.putBits n) { s with opA := v } with
    | .next t => if t.resp = .ok then putFields rest t else none
    | _ => none

/-- Runs GET_BITS for each width in turn and collects R; `none` if one does not complete. -/
def getFields : List (BitVec 6) → State → Option (List DWord × State)
  | [], s => some ([], s)
  | n :: rest, s =>
    match exec (.getBits n) s with
    | .next t => if t.resp = .ok then (getFields rest t).map (fun x => (t.r :: x.1, x.2)) else none
    | _ => none

/-- The bytes of an unsigned smart (R262). -/
def usmartForm (v : Nat) : List Byte :=
  if v < 0x80 then [BitVec.ofNat 8 v]
  else [BitVec.ofNat 8 ((v + 0x8000) / 256), BitVec.ofNat 8 ((v + 0x8000) % 256)]

end Sys2Proof.Claims

open Sys2Proof Sys2Proof.Machine Sys2Proof.Claims

/-! ### Decoding and encoding (30_encoding.md) -/

/-- R90, R97, R98: no bit of a command is dropped by its word. -/
def Obligations.DecodeOfEncodeGivesTheCommand : Prop :=
  ∀ i : Instr, decode (encode i) = .ok i

/-- R90, R96, R98: each command has exactly one word. -/
def Obligations.EncodeOfDecodeGivesTheWord : Prop :=
  ∀ (w : Word) (i : Instr), decode w = .ok i → encode i = w

/-- R91, R96, R98: a word spells a command exactly when its OP is listed and `CMD & MASK = MATCH`, and then a command of that
OP. -/
def Obligations.DecodeFollowsTheOpcodeMasks : Prop :=
  ∀ w : Word,
    match opMask (opOf w) with
    | none => decode w = .error (.unassignedOp (BitVec.ofNat 8 (opOf w)))
    | some m =>
      if w &&& m = BitVec.ofNat 32 (opOf w) then ∃ i, decode w = .ok i ∧ opOf (encode i) = opOf w
      else decode w = .error (.reservedBits (BitVec.ofNat 8 (opOf w)))

/-- Words of the opcode map (R97, in the format of R90: OP 0x01, 0x47 and 0x53 with every other bit 0) and of the encoding
examples (R106), one or more of each family, decode to their commands; one with an unused field set is rejected (R96). -/
def Obligations.SpecWordsDecodeToTheirCommands : Prop :=
  decode 0x00000001#32 = .ok .constructReader ∧ decode 0x00000010#32 = .ok .enterBit ∧
  decode 0x00009220#32 = .ok (.put 2 1 1) ∧ decode 0x00018120#32 = .ok (.put 1 0 3) ∧
  decode 0x00008221#32 = .ok (.getS 2 0 1) ∧ decode 0x00000122#32 = .ok (.getU 1 0 0) ∧
  decode 0x00340030#32 = .ok (.putBits 13) ∧ decode 0x00800031#32 = .ok (.getBits 32) ∧
  decode 0x00000047#32 = .ok .getBsmart ∧ decode 0x00000053#32 = .ok .getFstr ∧
  decode 0x00010058#32 = .ok (.putBlkT 2) ∧ decode 0x00000141#32 = .error (.reservedBits 0x41)

/-- R92 to R95 and R99: which field codes and combinations are legal, and what they stand for. -/
def Obligations.FieldCodesStandForTheirParameters : Prop :=
  (∀ wid ord tr, scalarField wid ord tr =
    if legalScalar wid ord tr then some ⟨widthName wid.toNat, orderName ord.toNat, transformName tr.toNat⟩ else none) ∧
  (∀ wid ord tr, unsignedField wid ord tr =
    if legalScalar wid ord tr ∧ wid ≠ 8#4 then some ⟨widthName wid.toNat, orderName ord.toNat, transformName tr.toNat⟩
    else none) ∧
  (∀ wid, legalWid wid → widthBytes (widthName wid.toNat) = wid.toNat) ∧
  (∀ nbits, bitWidthOf nbits = if legalNbits nbits then some nbits.toNat else none) ∧
  (∀ tr, transformOf tr = if legalTr tr then some (transformName tr.toNat) else none)

/-! ### One step (20_memory.md, 70_reset_and_hazards.md) -/

/-- R19, R71, R76: a step takes the first command issued and runs what its word decodes to, on the operands it came with. -/
def Obligations.StepRunsTheDecodedCommand : Prop :=
  ∀ (s : State) (c : Command) (rest : List Command) (i : Instr),
    s.pending = c :: rest → c.din.length ≤ s.params.maxCapacity → decode c.cmd = .ok i →
      step s = exec i { s with pending := rest, opA := c.a, opDin := c.din }

/-- R364: with no command issued the unit keeps all its state (that it can step then is the model's choice: log entry 8). -/
def Obligations.IdleUnitKeepsItsState : Prop :=
  ∀ s : State, s.pending = [] → step s = .next s

/-- R394 (log entry 7): a DIN longer than MAX_CAPACITY is refused, and nothing else is. -/
def Obligations.OnlyAnOverlongDinIsRefused : Prop :=
  ∀ (s : State) (c : Command) (rest : List Command), s.pending = c :: rest →
    (s.params.maxCapacity < c.din.length → step s = .refused .dinTooLong) ∧
    (c.din.length ≤ s.params.maxCapacity → ∃ t, step s = .next t)

/-- R91, R96, R135, R352, R353: a word that spells no command. -/
def Obligations.UndecodableWordIsIllegal : Prop :=
  ∀ (s : State) (c : Command) (rest : List Command),
    s.pending = c :: rest → c.din.length ≤ s.params.maxCapacity → spellsNoCommand c.cmd →
      (opOf c.cmd ∈ [1, 2, 3] →
        step s = .next (constructFailed .illegalCommand { s with pending := rest, opA := c.a, opDin := c.din })) ∧
      (opOf c.cmd ∉ [1, 2, 3] → s.fault = false →
        step s = .next (latched .illegalCommand { s with pending := rest, opA := c.a, opDin := c.din })) ∧
      (opOf c.cmd ∉ [1, 2, 3] → s.fault = true →
        step s = .next { s with pending := rest, opA := c.a, opDin := c.din, resp := .faulted })

/-! ### Errors (60_exceptions.md) -/

/-- R19: every command completes with a response. -/
def Obligations.ExecAlwaysAnswersANextState : Prop :=
  ∀ (i : Instr) (s : State), ∃ t, exec i s = .next t

/-- R352 1, 4, 5 and 6: the fault latch, KIND, the field values and MODE are checked in this order, whatever else is wrong. -/
def Obligations.ChecksFollowTheirOrder : Prop :=
  ∀ (i : Instr) (s : State), isConstruct i = false →
    (s.fault = true → exec i s = .next { s with resp := .faulted }) ∧
    (s.fault = false → s.kind ∉ kindsOf i → exec i s = .next (latched .illegalCommand s)) ∧
    (s.fault = false → s.kind ∈ kindsOf i → i.wellFormed = false → exec i s = .next (latched .configurationError s)) ∧
    (s.fault = false → s.kind ∈ kindsOf i → i.wellFormed = true → s.mode ∉ modesOf i →
      exec i s = .next (latched .modeError s))

/-- R354, with R353 and R135: a command that fails changes RESP, FAULT and ERR only, and a failing CONSTRUCT leaves the
power-on state under the latch. -/
def Obligations.FailingCommandChangesOnlyTheStatus : Prop :=
  ∀ (i : Instr) (s t : State), exec i s = .next t → t.resp ≠ .ok →
    (isConstruct i = false →
      t = { s with resp := t.resp, fault := true, err := if s.fault then s.err else t.resp }) ∧
    (isConstruct i = true → t = constructFailed t.resp s)

/-- R355: while FAULT = 1 every command but a CONSTRUCT is refused with FAULTED and changes nothing else (the words that spell
no command too), and a CONSTRUCT does what it does without the latch. -/
def Obligations.FaultedUnitTakesOnlyConstructs : Prop :=
  ∀ s : State, s.fault = true →
    (∀ (c : Command) (rest : List Command), s.pending = c :: rest → c.din.length ≤ s.params.maxCapacity →
      opOf c.cmd ∉ [1, 2, 3] →
        step s = .next { s with pending := rest, opA := c.a, opDin := c.din, resp := .faulted }) ∧
    (∀ i, isConstruct i = true → exec i s = exec i { s with fault := false, err := .ok, resp := .ok })

/-! ### Reset and the invariant (10_state.md, 70_reset_and_hazards.md) -/

/-- R390: the power-on values, for every choice of the open parameters and of what R and DOUT, which the rule leaves
unspecified, hold; `State.reset` is one of these states (which one is the model's choice: log entries 3 to 6). -/
def Obligations.PowerOnHoldsTheStatedValues : Prop :=
  (∀ p r d,
    (State.powerOn p r d).kind = .none ∧ (State.powerOn p r d).mode = .byte ∧ (State.powerOn p r d).cursor = 0 ∧
    (State.powerOn p r d).bitIdx = 0 ∧ (State.powerOn p r d).len = 0 ∧ (State.powerOn p r d).cap = 0 ∧
    (State.powerOn p r d).mark = 0 ∧ (State.powerOn p r d).mem = [] ∧ (State.powerOn p r d).resp = .ok ∧
    (State.powerOn p r d).fault = false ∧ (State.powerOn p r d).err = .ok) ∧
  ∃ p r d, State.reset = State.powerOn p r d

/-- The invariant holds at power-on, for all legal parameters and every R and DOUT, and at reset. -/
def Obligations.PowerOnSatisfiesTheInvariant : Prop :=
  (∀ p r d, Config.Params.legal p → d.length ≤ p.maxCapacity → (State.powerOn p r d).Inv) ∧ State.reset.Inv

/-- "Invariants every command preserves" (10_state.md, 3. Hidden state and invariants), with the canonical form of the storage,
the agreement of the status flags and the length bounds of DOUT and DIN: every step keeps them. -/
def Obligations.StepKeepsTheInvariant : Prop :=
  ∀ s t : State, s.Inv → step s = .next t → t.Inv

/-- R404: a reader's Mem and LEN change only with a CONSTRUCT or FINALIZE command, and no writer command lowers CAP. -/
def Obligations.ReaderDataIsFixedAndCapacityOnlyGrows : Prop :=
  ∀ (i : Instr) (s t : State), s.params.legal → exec i s = .next t → isConstruct i = false → isFinalize i = false →
    t.kind = s.kind ∧ t.len = s.len ∧ (s.kind = .reader → t.mem = s.mem) ∧ s.cap.toNat ≤ t.cap.toNat

/-- R21 to R31 and R33, as far as they say which commands may write a field: KIND and LEN, MARK, MODE, BITIDX, CURSOR, CAP and
Mem, R, DOUT, and FAULT with ERR (set by the first error, kept under the latch, cleared or set by a CONSTRUCT). RESP has no
clause: every command writes it (R32). No command writes the parameters or the inputs (the model's own fields, log entries 1
to 4). -/
def Obligations.RegistersAreWrittenOnlyByTheirCommands : Prop :=
  ∀ (i : Instr) (s t : State), exec i s = .next t →
    (writesR i = false → t.r = s.r) ∧
    (writesDout i = false → t.dout = s.dout) ∧
    (isConstruct i = false → isFinalize i = false → t.kind = s.kind ∧ t.len = s.len) ∧
    (isConstruct i = false → isFinalize i = false → i ≠ .mark → t.mark = s.mark) ∧
    (isConstruct i = false → isFinalize i = false → i ≠ .enterBit → i ≠ .enterByte → t.mode = s.mode) ∧
    (isConstruct i = false → isFinalize i = false → i ≠ .enterBit → (∀ n, i ≠ .putBits n ∧ i ≠ .getBits n) →
      t.bitIdx = s.bitIdx) ∧
    (keepsCursor i = true → t.cursor = s.cursor) ∧
    (isConstruct i = false → isFinalize i = false → writesMem i = false → t.cap = s.cap ∧ t.mem = s.mem) ∧
    (isConstruct i = false →
      (s.fault = true ∨ t.resp = .ok → t.fault = s.fault ∧ t.err = s.err) ∧
      (s.fault = false → t.resp ≠ .ok → t.fault = true ∧ t.err = t.resp)) ∧
    (isConstruct i = true → (t.resp = .ok → t.fault = false ∧ t.err = .ok) ∧
      (t.resp ≠ .ok → t.fault = true ∧ t.err = t.resp)) ∧
    t.params = s.params ∧ t.opA = s.opA ∧ t.opDin = s.opDin ∧ t.pending = s.pending

/-- R400: in BIT mode nothing but ENTER_BYTE (and a CONSTRUCT) moves CURSOR, and MARK, RESET_CURSOR and FINALIZE_EXACT raise
MODE_ERROR. -/
def Obligations.BitModeHoldsTheCursor : Prop :=
  ∀ s : State, s.mode = .bit →
    (∀ (i : Instr) (t : State), exec i s = .next t → isConstruct i = false → i ≠ .enterByte → t.cursor = s.cursor) ∧
    (s.fault = false → s.kind ≠ .none → exec .mark s = .next (latched .modeError s) ∧
      exec .resetCursor s = .next (latched .modeError s)) ∧
    (s.fault = false → s.kind = .writer → exec .finalizeExact s = .next (latched .modeError s))

/-- R35, R102: a command whose A or DIN column is "—" ignores that operand. -/
def Obligations.UnnamedOperandsAreIgnored : Prop :=
  ∀ (i : Instr) (s t : State), exec i s = .next t →
    (readsA i = false → ∀ a, exec i { s with opA := a } = .next { t with opA := a }) ∧
    (readsDin i = false → ∀ d, exec i { s with opDin := d } = .next { t with opDin := d })

/-! ### Lifecycle (40_lifecycle.md) -/

/-- R130: the unit becomes a reader over DIN, whatever it was; R and DOUT stay. -/
def Obligations.ConstructReaderLoadsDin : Prop :=
  ∀ s : State, s.params.legal → s.opDin.length ≤ s.params.maxCapacity →
    ∃ t, exec .constructReader s = .next t ∧
      t = { s with
        kind := .reader, mode := .byte, cursor := 0, bitIdx := 0, mark := 0, len := t.len, cap := t.len, mem := t.mem,
        resp := .ok, fault := false, err := .ok } ∧
      t.len.toNat = s.opDin.length ∧ t.memInv ∧ ∀ k < s.opDin.length, t.mem.read k = s.opDin.getD k 0

/-- R131, R132 and R135: the unit becomes a writer over zero bytes, or raises RANGE_ERROR past MAX_CAPACITY. -/
def Obligations.ConstructWriterStartsEmpty : Prop :=
  ∀ s : State, s.params.legal →
    (∃ t, exec .constructWriter s = .next t ∧
      t = { s with
        kind := .writer, mode := .byte, cursor := 0, bitIdx := 0, mark := 0, len := 0, cap := t.cap, mem := t.mem,
        resp := .ok, fault := false, err := .ok } ∧
      t.cap.toNat = s.params.defaultCapacity ∧ ∀ k, t.mem.read k = 0) ∧
    (s.opA.toNat ≤ s.params.maxCapacity → ∃ t, exec .constructWriterCap s = .next t ∧
      t = { s with
        kind := .writer, mode := .byte, cursor := 0, bitIdx := 0, mark := 0, len := 0, cap := s.opA, mem := t.mem,
        resp := .ok, fault := false, err := .ok } ∧
      ∀ k, t.mem.read k = 0) ∧
    (s.params.maxCapacity < s.opA.toNat → exec .constructWriterCap s = .next (constructFailed .rangeError s))

/-- R133 and R134: the unit becomes a reader over the bytes written (CURSOR of them), or over its whole capacity (CAP of them);
on another kind ILLEGAL_COMMAND, in BIT mode MODE_ERROR. -/
def Obligations.FinalizeKeepsTheWritersBytes : Prop :=
  encode .finalizeExact = 0x00000004#32 ∧ encode .finalizeFull = 0x00000005#32 ∧
  ∀ s : State, s.fault = false → ∀ i n, (i = .finalizeExact ∧ n = s.cursor ∨ i = .finalizeFull ∧ n = s.cap) →
    (s.kind = .writer → s.mode = .byte → ∃ t, exec i s = .next t ∧
      t = { s with
        kind := .reader, mode := .byte, cursor := 0, bitIdx := 0, mark := 0, len := n, cap := n, mem := t.mem,
        resp := .ok } ∧
      t.mem.within n.toNat ∧ ∀ a < n.toNat, t.mem.read a = s.mem.read a) ∧
    (s.kind ≠ .writer → exec i s = .next (latched .illegalCommand s)) ∧
    (s.kind = .writer → s.mode = .bit → exec i s = .next (latched .modeError s))

/-- R136 and R137: MARK copies CURSOR, RESET_CURSOR copies MARK back, and nothing else changes (a writer's bytes stay). -/
def Obligations.MarkAndResetCursorCopyTheCursor : Prop :=
  encode .mark = 0x00000006#32 ∧ encode .resetCursor = 0x00000007#32 ∧
  ∀ s : State, s.fault = false →
    (s.kind ≠ .none → s.mode = .byte →
      exec .mark s = .next { s with mark := s.cursor, resp := .ok } ∧
      exec .resetCursor s = .next { s with cursor := s.mark, resp := .ok }) ∧
    (s.kind = .none → exec .mark s = .next (latched .illegalCommand s) ∧
      exec .resetCursor s = .next (latched .illegalCommand s)) ∧
    (s.kind ≠ .none → s.mode = .bit → exec .mark s = .next (latched .modeError s) ∧
      exec .resetCursor s = .next (latched .modeError s))

/-! ### Access mode (41_access_mode.md) -/

/-- R160 and R161: ENTER_BIT sets BITIDX to `CURSOR * 8`, ENTER_BYTE sets CURSOR to `ceil(BITIDX / 8)`; entering the mode the
unit is in is a MODE_ERROR, and on NONE both are ILLEGAL_COMMAND. A CURSOR lies below 2^48 (R9, R23). -/
def Obligations.AccessModeSwitchesSetTheOtherCursor : Prop :=
  encode .enterBit = 0x00000010#32 ∧ encode .enterByte = 0x00000011#32 ∧
  ∀ s : State, s.fault = false →
    (s.kind ≠ .none → s.mode = .byte → s.cursor.toNat ≤ 2 ^ 48 → ∃ t, exec .enterBit s = .next t ∧
      t = { s with bitIdx := t.bitIdx, mode := .bit, resp := .ok } ∧ t.bitIdx.toNat = s.cursor.toNat * 8) ∧
    (s.kind ≠ .none → s.mode = .bit → ∃ t, exec .enterByte s = .next t ∧
      t = { s with cursor := t.cursor, mode := .byte, resp := .ok } ∧ t.cursor.toNat = (s.bitIdx.toNat + 7) / 8) ∧
    (s.kind ≠ .none → s.mode = .bit → exec .enterBit s = .next (latched .modeError s)) ∧
    (s.kind ≠ .none → s.mode = .byte → exec .enterByte s = .next (latched .modeError s)) ∧
    (s.kind = .none → exec .enterBit s = .next (latched .illegalCommand s) ∧
      exec .enterByte s = .next (latched .illegalCommand s))

/-! ### Scalar codec (42_scalar.md) -/

/-- R184, its table: the transforms, all arithmetic mod 256. -/
def Obligations.TransformsFollowTheirTable : Prop :=
  ∀ b : Byte,
    (encByte .none b = b ∧ decByte .none b = b) ∧
    ((encByte .add b).toNat = (b.toNat + 128) % 256 ∧ ((decByte .add b).toNat : Int) = ((b.toNat : Int) - 128) % 256) ∧
    (((encByte .subtract b).toNat : Int) = (128 - (b.toNat : Int)) % 256 ∧
      ((decByte .subtract b).toNat : Int) = (128 - (b.toNat : Int)) % 256) ∧
    (((encByte .negate b).toNat : Int) = (-(b.toNat : Int)) % 256 ∧
      ((decByte .negate b).toNat : Int) = (-(b.toNat : Int)) % 256)

/-- What the spec derives from the table of R184 ("self-inverse"): `dec(enc(b)) = b`, `enc = dec`, and ADD flips bit 7. -/
def Obligations.TransformsAreTheirOwnInverse : Prop :=
  ∀ (t : Transform) (b : Byte),
    decByte t (encByte t b) = b ∧ encByte t b = decByte t b ∧ encByte .add b = b ^^^ 0x80#8

/-- R182: the value byte at each stream position, and the position of each value byte. -/
def Obligations.ByteOrdersFollowTheirTable : Prop :=
  (∀ w k, byteIndexAt .big w k = w - 1 - k ∧ streamPos .big w k = w - 1 - k ∧ byteIndexAt .little w k = k ∧
    streamPos .little w k = k) ∧
  (List.range 4).map (byteIndexAt .middle 4) = [1, 0, 3, 2] ∧ (List.range 4).map (streamPos .middle 4) = [1, 0, 3, 2] ∧
  (List.range 4).map (byteIndexAt .inverseMiddle 4) = [2, 3, 0, 1] ∧
  (List.range 4).map (streamPos .inverseMiddle 4) = [2, 3, 0, 1] ∧
  scalarBytes ⟨.w4, .middle, .none⟩ 0x12345678 = [0x56, 0x78, 0x12, 0x34] ∧
  scalarBytes ⟨.w4, .inverseMiddle, .none⟩ 0x12345678 = [0x34, 0x12, 0x78, 0x56] ∧
  ∀ (f : ScalarField) (v j : Nat), combines f = true → j < widthBytes f.width → f.transform = .none →
    (scalarBytes f v).getD (streamPos f.order (widthBytes f.width) j) 0 = BitVec.ofNat 8 (v / 256 ^ j)

/-- R186, R181, R183: PUT writes the w bytes of `A[8w-1:0]`, value byte j at stream position `pos(ORD, w, j)`, byte 0
transformed; past MAX_CAPACITY it is a BOUNDS_ERROR. -/
def Obligations.PutWritesTheField : Prop :=
  ∀ (s : State) (wid : BitVec 4) (ord tr : BitVec 3) (f : ScalarField),
    writing s → scalarField wid ord tr = some f →
      ∃ bytes, bytes.length = widthBytes f.width ∧ emits (.put wid ord tr) s bytes ∧
        ∀ j < widthBytes f.width, bytes.getD (streamPos f.order (widthBytes f.width) j) 0 =
          if j = 0 then encByte f.transform (BitVec.ofNat 8 s.opA.toNat)
          else BitVec.ofNat 8 (s.opA.toNat / 256 ^ j)

/-- R185, R187, R188: the w bytes at CURSOR are the value v whose byte j lies at stream position `pos(ORD, w, j)`, byte 0
transformed back; GET_S gives v sign-extended, GET_U zero-extended; past LEN they are a BOUNDS_ERROR. -/
def Obligations.GetReadsTheField : Prop :=
  ∀ (s : State) (wid : BitVec 4) (ord tr : BitVec 3) (f : ScalarField),
    ready .reader .byte s → scalarField wid ord tr = some f →
      (s.cursor.toNat + widthBytes f.width ≤ s.len.toNat → ∃ v < 2 ^ (8 * widthBytes f.width),
        (∀ j < widthBytes f.width, BitVec.ofNat 8 (v / 256 ^ j) =
          (if j = 0 then decByte f.transform else id)
            (s.mem.read (s.cursor.toNat + streamPos f.order (widthBytes f.width) j))) ∧
        exec (.getS wid ord tr) s = .next { consumed (widthBytes f.width) s with
          r := (BitVec.ofNat (8 * widthBytes f.width) v).signExtend 64 } ∧
        (wid ≠ 8#4 → exec (.getU wid ord tr) s = .next { consumed (widthBytes f.width) s with r := BitVec.ofNat 64 v })) ∧
      (s.len.toNat < s.cursor.toNat + widthBytes f.width →
        exec (.getS wid ord tr) s = .next (latched .boundsError s) ∧
        (wid ≠ 8#4 → exec (.getU wid ord tr) s = .next (latched .boundsError s)))

/-- `read(write(v)) == v` (42_scalar.md, 3. Laws): what PUT wrote, read over the same bytes with the same parameters. -/
def Obligations.ScalarFieldsRoundTrip : Prop :=
  ∀ (s t u : State) (wid : BitVec 4) (ord tr : BitVec 3) (f : ScalarField),
    writing s → scalarField wid ord tr = some f → exec (.put wid ord tr) s = .next t → t.resp = .ok →
    ready .reader .byte u → holdsAt u t.mem s.cursor.toNat (widthBytes f.width) →
      exec (.getS wid ord tr) u = .next { consumed (widthBytes f.width) u with
        r := (BitVec.ofNat (8 * widthBytes f.width) s.opA.toNat).signExtend 64 } ∧
      (wid ≠ 8#4 → exec (.getU wid ord tr) u = .next { consumed (widthBytes f.width) u with
        r := BitVec.ofNat 64 (s.opA.toNat % 2 ^ (8 * widthBytes f.width)) })

/-! ### Bit packer and unpacker (43_bits.md) -/

/-- R231: `MASK[w] = 2^w - 1` for w = 0 to 32. -/
def Obligations.MaskRomHoldsTheMasks : Prop :=
  maskRom.length = 33 ∧ ∀ w ≤ 32, maskOf w = 2 ^ w - 1

/-- The closed form of the unpack loop (43_bits.md, 1. Mechanism, "Equivalent closed form"): value bit `n - 1 - j` is stream
bit `b + j`. -/
def Obligations.UnpackLoopReadsTheStreamBits : Prop :=
  ∀ (m : Memory) (b n : Nat), 1 ≤ n → n ≤ 32 →
    unpack m b n < 2 ^ n ∧ ∀ j < n, (unpack m b n).testBit (n - 1 - j) = streamBit m (b + j)

/-- The closed form of the pack loop (43_bits.md, 1. Mechanism): exactly the n stream bits from b become the bits of v, and the
storage keeps its canonical form. -/
def Obligations.PackLoopSetsExactlyTheStreamBits : Prop :=
  ∀ (m : Memory) (b n v : Nat), m.wf → 1 ≤ n → n ≤ 32 → v < 2 ^ n →
    (pack m b n v).wf ∧
    ∀ q, streamBit (pack m b n v) q = if b ≤ q ∧ q < b + n then v.testBit (n - 1 - (q - b)) else streamBit m q

/-- R238, R237: PUT_BITS writes `A[n-1:0]` as stream bits BITIDX to BITIDX + n - 1 and no other bit, grows over every byte it
touches, and advances BITIDX by n; past MAX_CAPACITY it is a BOUNDS_ERROR. -/
def Obligations.PutBitsWritesTheField : Prop :=
  ∀ (s : State) (nbits : BitVec 6), ready .writer .bit s → s.params.legal → s.memInv → legalNbits nbits →
    (fieldEnd s.bitIdx.toNat nbits.toNat ≤ s.params.maxCapacity → ∃ t, exec (.putBits nbits) s = .next t ∧
      t = { s with bitIdx := t.bitIdx, cap := t.cap, mem := t.mem, resp := .ok } ∧
      t.bitIdx.toNat = s.bitIdx.toNat + nbits.toNat ∧
      t.cap.toNat = (if s.cap.toNat < fieldEnd s.bitIdx.toNat nbits.toNat then
        growTo s.params s.cap.toNat (fieldEnd s.bitIdx.toNat nbits.toNat) else s.cap.toNat) ∧
      (∀ q, streamBit t.mem q =
        if s.bitIdx.toNat ≤ q ∧ q < s.bitIdx.toNat + nbits.toNat then
          s.opA.getLsbD (nbits.toNat - 1 - (q - s.bitIdx.toNat))
        else streamBit s.mem q) ∧
      ∀ a, a < s.bitIdx.toNat / 8 ∨ fieldEnd s.bitIdx.toNat nbits.toNat ≤ a → t.mem.read a = s.mem.read a) ∧
    (s.params.maxCapacity < fieldEnd s.bitIdx.toNat nbits.toNat →
      exec (.putBits nbits) s = .next (latched .boundsError s))

/-- R239: GET_BITS gives the unsigned field whose value bit `n - 1 - j` is stream bit `BITIDX + j`, and advances BITIDX by n;
a field that runs past LEN is a BOUNDS_ERROR. -/
def Obligations.GetBitsReadsTheField : Prop :=
  ∀ (s : State) (nbits : BitVec 6), ready .reader .bit s → legalNbits nbits → s.len.toNat ≤ 2 ^ 48 →
    (fieldEnd s.bitIdx.toNat nbits.toNat ≤ s.len.toNat → ∃ t, exec (.getBits nbits) s = .next t ∧
      t = { s with bitIdx := t.bitIdx, r := t.r, resp := .ok } ∧
      t.bitIdx.toNat = s.bitIdx.toNat + nbits.toNat ∧ t.r.toNat < 2 ^ nbits.toNat ∧
      ∀ j < nbits.toNat, t.r.getLsbD (nbits.toNat - 1 - j) = streamBit s.mem (s.bitIdx.toNat + j)) ∧
    (s.len.toNat < fieldEnd s.bitIdx.toNat nbits.toNat → exec (.getBits nbits) s = .next (latched .boundsError s))

/-- The round trip of a run of bit fields (43_bits.md, 3. Laws): PUT_BITS of any widths and values, then GET_BITS of the same
widths by a reader over the same bytes, give the values back, and each BITIDX advances by the sum of the widths. -/
def Obligations.BitFieldRunsRoundTrip : Prop :=
  ∀ (s : State) (fields : List (BitVec 6 × DWord)),
    ready .writer .bit s → s.params.legal → s.memInv →
    (∀ f ∈ fields, legalNbits f.1 ∧ f.2.toNat < 2 ^ f.1.toNat) →
    fieldEnd s.bitIdx.toNat (fields.map (fun f => f.1.toNat)).sum ≤ s.params.maxCapacity →
      ∃ t, putFields fields s = some t ∧
        t.bitIdx.toNat = s.bitIdx.toNat + (fields.map (fun f => f.1.toNat)).sum ∧
        ∀ u : State, ready .reader .bit u → u.len.toNat ≤ 2 ^ 48 → u.bitIdx = s.bitIdx →
          fieldEnd s.bitIdx.toNat (fields.map (fun f => f.1.toNat)).sum ≤ u.len.toNat →
          (∀ a < u.len.toNat, u.mem.read a = t.mem.read a) →
            ∃ u', getFields (fields.map Prod.fst) u = some (fields.map Prod.snd, u') ∧ u'.bitIdx = t.bitIdx

/-! ### Smart integers (44_varint.md) -/

/-- R261: an unsigned smart, chosen by bit 7 of the byte at CURSOR. -/
def Obligations.GetUsmartReadsOneOrTwoBytes : Prop :=
  ∀ (s : State) (b0 b1 : Nat), ready .reader .byte s → b0 = (s.mem.read s.cursor.toNat).toNat →
    b1 = (s.mem.read (s.cursor.toNat + 1)).toNat →
      (b0 < 128 → s.cursor.toNat + 1 ≤ s.len.toNat →
        exec .getUsmart s = .next { consumed 1 s with r := BitVec.ofNat 64 b0 }) ∧
      (128 ≤ b0 → s.cursor.toNat + 2 ≤ s.len.toNat →
        exec .getUsmart s = .next { consumed 2 s with r := BitVec.ofNat 64 (256 * b0 + b1 - 32768) }) ∧
      (s.len.toNat ≤ s.cursor.toNat ∨ 128 ≤ b0 ∧ s.len.toNat < s.cursor.toNat + 2 →
        exec .getUsmart s = .next (latched .boundsError s))

/-- R263: a signed smart. -/
def Obligations.GetSsmartReadsOneOrTwoBytes : Prop :=
  ∀ (s : State) (b0 b1 : Nat), ready .reader .byte s → b0 = (s.mem.read s.cursor.toNat).toNat →
    b1 = (s.mem.read (s.cursor.toNat + 1)).toNat →
      (b0 < 128 → s.cursor.toNat + 1 ≤ s.len.toNat →
        exec .getSsmart s = .next { consumed 1 s with r := BitVec.ofInt 64 ((b0 : Int) - 64) }) ∧
      (128 ≤ b0 → s.cursor.toNat + 2 ≤ s.len.toNat →
        exec .getSsmart s = .next { consumed 2 s with r := BitVec.ofInt 64 (256 * (b0 : Int) + b1 - 49152) }) ∧
      (s.len.toNat ≤ s.cursor.toNat ∨ 128 ≤ b0 ∧ s.len.toNat < s.cursor.toNat + 2 →
        exec .getSsmart s = .next (latched .boundsError s))

/-- R268: a big smart. -/
def Obligations.GetBsmartReadsTwoOrFourBytes : Prop :=
  ∀ (s : State) (b0 b1 b2 b3 : Nat), ready .reader .byte s → b0 = (s.mem.read s.cursor.toNat).toNat →
    b1 = (s.mem.read (s.cursor.toNat + 1)).toNat → b2 = (s.mem.read (s.cursor.toNat + 2)).toNat →
    b3 = (s.mem.read (s.cursor.toNat + 3)).toNat →
      (b0 < 128 → s.cursor.toNat + 2 ≤ s.len.toNat →
        exec .getBsmart s = .next { consumed 2 s with r := BitVec.ofNat 64 (256 * b0 + b1) }) ∧
      (128 ≤ b0 → s.cursor.toNat + 4 ≤ s.len.toNat →
        exec .getBsmart s = .next { consumed 4 s with
          r := BitVec.ofNat 64 (2 ^ 24 * (b0 - 128) + 2 ^ 16 * b1 + 2 ^ 8 * b2 + b3) }) ∧
      (s.len.toNat ≤ s.cursor.toNat ∨ b0 < 128 ∧ s.len.toNat < s.cursor.toNat + 2 ∨
          128 ≤ b0 ∧ s.len.toNat < s.cursor.toNat + 4 →
        exec .getBsmart s = .next (latched .boundsError s))

/-- R265, R267: a chained smart is q sentinels [FF FF] and then one unsigned smart that is not 32767; R is the sum. A chain that
runs past LEN is a BOUNDS_ERROR (R354: CURSOR unchanged). -/
def Obligations.GetXsmartAddsTheChain : Prop :=
  ∀ (s : State) (q c b0 b1 : Nat), ready .reader .byte s → c = s.cursor.toNat + 2 * q →
    (∀ k < 2 * q, s.mem.read (s.cursor.toNat + k) = 0xFF#8) → b0 = (s.mem.read c).toNat →
    b1 = (s.mem.read (c + 1)).toNat →
      (b0 < 128 → c + 1 ≤ s.len.toNat →
        exec .getXsmart s = .next { consumed (2 * q + 1) s with r := BitVec.ofNat 64 (32767 * q + b0) }) ∧
      (128 ≤ b0 → 256 * b0 + b1 ≠ 65535 → c + 2 ≤ s.len.toNat →
        exec .getXsmart s = .next { consumed (2 * q + 2) s with
          r := BitVec.ofNat 64 (32767 * q + (256 * b0 + b1 - 32768)) }) ∧
      (s.len.toNat ≤ c ∨ 128 ≤ b0 ∧ s.len.toNat < c + 2 → exec .getXsmart s = .next (latched .boundsError s))

/-- R262: PUT_USMART. -/
def Obligations.PutUsmartWritesTheSmart : Prop :=
  ∀ (s : State), writing s →
    (0 ≤ s.opA.toInt → s.opA.toInt ≤ 32767 → emits .putUsmart s (usmartForm s.opA.toNat)) ∧
    (s.opA.toInt < 0 ∨ 32767 < s.opA.toInt → exec .putUsmart s = .next (latched .rangeError s))

/-- R264: PUT_SSMART. -/
def Obligations.PutSsmartWritesTheSmart : Prop :=
  ∀ (s : State) (v : Int), writing s → v = s.opA.toInt →
    (-64 ≤ v → v ≤ 63 → emits .putSsmart s [BitVec.ofInt 8 (v + 64)]) ∧
    (-16384 ≤ v ∧ v < -64 ∨ 63 < v ∧ v ≤ 16383 →
      emits .putSsmart s [BitVec.ofInt 8 ((v + 49152) / 256), BitVec.ofInt 8 ((v + 49152) % 256)]) ∧
    (v < -16384 ∨ 16383 < v → exec .putSsmart s = .next (latched .rangeError s))

/-- R266: PUT_XSMART writes `v div 32767` sentinels and the unsigned smart of `v mod 32767`. -/
def Obligations.PutXsmartWritesTheChain : Prop :=
  ∀ (s : State), writing s →
    (0 ≤ s.opA.toInt →
      emits .putXsmart s (List.replicate (2 * (s.opA.toNat / 32767)) 0xFF#8 ++ usmartForm (s.opA.toNat % 32767))) ∧
    (s.opA.toInt < 0 → exec .putXsmart s = .next (latched .rangeError s))

/-- R269: PUT_BSMART; the 4-byte form has bit 31 set. -/
def Obligations.PutBsmartWritesTheSmart : Prop :=
  ∀ (s : State) (v : Nat), writing s → v = s.opA.toNat →
    (v ≤ 32767 → emits .putBsmart s [BitVec.ofNat 8 (v / 256), BitVec.ofNat 8 (v % 256)]) ∧
    (32767 < v → v ≤ 2 ^ 31 - 1 →
      emits .putBsmart s [BitVec.ofNat 8 (v / 2 ^ 24 + 128), BitVec.ofNat 8 (v / 2 ^ 16), BitVec.ofNat 8 (v / 2 ^ 8),
        BitVec.ofNat 8 v]) ∧
    (s.opA.toInt < 0 ∨ 2 ^ 31 - 1 < s.opA.toInt → exec .putBsmart s = .next (latched .rangeError s))

/-- The round trips of the four forms (44_varint.md, 6. Laws): what an encoder that completes has written, the decoder of the
same form reads back as A over the same bytes, and takes exactly those bytes. -/
def Obligations.SmartsRoundTrip : Prop :=
  ∀ p ∈ [(Instr.putUsmart, Instr.getUsmart), (.putSsmart, .getSsmart), (.putXsmart, .getXsmart),
      (.putBsmart, .getBsmart)],
    ∀ (s t u : State) (n : Nat), writing s → exec p.1 s = .next t → t.resp = .ok →
      n = t.cursor.toNat - s.cursor.toNat → ready .reader .byte u → holdsAt u t.mem s.cursor.toNat n →
        exec p.2 u = .next { consumed n u with r := s.opA }

/-! ### Strings and blocks (45_string_block.md) -/

/-- R311: GET_STR gives the n bytes before the first 0x00, which is consumed, or before the end of the data. -/
def Obligations.GetStrReadsToTheTerminator : Prop :=
  ∀ (s : State) (n : Nat), ready .reader .byte s → s.cursor.toNat + n ≤ s.len.toNat →
    (∀ k < n, s.mem.read (s.cursor.toNat + k) ≠ 0) →
      (s.cursor.toNat + n < s.len.toNat → s.mem.read (s.cursor.toNat + n) = 0 →
        exec .getStr s = .next { consumed (n + 1) s with dout := bytesFrom s.mem s.cursor.toNat n }) ∧
      (s.cursor.toNat + n = s.len.toNat →
        exec .getStr s = .next { consumed n s with dout := bytesFrom s.mem s.cursor.toNat n })

/-- R313: GET_FSTR consumes a zero first byte and gives the empty string; any other first byte is the string's; at the end of
the data it is a BOUNDS_ERROR. -/
def Obligations.GetFstrReadsTheFlaggedString : Prop :=
  ∀ (s : State), ready .reader .byte s →
    (s.len.toNat ≤ s.cursor.toNat → exec .getFstr s = .next (latched .boundsError s)) ∧
    (s.cursor.toNat < s.len.toNat → s.mem.read s.cursor.toNat = 0 →
      exec .getFstr s = .next { consumed 1 s with dout := [] }) ∧
    (∀ n, 1 ≤ n → s.cursor.toNat + n ≤ s.len.toNat → (∀ k < n, s.mem.read (s.cursor.toNat + k) ≠ 0) →
      (s.cursor.toNat + n < s.len.toNat → s.mem.read (s.cursor.toNat + n) = 0 →
        exec .getFstr s = .next { consumed (n + 1) s with dout := bytesFrom s.mem s.cursor.toNat n }) ∧
      (s.cursor.toNat + n = s.len.toNat →
        exec .getFstr s = .next { consumed n s with dout := bytesFrom s.mem s.cursor.toNat n }))

/-- R310, R312, R314: PUT_STR and PUT_FSTR write DIN and a 0x00; a 0x00 in DIN is a RANGE_ERROR. -/
def Obligations.PutStringsWriteTheTerminator : Prop :=
  ∀ (s : State) (i : Instr), i = .putStr ∨ i = .putFstr → writing s →
    (0 ∉ s.opDin → emits i s (s.opDin ++ [0])) ∧ (0 ∈ s.opDin → exec i s = .next (latched .rangeError s))

/-- R316, R318, R320: PUT_BLK writes DIN, PUT_BLK_REV DIN reversed, PUT_BLK_T each byte of DIN transformed. -/
def Obligations.PutBlocksWriteTheirBytes : Prop :=
  ∀ (s : State), writing s →
    emits .putBlk s s.opDin ∧ emits .putBlkRev s s.opDin.reverse ∧
    ∀ tr, legalTr tr → emits (.putBlkT tr) s (s.opDin.map (encByte (transformName tr.toNat)))

/-- R315, R317, R319: GET_BLK gives the A bytes at CURSOR, GET_BLK_REV reversed, GET_BLK_T each transformed back; past LEN they
are a BOUNDS_ERROR. -/
def Obligations.GetBlocksReadTheirBytes : Prop :=
  ∀ (s : State), ready .reader .byte s →
    (s.cursor.toNat + s.opA.toNat ≤ s.len.toNat →
      exec .getBlk s = .next { consumed s.opA.toNat s with dout := bytesFrom s.mem s.cursor.toNat s.opA.toNat } ∧
      exec .getBlkRev s = .next { consumed s.opA.toNat s with
        dout := (bytesFrom s.mem s.cursor.toNat s.opA.toNat).reverse } ∧
      ∀ tr, legalTr tr → exec (.getBlkT tr) s = .next { consumed s.opA.toNat s with
        dout := (bytesFrom s.mem s.cursor.toNat s.opA.toNat).map (decByte (transformName tr.toNat)) }) ∧
    (s.len.toNat < s.cursor.toNat + s.opA.toNat →
      exec .getBlk s = .next (latched .boundsError s) ∧ exec .getBlkRev s = .next (latched .boundsError s) ∧
      ∀ tr, legalTr tr → exec (.getBlkT tr) s = .next (latched .boundsError s))

/-- The round trips of strings and blocks (45_string_block.md, the last rule): the reader of the same form gives DIN back over
the same bytes; a block's reader is given DIN's length. -/
def Obligations.StringsAndBlocksRoundTrip : Prop :=
  ∀ (put get : Instr),
    (put = .putStr ∧ get = .getStr ∨ put = .putFstr ∧ get = .getFstr ∨ put = .putBlk ∧ get = .getBlk ∨
      put = .putBlkRev ∧ get = .getBlkRev ∨ ∃ tr, legalTr tr ∧ put = .putBlkT tr ∧ get = .getBlkT tr) →
    ∀ (s t u : State) (n : Nat), writing s → exec put s = .next t → t.resp = .ok →
      n = t.cursor.toNat - s.cursor.toNat → ready .reader .byte u → holdsAt u t.mem s.cursor.toNat n →
      (get ≠ .getStr → get ≠ .getFstr → u.opA.toNat = s.opDin.length) →
        exec get u = .next { consumed n u with dout := s.opDin }

/-! ### The host's view, several units, and growth -/

/-- R34: the registers 0 to 8 and the fields of STATUS and RESP. Log entry 15 (DESIGN CHOICE) is the model's: that 9 names no
register, and that a read of R or DOUT before the first write gives what State holds, where R390 leaves the value open. -/
def Obligations.HostReadsTheRegisterMap : Prop :=
  (List.range 10).map hostRegOf = [some .status, some .resp, some .cursor, some .bitIdx, some .len, some .cap, some .mark,
    some .r, some .dout, none] ∧
  ∀ s : State,
    hostRead .status s = .word (BitVec.ofNat 32
      (s.fault.toNat + 2 * (decide (s.mode = .bit)).toNat + 4 * kindBits s.kind + 16 * codeOf s.err)) ∧
    hostRead .resp s = .word (BitVec.ofNat 32 (codeOf s.resp)) ∧
    hostRead .cursor s = .dword s.cursor ∧ hostRead .bitIdx s = .dword s.bitIdx ∧
    hostRead .len s = .dword (if s.kind = .reader then s.len else if s.kind = .writer then s.cursor else 0) ∧
    hostRead .cap s = .dword (if s.kind = .writer then s.cap else if s.kind = .reader then s.len else 0) ∧
    hostRead .mark s = .dword s.mark ∧ hostRead .r s = .dword s.r ∧ hostRead .dout s = .bytes s.dout

/-- R357: a step of one unit reads and writes no other. -/
def Obligations.UnitsShareNoState : Prop :=
  ∀ (sys sys' : System) (k : Nat), stepUnit sys k = .next sys' →
    (∀ j, j ≠ k → sys'[j]? = sys[j]?) ∧
    (∀ s, sys[k]? = some s → ∃ t, step s = .next t ∧ sys'[k]? = some t) ∧
    ∀ other : System, other[k]? = sys[k]? → ∃ other', stepUnit other k = .next other' ∧ other'[k]? = sys'[k]?

/-- R11: the model's growth table (log entry 4) keeps the constraint on GROW, and on any finite set of growths every GROW that
keeps it is the growth of some table. -/
def Obligations.GrowthTablesAreTheLegalGrowths : Prop :=
  (∀ (p : Config.Params) (cap need : Nat), need ≤ p.maxCapacity →
    need ≤ growTo p cap need ∧ growTo p cap need ≤ p.maxCapacity) ∧
  ∀ (max def_ : Nat) (f : Nat → Nat → Nat) (met : List (Nat × Nat)),
    (∀ cap need, need ≤ max → need ≤ f cap need ∧ f cap need ≤ max) →
      ∃ p : Config.Params, p.maxCapacity = max ∧ p.defaultCapacity = def_ ∧
        ∀ c ∈ met, c.2 ≤ max → growTo p c.1 c.2 = f c.1 c.2
end

