-- ==== Sys2Proof/Laws/Memory.lean ====
section
/-! SUPPORT. The laws of the storage list: what a read gives after each operation, and that every operation keeps the canonical
form (`Memory.wf`) and the bound on the indices (`Memory.within`). -/

namespace Sys2Proof.Machine

/-! ### Reads -/

@[simp] theorem Memory.read_nil (i : Nat) : Memory.read [] i = 0#8 := rfl

theorem Memory.read_cons (a : Nat) (b : Byte) (t : Memory) (i : Nat) :
    Memory.read ((a, b) :: t) i = if a = i then b else Memory.read t i := rfl

/-- An index that no pair lists reads as 0x00. -/
theorem Memory.read_unlisted {m : Memory} {i : Nat} (h : ∀ c ∈ m, c.1 ≠ i) : m.read i = 0#8 := by
  induction m with
  | nil => rfl
  | cons c t ih =>
    rw [show c = (c.1, c.2) from rfl, Memory.read_cons, if_neg (h c (by simp)), ih (fun d hd => h d (by simp [hd]))]

/-- Reading at or past a bound on the indices gives 0x00. -/
theorem Memory.read_past {m : Memory} {n i : Nat} (h : m.within n) (hi : n ≤ i) : m.read i = 0#8 :=
  Memory.read_unlisted (fun c hc => by have := h c hc; omega)

/-- The tail of a canonical list lists nothing at or below its head's index. -/
theorem Memory.wf_tail_gt {a : Nat} {b : Byte} {t : Memory} (h : Memory.wf ((a, b) :: t)) : ∀ c ∈ t, a < c.1 :=
  fun c hc => (List.pairwise_cons.mp h.1).1 c hc

theorem Memory.wf_tail {c : Host.Cell} {t : Memory} (h : Memory.wf (c :: t)) : Memory.wf t :=
  ⟨(List.pairwise_cons.mp h.1).2, fun d hd => h.2 d (by simp [hd])⟩

/-! ### Writes -/

theorem Memory.write_nil (i : Nat) (b : Byte) : Memory.write [] i b = if b = 0#8 then [] else [(i, b)] := rfl

theorem Memory.write_cons (a : Nat) (c : Byte) (t : Memory) (i : Nat) (b : Byte) :
    Memory.write ((a, c) :: t) i b =
      if i < a then (if b = 0#8 then (a, c) :: t else (i, b) :: (a, c) :: t)
      else if i = a then (if b = 0#8 then t else (i, b) :: t)
      else (a, c) :: Memory.write t i b := rfl

/-- A pair of a written list is the new pair or an old one of another index. -/
theorem Memory.mem_write {m : Memory} {i : Nat} {b : Byte} {c : Host.Cell} (h : c ∈ m.write i b) :
    c = (i, b) ∧ b ≠ 0#8 ∨ c ∈ m := by
  induction m with
  | nil =>
    rw [Memory.write_nil] at h
    split at h <;> simp_all
  | cons d t ih =>
    obtain ⟨a, e⟩ := d
    rw [Memory.write_cons] at h
    split at h
    · split at h <;> simp_all
    · split at h
      · split at h
        · exact .inr (by simp [h])
        · rcases List.mem_cons.mp h with h | h
          · exact .inl ⟨h, by assumption⟩
          · exact .inr (by simp [h])
      · rcases List.mem_cons.mp h with h | h
        · exact .inr (by simp [h])
        · rcases ih h with h | h
          · exact .inl h
          · exact .inr (by simp [h])

/-- Every write keeps the canonical form. -/
theorem Memory.wf_write {m : Memory} (h : m.wf) (i : Nat) (b : Byte) : (m.write i b).wf := by
  induction m with
  | nil =>
    rw [Memory.write_nil]
    split <;> simp_all [Memory.wf]
  | cons d t ih =>
    obtain ⟨a, e⟩ := d
    have gt := Memory.wf_tail_gt h
    have he : e ≠ 0#8 := h.2 (a, e) (by simp)
    have wt := Memory.wf_tail h
    rw [Memory.write_cons]
    split
    · split
      · exact h
      · refine ⟨List.pairwise_cons.mpr ⟨?_, h.1⟩, ?_⟩
        · intro c hc
          rcases List.mem_cons.mp hc with rfl | hc
          · assumption
          · have := gt c hc; show i < c.1; omega
        · intro c hc
          rcases List.mem_cons.mp hc with rfl | hc
          · assumption
          · exact h.2 c hc
    · split
      · split
        · exact wt
        · rename_i hia _
          subst hia
          refine ⟨List.pairwise_cons.mpr ⟨gt, wt.1⟩, ?_⟩
          intro c hc
          rcases List.mem_cons.mp hc with rfl | hc
          · assumption
          · exact wt.2 c hc
      · refine ⟨List.pairwise_cons.mpr ⟨?_, (ih wt).1⟩, ?_⟩
        · intro c hc
          rcases Memory.mem_write hc with ⟨rfl, _⟩ | hc
          · show a < i; omega
          · exact gt c hc
        · intro c hc
          rcases List.mem_cons.mp hc with rfl | hc
          · exact he
          · exact (ih wt).2 c hc

/-- Read after write, in a canonical list. -/
theorem Memory.read_write {m : Memory} (h : m.wf) (i : Nat) (b : Byte) (j : Nat) :
    (m.write i b).read j = if j = i then b else m.read j := by
  induction m with
  | nil =>
    rw [Memory.write_nil]
    split
    · simp_all
    · by_cases hj : i = j <;> simp [Memory.read, unlistedByte, hj, eq_comm]
  | cons d t ih =>
    obtain ⟨a, e⟩ := d
    have gt := Memory.wf_tail_gt h
    have low : ∀ k, k ≤ a → Memory.read t k = 0#8 := fun k hk =>
      Memory.read_unlisted (fun c hc => by have := gt c hc; omega)
    rw [Memory.write_cons]
    split
    · split
      · by_cases hj : j = i
        · subst hj
          rw [if_pos rfl, Memory.read_cons, if_neg (by omega), low j (by omega)]
          exact Eq.symm (by assumption)
        · simp [hj]
      · by_cases hj : j = i
        · subst hj; simp [Memory.read_cons]
        · simp [Memory.read_cons, hj, Ne.symm hj]
    · split
      · rename_i hia
        subst hia
        split
        · by_cases hj : j = i
          · subst hj; simp [low j (le_refl j), *]
          · simp [Memory.read_cons, hj, Ne.symm hj]
        · by_cases hj : j = i
          · subst hj; simp [Memory.read_cons]
          · simp [Memory.read_cons, hj, Ne.symm hj]
      · rw [Memory.read_cons, Memory.read_cons, ih (Memory.wf_tail h)]
        by_cases ha : a = j
        · have : j ≠ i := by omega
          simp [ha, this]
        · simp [ha]

/-- A write below a bound keeps the bound. -/
theorem Memory.within_write {m : Memory} {n : Nat} (h : m.within n) {i : Nat} (hi : i < n) (b : Byte) :
    (m.write i b).within n := by
  intro c hc
  rcases Memory.mem_write hc with ⟨rfl, _⟩ | hc
  · exact hi
  · exact h c hc

/-! ### Writing a list -/

theorem Memory.wf_writeBytes {m : Memory} (h : m.wf) (i : Nat) (bs : List Byte) : (m.writeBytes i bs).wf := by
  induction bs generalizing m i with
  | nil => exact h
  | cons b bs ih => exact ih (Memory.wf_write h i b) (i + 1)

theorem Memory.within_writeBytes {m : Memory} {n : Nat} (h : m.within n) {i : Nat} {bs : List Byte}
    (hi : i + bs.length ≤ n) : (m.writeBytes i bs).within n := by
  induction bs generalizing m i with
  | nil => exact h
  | cons b bs ih =>
    simp only [List.length_cons] at hi
    exact ih (Memory.within_write h (by omega) b) (by omega)

/-- `MemWrite(i, bytes)` sets `Mem[i+k] <- bytes[k]` and leaves every other byte alone (R14). -/
theorem Memory.read_writeBytes {m : Memory} (h : m.wf) (i : Nat) (bs : List Byte) (j : Nat) :
    (m.writeBytes i bs).read j = if i ≤ j ∧ j < i + bs.length then bs.getD (j - i) 0#8 else m.read j := by
  induction bs generalizing m i with
  | nil => simp [Memory.writeBytes]
  | cons b bs ih =>
    simp only [Memory.writeBytes, ih (Memory.wf_write h i b), Memory.read_write h, List.length_cons]
    by_cases hj : j = i
    · subst hj; simp
    · by_cases hr : i + 1 ≤ j ∧ j < i + 1 + bs.length
      · have h2 : i ≤ j ∧ j < i + (bs.length + 1) := by omega
        rw [if_pos hr, if_pos h2, show j - i = (j - (i + 1)) + 1 by omega, List.getD_cons_succ]
      · have h2 : ¬(i ≤ j ∧ j < i + (bs.length + 1)) := by omega
        rw [if_neg hr, if_neg h2, if_neg hj]

theorem Memory.wf_nil : Memory.wf [] := by simp [Memory.wf]

theorem Memory.within_nil (n : Nat) : Memory.within [] n := by simp [Memory.within]

theorem Memory.wf_ofBytes (bs : List Byte) : (Memory.ofBytes bs).wf := Memory.wf_writeBytes Memory.wf_nil 0 bs

theorem Memory.within_ofBytes (bs : List Byte) : (Memory.ofBytes bs).within bs.length :=
  Memory.within_writeBytes (Memory.within_nil _) (by omega)

theorem Memory.read_ofBytes (bs : List Byte) (j : Nat) : (Memory.ofBytes bs).read j = bs.getD j 0#8 := by
  rw [Memory.ofBytes, Memory.read_writeBytes Memory.wf_nil]
  split
  · simp
  · rename_i h
    rw [List.getD_eq_default _ _ (by omega)]; rfl

/-! ### Reading a list -/

@[simp] theorem Memory.length_readBytes (m : Memory) (i n : Nat) : (m.readBytes i n).length = n := by
  induction n generalizing i with
  | zero => rfl
  | succ n ih => simp [Memory.readBytes, ih]

theorem Memory.getElem_readBytes (m : Memory) (i n k : Nat) (h : k < (m.readBytes i n).length) :
    (m.readBytes i n)[k] = m.read (i + k) := by
  induction n generalizing i k with
  | zero => simp at h
  | succ n ih =>
    cases k with
    | zero => rfl
    | succ k =>
      have := ih (i + 1) k (by simpa [Memory.readBytes] using h)
      rw [show i + (k + 1) = i + 1 + k by omega, ← this]
      rfl

theorem Memory.getD_readBytes (m : Memory) (i n k : Nat) (h : k < n) :
    (m.readBytes i n).getD k 0#8 = m.read (i + k) := by
  have hk : k < (m.readBytes i n).length := by simpa using h
  rw [List.getD_eq_getElem _ _ hk, Memory.getElem_readBytes]

/-- Two storages that agree from index to index give the same bytes. -/
theorem Memory.readBytes_congr {m m' : Memory} {i i' n : Nat} (h : ∀ k < n, m.read (i + k) = m'.read (i' + k)) :
    m.readBytes i n = m'.readBytes i' n := by
  apply List.ext_getElem (by simp)
  intro k h1 h2
  rw [Memory.getElem_readBytes, Memory.getElem_readBytes]
  exact h k (by simpa using h1)

/-- A list whose elements are the bytes from index i is what `MemRead` gives. -/
theorem Memory.readBytes_eq {m : Memory} {i : Nat} {bs : List Byte} (h : ∀ k < bs.length, m.read (i + k) = bs.getD k 0#8) :
    m.readBytes i bs.length = bs := by
  apply List.ext_getElem (by simp)
  intro k h1 h2
  rw [Memory.getElem_readBytes, h k h2, List.getD_eq_getElem _ _ h2]

/-! ### Cutting and zero-filling -/

theorem Memory.wf_filter {m : Memory} (h : m.wf) (p : Host.Cell → Bool) : Memory.wf (m.filter p) :=
  ⟨h.1.sublist List.filter_sublist, fun c hc => h.2 c (List.mem_filter.mp hc).1⟩

theorem Memory.wf_below {m : Memory} (h : m.wf) (n : Nat) : (m.below n).wf := Memory.wf_filter h _

theorem Memory.wf_zeroFill {m : Memory} (h : m.wf) (lo hi : Nat) : (m.zeroFill lo hi).wf := Memory.wf_filter h _

theorem Memory.within_below (m : Memory) (n : Nat) : (m.below n).within n := by
  intro c hc
  simpa using (List.mem_filter.mp hc).2

theorem Memory.within_mono {m : Memory} {n n' : Nat} (h : m.within n) (hn : n ≤ n') : m.within n' :=
  fun c hc => Nat.lt_of_lt_of_le (h c hc) hn

/-- Keeping the pairs that a test on the index admits: the admitted indices read as before, the others as 0x00. -/
theorem Memory.read_filter (m : Memory) (p : Nat → Bool) (i : Nat) :
    Memory.read (m.filter (fun c => p c.1)) i = if p i then m.read i else 0#8 := by
  induction m with
  | nil => simp
  | cons c t ih =>
    obtain ⟨a, b⟩ := c
    by_cases hp : p a
    · rw [List.filter_cons_of_pos (by simpa using hp), Memory.read_cons, ih, Memory.read_cons]
      by_cases ha : a = i
      · subst ha; simp [hp]
      · simp [ha]
    · rw [List.filter_cons_of_neg (by simpa using hp), ih, Memory.read_cons]
      by_cases ha : a = i
      · subst ha; simp [hp]
      · simp [ha]

theorem Memory.read_below (m : Memory) (n i : Nat) : (m.below n).read i = if i < n then m.read i else 0#8 := by
  have := Memory.read_filter m (fun a => decide (a < n)) i
  simpa [Memory.below] using this

theorem Memory.read_zeroFill (m : Memory) (lo hi i : Nat) :
    (m.zeroFill lo hi).read i = if i < lo ∨ hi ≤ i then m.read i else 0#8 := by
  have := Memory.read_filter m (fun a => decide (a < lo ∨ hi ≤ a)) i
  simpa [Memory.zeroFill] using this

/-- A storage with nothing at or past `lo` is unchanged by filling from `lo` on with 0x00. -/
theorem Memory.zeroFill_of_within {m : Memory} {lo : Nat} (h : m.within lo) (hi : Nat) : m.zeroFill lo hi = m := by
  rw [Memory.zeroFill, List.filter_eq_self]
  intro c hc
  simp [h c hc]

end Sys2Proof.Machine
end

