-- ==== Sys2Proof/Laws/State.lean ====
section
/-! SUPPORT. What each named update of the state does to each field. Every lemma holds by definition. -/

namespace Sys2Proof.Machine

/-! ### `raise` (R353, R354) -/

@[simp] theorem State.raise_kind (s : State) (e : Response) : (s.raise e).kind = s.kind := rfl
@[simp] theorem State.raise_mode (s : State) (e : Response) : (s.raise e).mode = s.mode := rfl
@[simp] theorem State.raise_cursor (s : State) (e : Response) : (s.raise e).cursor = s.cursor := rfl
@[simp] theorem State.raise_bitIdx (s : State) (e : Response) : (s.raise e).bitIdx = s.bitIdx := rfl
@[simp] theorem State.raise_len (s : State) (e : Response) : (s.raise e).len = s.len := rfl
@[simp] theorem State.raise_cap (s : State) (e : Response) : (s.raise e).cap = s.cap := rfl
@[simp] theorem State.raise_mark (s : State) (e : Response) : (s.raise e).mark = s.mark := rfl
@[simp] theorem State.raise_mem (s : State) (e : Response) : (s.raise e).mem = s.mem := rfl
@[simp] theorem State.raise_r (s : State) (e : Response) : (s.raise e).r = s.r := rfl
@[simp] theorem State.raise_dout (s : State) (e : Response) : (s.raise e).dout = s.dout := rfl
@[simp] theorem State.raise_resp (s : State) (e : Response) : (s.raise e).resp = e := rfl
@[simp] theorem State.raise_fault (s : State) (e : Response) : (s.raise e).fault = true := rfl
@[simp] theorem State.raise_err (s : State) (e : Response) : (s.raise e).err = if s.fault then s.err else e := rfl
@[simp] theorem State.raise_params (s : State) (e : Response) : (s.raise e).params = s.params := rfl
@[simp] theorem State.raise_opA (s : State) (e : Response) : (s.raise e).opA = s.opA := rfl
@[simp] theorem State.raise_opDin (s : State) (e : Response) : (s.raise e).opDin = s.opDin := rfl
@[simp] theorem State.raise_pending (s : State) (e : Response) : (s.raise e).pending = s.pending := rfl

/-! ### `refuseFaulted` (R355) -/

@[simp] theorem State.refuseFaulted_kind (s : State) : (s.refuseFaulted).kind = s.kind := rfl
@[simp] theorem State.refuseFaulted_mode (s : State) : (s.refuseFaulted).mode = s.mode := rfl
@[simp] theorem State.refuseFaulted_cursor (s : State) : (s.refuseFaulted).cursor = s.cursor := rfl
@[simp] theorem State.refuseFaulted_bitIdx (s : State) : (s.refuseFaulted).bitIdx = s.bitIdx := rfl
@[simp] theorem State.refuseFaulted_len (s : State) : (s.refuseFaulted).len = s.len := rfl
@[simp] theorem State.refuseFaulted_cap (s : State) : (s.refuseFaulted).cap = s.cap := rfl
@[simp] theorem State.refuseFaulted_mark (s : State) : (s.refuseFaulted).mark = s.mark := rfl
@[simp] theorem State.refuseFaulted_mem (s : State) : (s.refuseFaulted).mem = s.mem := rfl
@[simp] theorem State.refuseFaulted_r (s : State) : (s.refuseFaulted).r = s.r := rfl
@[simp] theorem State.refuseFaulted_dout (s : State) : (s.refuseFaulted).dout = s.dout := rfl
@[simp] theorem State.refuseFaulted_resp (s : State) : (s.refuseFaulted).resp = .faulted := rfl
@[simp] theorem State.refuseFaulted_fault (s : State) : (s.refuseFaulted).fault = s.fault := rfl
@[simp] theorem State.refuseFaulted_err (s : State) : (s.refuseFaulted).err = s.err := rfl
@[simp] theorem State.refuseFaulted_params (s : State) : (s.refuseFaulted).params = s.params := rfl
@[simp] theorem State.refuseFaulted_opA (s : State) : (s.refuseFaulted).opA = s.opA := rfl
@[simp] theorem State.refuseFaulted_opDin (s : State) : (s.refuseFaulted).opDin = s.opDin := rfl
@[simp] theorem State.refuseFaulted_pending (s : State) : (s.refuseFaulted).pending = s.pending := rfl

/-! ### `construct` (R39, R391) -/

@[simp] theorem State.construct_kind (s : State) (k : Kind) (m : Memory) (l c : Nat) : (s.construct k m l c).kind = k := rfl
@[simp] theorem State.construct_mode (s : State) (k : Kind) (m : Memory) (l c : Nat) : (s.construct k m l c).mode = .byte := rfl
@[simp] theorem State.construct_cursor (s : State) (k : Kind) (m : Memory) (l c : Nat) : (s.construct k m l c).cursor = 0 := rfl
@[simp] theorem State.construct_bitIdx (s : State) (k : Kind) (m : Memory) (l c : Nat) : (s.construct k m l c).bitIdx = 0 := rfl
@[simp] theorem State.construct_len (s : State) (k : Kind) (m : Memory) (l c : Nat) : (s.construct k m l c).len = reg l := rfl
@[simp] theorem State.construct_cap (s : State) (k : Kind) (m : Memory) (l c : Nat) : (s.construct k m l c).cap = reg c := rfl
@[simp] theorem State.construct_mark (s : State) (k : Kind) (m : Memory) (l c : Nat) : (s.construct k m l c).mark = 0 := rfl
@[simp] theorem State.construct_mem (s : State) (k : Kind) (m : Memory) (l c : Nat) : (s.construct k m l c).mem = m := rfl
@[simp] theorem State.construct_r (s : State) (k : Kind) (m : Memory) (l c : Nat) : (s.construct k m l c).r = s.r := rfl
@[simp] theorem State.construct_dout (s : State) (k : Kind) (m : Memory) (l c : Nat) : (s.construct k m l c).dout = s.dout := rfl
@[simp] theorem State.construct_resp (s : State) (k : Kind) (m : Memory) (l c : Nat) : (s.construct k m l c).resp = .ok := rfl
@[simp] theorem State.construct_fault (s : State) (k : Kind) (m : Memory) (l c : Nat) : (s.construct k m l c).fault = false := rfl
@[simp] theorem State.construct_err (s : State) (k : Kind) (m : Memory) (l c : Nat) : (s.construct k m l c).err = .ok := rfl
@[simp] theorem State.construct_params (s : State) (k : Kind) (m : Memory) (l c : Nat) : (s.construct k m l c).params = s.params := rfl
@[simp] theorem State.construct_opA (s : State) (k : Kind) (m : Memory) (l c : Nat) : (s.construct k m l c).opA = s.opA := rfl
@[simp] theorem State.construct_opDin (s : State) (k : Kind) (m : Memory) (l c : Nat) : (s.construct k m l c).opDin = s.opDin := rfl
@[simp] theorem State.construct_pending (s : State) (k : Kind) (m : Memory) (l c : Nat) : (s.construct k m l c).pending = s.pending := rfl

/-! ### `toPowerOn` (R39, R135) -/

@[simp] theorem State.toPowerOn_kind (s : State) : (s.toPowerOn).kind = .none := rfl
@[simp] theorem State.toPowerOn_mode (s : State) : (s.toPowerOn).mode = .byte := rfl
@[simp] theorem State.toPowerOn_cursor (s : State) : (s.toPowerOn).cursor = 0 := rfl
@[simp] theorem State.toPowerOn_bitIdx (s : State) : (s.toPowerOn).bitIdx = 0 := rfl
@[simp] theorem State.toPowerOn_len (s : State) : (s.toPowerOn).len = 0 := rfl
@[simp] theorem State.toPowerOn_cap (s : State) : (s.toPowerOn).cap = 0 := rfl
@[simp] theorem State.toPowerOn_mark (s : State) : (s.toPowerOn).mark = 0 := rfl
@[simp] theorem State.toPowerOn_mem (s : State) : (s.toPowerOn).mem = [] := rfl
@[simp] theorem State.toPowerOn_r (s : State) : (s.toPowerOn).r = s.r := rfl
@[simp] theorem State.toPowerOn_dout (s : State) : (s.toPowerOn).dout = s.dout := rfl
@[simp] theorem State.toPowerOn_resp (s : State) : (s.toPowerOn).resp = .ok := rfl
@[simp] theorem State.toPowerOn_fault (s : State) : (s.toPowerOn).fault = false := rfl
@[simp] theorem State.toPowerOn_err (s : State) : (s.toPowerOn).err = .ok := rfl
@[simp] theorem State.toPowerOn_params (s : State) : (s.toPowerOn).params = s.params := rfl
@[simp] theorem State.toPowerOn_opA (s : State) : (s.toPowerOn).opA = s.opA := rfl
@[simp] theorem State.toPowerOn_opDin (s : State) : (s.toPowerOn).opDin = s.opDin := rfl
@[simp] theorem State.toPowerOn_pending (s : State) : (s.toPowerOn).pending = s.pending := rfl

/-! ### `failConstruct` (R135) -/

@[simp] theorem State.failConstruct_kind (s : State) (e : Response) : (s.failConstruct e).kind = .none := rfl
@[simp] theorem State.failConstruct_mode (s : State) (e : Response) : (s.failConstruct e).mode = .byte := rfl
@[simp] theorem State.failConstruct_cursor (s : State) (e : Response) : (s.failConstruct e).cursor = 0 := rfl
@[simp] theorem State.failConstruct_bitIdx (s : State) (e : Response) : (s.failConstruct e).bitIdx = 0 := rfl
@[simp] theorem State.failConstruct_len (s : State) (e : Response) : (s.failConstruct e).len = 0 := rfl
@[simp] theorem State.failConstruct_cap (s : State) (e : Response) : (s.failConstruct e).cap = 0 := rfl
@[simp] theorem State.failConstruct_mark (s : State) (e : Response) : (s.failConstruct e).mark = 0 := rfl
@[simp] theorem State.failConstruct_mem (s : State) (e : Response) : (s.failConstruct e).mem = [] := rfl
@[simp] theorem State.failConstruct_r (s : State) (e : Response) : (s.failConstruct e).r = s.r := rfl
@[simp] theorem State.failConstruct_dout (s : State) (e : Response) : (s.failConstruct e).dout = s.dout := rfl
@[simp] theorem State.failConstruct_resp (s : State) (e : Response) : (s.failConstruct e).resp = e := rfl
@[simp] theorem State.failConstruct_fault (s : State) (e : Response) : (s.failConstruct e).fault = true := rfl
@[simp] theorem State.failConstruct_err (s : State) (e : Response) : (s.failConstruct e).err = e := rfl
@[simp] theorem State.failConstruct_params (s : State) (e : Response) : (s.failConstruct e).params = s.params := rfl
@[simp] theorem State.failConstruct_opA (s : State) (e : Response) : (s.failConstruct e).opA = s.opA := rfl
@[simp] theorem State.failConstruct_opDin (s : State) (e : Response) : (s.failConstruct e).opDin = s.opDin := rfl
@[simp] theorem State.failConstruct_pending (s : State) (e : Response) : (s.failConstruct e).pending = s.pending := rfl

/-! ### `finalize` (R133, R134) -/

@[simp] theorem State.finalize_kind (s : State) (n : DWord) : (s.finalize n).kind = .reader := rfl
@[simp] theorem State.finalize_mode (s : State) (n : DWord) : (s.finalize n).mode = .byte := rfl
@[simp] theorem State.finalize_cursor (s : State) (n : DWord) : (s.finalize n).cursor = 0 := rfl
@[simp] theorem State.finalize_bitIdx (s : State) (n : DWord) : (s.finalize n).bitIdx = 0 := rfl
@[simp] theorem State.finalize_len (s : State) (n : DWord) : (s.finalize n).len = n := rfl
@[simp] theorem State.finalize_cap (s : State) (n : DWord) : (s.finalize n).cap = n := rfl
@[simp] theorem State.finalize_mark (s : State) (n : DWord) : (s.finalize n).mark = 0 := rfl
@[simp] theorem State.finalize_mem (s : State) (n : DWord) : (s.finalize n).mem = s.mem.below n.toNat := rfl
@[simp] theorem State.finalize_r (s : State) (n : DWord) : (s.finalize n).r = s.r := rfl
@[simp] theorem State.finalize_dout (s : State) (n : DWord) : (s.finalize n).dout = s.dout := rfl
@[simp] theorem State.finalize_resp (s : State) (n : DWord) : (s.finalize n).resp = s.resp := rfl
@[simp] theorem State.finalize_fault (s : State) (n : DWord) : (s.finalize n).fault = s.fault := rfl
@[simp] theorem State.finalize_err (s : State) (n : DWord) : (s.finalize n).err = s.err := rfl
@[simp] theorem State.finalize_params (s : State) (n : DWord) : (s.finalize n).params = s.params := rfl
@[simp] theorem State.finalize_opA (s : State) (n : DWord) : (s.finalize n).opA = s.opA := rfl
@[simp] theorem State.finalize_opDin (s : State) (n : DWord) : (s.finalize n).opDin = s.opDin := rfl
@[simp] theorem State.finalize_pending (s : State) (n : DWord) : (s.finalize n).pending = s.pending := rfl

/-! ### `grow` (R15) -/

@[simp] theorem State.grow_kind (s : State) (need : Nat) : (s.grow need).kind = s.kind := rfl
@[simp] theorem State.grow_mode (s : State) (need : Nat) : (s.grow need).mode = s.mode := rfl
@[simp] theorem State.grow_cursor (s : State) (need : Nat) : (s.grow need).cursor = s.cursor := rfl
@[simp] theorem State.grow_bitIdx (s : State) (need : Nat) : (s.grow need).bitIdx = s.bitIdx := rfl
@[simp] theorem State.grow_len (s : State) (need : Nat) : (s.grow need).len = s.len := rfl
@[simp] theorem State.grow_cap (s : State) (need : Nat) : (s.grow need).cap = reg (growTo s.params s.cap.toNat need) := rfl
@[simp] theorem State.grow_mark (s : State) (need : Nat) : (s.grow need).mark = s.mark := rfl
@[simp] theorem State.grow_mem (s : State) (need : Nat) : (s.grow need).mem = s.mem.zeroFill s.cap.toNat (growTo s.params s.cap.toNat need) := rfl
@[simp] theorem State.grow_r (s : State) (need : Nat) : (s.grow need).r = s.r := rfl
@[simp] theorem State.grow_dout (s : State) (need : Nat) : (s.grow need).dout = s.dout := rfl
@[simp] theorem State.grow_resp (s : State) (need : Nat) : (s.grow need).resp = s.resp := rfl
@[simp] theorem State.grow_fault (s : State) (need : Nat) : (s.grow need).fault = s.fault := rfl
@[simp] theorem State.grow_err (s : State) (need : Nat) : (s.grow need).err = s.err := rfl
@[simp] theorem State.grow_params (s : State) (need : Nat) : (s.grow need).params = s.params := rfl
@[simp] theorem State.grow_opA (s : State) (need : Nat) : (s.grow need).opA = s.opA := rfl
@[simp] theorem State.grow_opDin (s : State) (need : Nat) : (s.grow need).opDin = s.opDin := rfl
@[simp] theorem State.grow_pending (s : State) (need : Nat) : (s.grow need).pending = s.pending := rfl

/-! ### `load`, the command port (R35) -/

@[simp] theorem State.load_kind (s : State) (c : Command) (rest : List Command) : (s.load c rest).kind = s.kind := rfl
@[simp] theorem State.load_mode (s : State) (c : Command) (rest : List Command) : (s.load c rest).mode = s.mode := rfl
@[simp] theorem State.load_cursor (s : State) (c : Command) (rest : List Command) : (s.load c rest).cursor = s.cursor := rfl
@[simp] theorem State.load_bitIdx (s : State) (c : Command) (rest : List Command) : (s.load c rest).bitIdx = s.bitIdx := rfl
@[simp] theorem State.load_len (s : State) (c : Command) (rest : List Command) : (s.load c rest).len = s.len := rfl
@[simp] theorem State.load_cap (s : State) (c : Command) (rest : List Command) : (s.load c rest).cap = s.cap := rfl
@[simp] theorem State.load_mark (s : State) (c : Command) (rest : List Command) : (s.load c rest).mark = s.mark := rfl
@[simp] theorem State.load_mem (s : State) (c : Command) (rest : List Command) : (s.load c rest).mem = s.mem := rfl
@[simp] theorem State.load_r (s : State) (c : Command) (rest : List Command) : (s.load c rest).r = s.r := rfl
@[simp] theorem State.load_dout (s : State) (c : Command) (rest : List Command) : (s.load c rest).dout = s.dout := rfl
@[simp] theorem State.load_resp (s : State) (c : Command) (rest : List Command) : (s.load c rest).resp = s.resp := rfl
@[simp] theorem State.load_fault (s : State) (c : Command) (rest : List Command) : (s.load c rest).fault = s.fault := rfl
@[simp] theorem State.load_err (s : State) (c : Command) (rest : List Command) : (s.load c rest).err = s.err := rfl
@[simp] theorem State.load_params (s : State) (c : Command) (rest : List Command) : (s.load c rest).params = s.params := rfl
@[simp] theorem State.load_opA (s : State) (c : Command) (rest : List Command) : (s.load c rest).opA = c.a := rfl
@[simp] theorem State.load_opDin (s : State) (c : Command) (rest : List Command) : (s.load c rest).opDin = c.din := rfl
@[simp] theorem State.load_pending (s : State) (c : Command) (rest : List Command) : (s.load c rest).pending = rest := rfl

/-! ### `powerOn` (R39, R390) -/

@[simp] theorem State.powerOn_kind (p : Config.Params) (r : DWord) (d : List Byte) : (State.powerOn p r d).kind = .none := rfl
@[simp] theorem State.powerOn_mode (p : Config.Params) (r : DWord) (d : List Byte) : (State.powerOn p r d).mode = .byte := rfl
@[simp] theorem State.powerOn_cursor (p : Config.Params) (r : DWord) (d : List Byte) : (State.powerOn p r d).cursor = 0 := rfl
@[simp] theorem State.powerOn_bitIdx (p : Config.Params) (r : DWord) (d : List Byte) : (State.powerOn p r d).bitIdx = 0 := rfl
@[simp] theorem State.powerOn_len (p : Config.Params) (r : DWord) (d : List Byte) : (State.powerOn p r d).len = 0 := rfl
@[simp] theorem State.powerOn_cap (p : Config.Params) (r : DWord) (d : List Byte) : (State.powerOn p r d).cap = 0 := rfl
@[simp] theorem State.powerOn_mark (p : Config.Params) (r : DWord) (d : List Byte) : (State.powerOn p r d).mark = 0 := rfl
@[simp] theorem State.powerOn_mem (p : Config.Params) (r : DWord) (d : List Byte) : (State.powerOn p r d).mem = [] := rfl
@[simp] theorem State.powerOn_r (p : Config.Params) (r : DWord) (d : List Byte) : (State.powerOn p r d).r = r := rfl
@[simp] theorem State.powerOn_dout (p : Config.Params) (r : DWord) (d : List Byte) : (State.powerOn p r d).dout = d := rfl
@[simp] theorem State.powerOn_resp (p : Config.Params) (r : DWord) (d : List Byte) : (State.powerOn p r d).resp = .ok := rfl
@[simp] theorem State.powerOn_fault (p : Config.Params) (r : DWord) (d : List Byte) : (State.powerOn p r d).fault = false := rfl
@[simp] theorem State.powerOn_err (p : Config.Params) (r : DWord) (d : List Byte) : (State.powerOn p r d).err = .ok := rfl
@[simp] theorem State.powerOn_params (p : Config.Params) (r : DWord) (d : List Byte) : (State.powerOn p r d).params = p := rfl
@[simp] theorem State.powerOn_opA (p : Config.Params) (r : DWord) (d : List Byte) : (State.powerOn p r d).opA = 0 := rfl
@[simp] theorem State.powerOn_opDin (p : Config.Params) (r : DWord) (d : List Byte) : (State.powerOn p r d).opDin = [] := rfl
@[simp] theorem State.powerOn_pending (p : Config.Params) (r : DWord) (d : List Byte) : (State.powerOn p r d).pending = [] := rfl

end Sys2Proof.Machine
end

