-- ==== Sys2Proof/Laws/Ops.lean ====
section
/-! SUPPORT. For each shared operation, one lemma that says once everything it can do, and the forward forms that run it. -/

namespace Sys2Proof.Machine

/-! ### Registers -/

theorem reg_toNat {n : Nat} (h : n < 2 ^ 64) : (reg n).toNat = n := by
  rw [reg, BitVec.toNat_ofNat, Nat.mod_eq_of_lt h]

/-- A natural number within the capacity bound of R9 fits a register. -/
theorem reg_toNat_of_le {p : Config.Params} (hp : p.legal) {n : Nat} (h : n ≤ p.maxCapacity) : (reg n).toNat = n :=
  reg_toNat (by have := hp.2.1; simp only [Config.capacityBound] at this; omega)

@[simp] theorem reg_self (v : DWord) : reg v.toNat = v := by simp [reg]

/-! ### Growth -/

theorem growTo_ge (p : Config.Params) (cap need : Nat) : need ≤ growTo p cap need := by
  unfold growTo
  split
  · split <;> omega
  · exact le_refl _

theorem growTo_le {p : Config.Params} {cap need : Nat} (h : need ≤ p.maxCapacity) : growTo p cap need ≤ p.maxCapacity := by
  unfold growTo
  split
  · split <;> omega
  · exact h

/-- Everything `cover` can do: it answers when the bytes fit MAX_CAPACITY, and grows only when CAP is short. -/
theorem State.cover_ok {need : Nat} {s t : State} (h : s.cover need = .ok t) :
    need ≤ s.params.maxCapacity ∧ (need ≤ s.cap.toNat ∧ t = s ∨ s.cap.toNat < need ∧ t = s.grow need) := by
  unfold State.cover at h
  split at h
  · rename_i hn
    simp only [Except.ok.injEq] at h
    subst h
    refine ⟨hn, ?_⟩
    by_cases hc : s.cap.toNat < need
    · exact .inr ⟨hc, by simp [hc]⟩
    · exact .inl ⟨by omega, by simp [hc]⟩
  · cases h

theorem State.cover_of_le {need : Nat} {s : State} (h : need ≤ s.params.maxCapacity) :
    s.cover need = .ok (if s.cap.toNat < need then s.grow need else s) := by
  simp [State.cover, h]

theorem State.cover_of_gt {need : Nat} {s : State} (h : s.params.maxCapacity < need) :
    s.cover need = .error .boundsError := by
  simp [State.cover, Nat.not_le.mpr h]

/-- In a unit whose storage holds nothing at or past CAP, `cover` changes CAP alone. -/
theorem State.cover_frame {need : Nat} {s t : State} (hm : s.mem.within s.cap.toNat) (h : s.cover need = .ok t) :
    t = { s with cap := t.cap } := by
  rcases (State.cover_ok h).2 with ⟨_, rfl⟩ | ⟨_, rfl⟩
  · rfl
  · simp [State.grow, Memory.zeroFill_of_within hm]

/-- What CAP is after `cover` (R15, R11). -/
theorem State.cover_cap {need : Nat} {s t : State} (hp : s.params.legal) (h : s.cover need = .ok t) :
    need ≤ t.cap.toNat ∧ s.cap.toNat ≤ t.cap.toNat ∧ (s.cap.toNat ≤ s.params.maxCapacity → t.cap.toNat ≤ s.params.maxCapacity) ∧
      t.cap.toNat = if s.cap.toNat < need then growTo s.params s.cap.toNat need else s.cap.toNat := by
  obtain ⟨hn, ⟨hc, rfl⟩ | ⟨hc, rfl⟩⟩ := State.cover_ok h
  · simp [Nat.not_lt.mpr hc, hc]
  · have hle := growTo_le (cap := s.cap.toNat) hn
    have hge := growTo_ge s.params s.cap.toNat need
    rw [State.grow_cap, reg_toNat_of_le hp hle, if_pos hc]
    omega

/-! ### Reads -/

/-- Everything `peek` can do. -/
theorem State.peek_ok {s : State} {b : Byte} (h : s.peek = .ok b) :
    s.cursor.toNat < s.len.toNat ∧ b = s.mem.read s.cursor.toNat := by
  unfold State.peek at h
  split at h
  · exact ⟨by assumption, by simpa using h.symm⟩
  · cases h

theorem State.peek_of_lt {s : State} (h : s.cursor.toNat < s.len.toNat) : s.peek = .ok (s.mem.read s.cursor.toNat) := by
  simp [State.peek, h]

theorem State.peek_of_ge {s : State} (h : s.len.toNat ≤ s.cursor.toNat) : s.peek = .error .boundsError := by
  simp [State.peek, Nat.not_lt.mpr h]

/-- Everything `take` can do. -/
theorem State.take_ok {n : Nat} {s : State} {x : List Byte × State} (h : s.take n = .ok x) :
    s.cursor.toNat + n ≤ s.len.toNat ∧ x.1 = s.mem.readBytes s.cursor.toNat n ∧
      x.2 = { s with cursor := reg (s.cursor.toNat + n) } := by
  unfold State.take at h
  split at h
  · simp only [Except.ok.injEq] at h
    subst h
    exact ⟨by assumption, rfl, rfl⟩
  · cases h

theorem State.take_of_le {n : Nat} {s : State} (h : s.cursor.toNat + n ≤ s.len.toNat) :
    s.take n = .ok (s.mem.readBytes s.cursor.toNat n, { s with cursor := reg (s.cursor.toNat + n) }) := by
  simp [State.take, h]

theorem State.take_of_gt {n : Nat} {s : State} (h : s.len.toNat < s.cursor.toNat + n) :
    s.take n = .error .boundsError := by
  simp [State.take, Nat.not_le.mpr h]

/-- The cursor after a successful `take` does not wrap. -/
theorem State.take_cursor {n : Nat} {s : State} (h : s.cursor.toNat + n ≤ s.len.toNat) :
    (reg (s.cursor.toNat + n)).toNat = s.cursor.toNat + n :=
  reg_toNat (by have := s.len.isLt; omega)

/-! ### Writes -/

/-- Everything `emitSized` can do: it covers the bytes, writes them at CURSOR and moves CURSOR over them. -/
theorem State.emitSized_ok {n : Nat} {f : Unit → List Byte} {s t : State} (h : s.emitSized n f = .ok t) :
    ∃ u, s.cover (s.cursor.toNat + n) = .ok u ∧
      t = { u with mem := u.mem.writeBytes s.cursor.toNat (f ()), cursor := reg (s.cursor.toNat + n) } := by
  unfold State.emitSized at h
  cases hc : s.cover (s.cursor.toNat + n) with
  | error e => rw [hc] at h; cases h
  | ok u => rw [hc] at h; exact ⟨u, rfl, by simpa [Except.map] using h.symm⟩

theorem State.emitSized_of_gt {n : Nat} {f : Unit → List Byte} {s : State}
    (h : s.params.maxCapacity < s.cursor.toNat + n) : s.emitSized n f = .error .boundsError := by
  simp [State.emitSized, State.cover_of_gt h, Except.map]

/-- Within MAX_CAPACITY `emitSized` answers, and says what the new state is: CURSOR, CAP and the bytes, and nothing else. -/
theorem State.emitSized_of_le {n : Nat} {f : Unit → List Byte} {s : State} (hl : (f ()).length = n) (hp : s.params.legal)
    (hm : s.memInv) (h : s.cursor.toNat + n ≤ s.params.maxCapacity) :
    ∃ t, s.emitSized n f = .ok t ∧ t = { s with cursor := t.cursor, cap := t.cap, mem := t.mem } ∧
      t.cursor.toNat = s.cursor.toNat + n ∧
      t.cap.toNat = (if s.cap.toNat < s.cursor.toNat + n then growTo s.params s.cap.toNat (s.cursor.toNat + n)
        else s.cap.toNat) ∧
      t.mem = s.mem.writeBytes s.cursor.toNat (f ()) ∧ t.memInv := by
  have hu := State.cover_of_le h
  set u := if s.cap.toNat < s.cursor.toNat + n then s.grow (s.cursor.toNat + n) else s
  have hf := State.cover_frame hm.2 hu
  obtain ⟨hcov, hmono, _, hcap⟩ := State.cover_cap hp hu
  have hmem : u.mem = s.mem := by rw [hf]
  refine ⟨{ u with mem := u.mem.writeBytes s.cursor.toNat (f ()), cursor := reg (s.cursor.toNat + n) }, ?_, ?_, ?_, ?_, ?_, ?_⟩
  · simp [State.emitSized, hu, Except.map]
  · conv_lhs => rw [hf]
    simp only [hmem]
  · exact reg_toNat_of_le hp h
  · exact hcap
  · simp [hmem]
  · constructor
    · exact Memory.wf_writeBytes (by rw [hmem]; exact hm.1) _ _
    · exact Memory.within_writeBytes (by rw [hmem]; exact Memory.within_mono hm.2 hmono) (by rw [hl]; exact hcov)

/-! ### The checks common to all commands -/

/-- Everything `runCommand` can do (R352): it always answers a next state, by the first check that fails or by its body. -/
theorem runCommand_cases {α : Type} {need : KindNeed} {field : Option α} {mode : Mode}
    {body : α → State → Except Response State} {s : State} {o : Host.Outcome State Fault Refusal}
    (h : runCommand need field mode body s = o) :
    s.fault = true ∧ o = .next s.refuseFaulted ∨
    s.fault = false ∧ kindTakes need s.kind = false ∧ o = .next (s.raise .illegalCommand) ∨
    s.fault = false ∧ kindTakes need s.kind = true ∧ field = none ∧ o = .next (s.raise .configurationError) ∨
    s.fault = false ∧ kindTakes need s.kind = true ∧ (∃ f, field = some f) ∧ s.mode ≠ mode ∧ o = .next (s.raise .modeError) ∨
    s.fault = false ∧ kindTakes need s.kind = true ∧ s.mode = mode ∧ ∃ f, field = some f ∧
      ((∃ t, body f s = .ok t ∧ o = .next { t with resp := .ok }) ∨ ∃ e, body f s = .error e ∧ o = .next (s.raise e)) := by
  subst h
  unfold runCommand
  cases hf : s.fault
  · cases hk : kindTakes need s.kind
    · simp
    · cases field with
      | none => simp
      | some f =>
        by_cases hm : s.mode = mode
        · cases hb : body f s <;> simp [hm, hb]
        · simp [hm]
  · simp

/-- A command whose checks pass and whose body answers. -/
theorem runCommand_of_ok {α : Type} {need : KindNeed} {field : Option α} {mode : Mode}
    {body : α → State → Except Response State} {s t : State} {f : α} (hf : s.fault = false)
    (hk : kindTakes need s.kind = true) (hd : field = some f) (hm : s.mode = mode) (hb : body f s = .ok t) :
    runCommand need field mode body s = .next { t with resp := .ok } := by
  simp [runCommand, hf, hk, hd, hm, hb]

/-- A command whose checks pass and whose body raises. -/
theorem runCommand_of_error {α : Type} {need : KindNeed} {field : Option α} {mode : Mode}
    {body : α → State → Except Response State} {s : State} {f : α} {e : Response} (hf : s.fault = false)
    (hk : kindTakes need s.kind = true) (hd : field = some f) (hm : s.mode = mode) (hb : body f s = .error e) :
    runCommand need field mode body s = .next (s.raise e) := by
  simp [runCommand, hf, hk, hd, hm, hb]

theorem runPlain_of_ok {need : KindNeed} {mode : Mode} {body : State → Except Response State} {s t : State}
    (hf : s.fault = false) (hk : kindTakes need s.kind = true) (hm : s.mode = mode) (hb : body s = .ok t) :
    runPlain need mode body s = .next { t with resp := .ok } :=
  runCommand_of_ok hf hk rfl hm hb

theorem runPlain_of_error {need : KindNeed} {mode : Mode} {body : State → Except Response State} {s : State} {e : Response}
    (hf : s.fault = false) (hk : kindTakes need s.kind = true) (hm : s.mode = mode) (hb : body s = .error e) :
    runPlain need mode body s = .next (s.raise e) :=
  runCommand_of_error hf hk rfl hm hb

/-- Everything `rejectWord` can do (R352 1 to 3, R135). -/
theorem State.rejectWord_cases (e : DecodeError) (s : State) :
    s.rejectWord e = s.failConstruct .illegalCommand ∧ (∃ op, e = .reservedBits op ∧ isConstructOp op = true) ∨
    s.fault = true ∧ s.rejectWord e = s.refuseFaulted ∨
    s.fault = false ∧ s.rejectWord e = s.raise .illegalCommand := by
  cases e with
  | unassignedOp op => cases hf : s.fault <;> simp [State.rejectWord, hf]
  | reservedBits op =>
    cases ho : isConstructOp op
    · cases hf : s.fault <;> simp [State.rejectWord, hf, ho]
    · exact .inl ⟨by simp [State.rejectWord, ho], op, rfl, ho⟩

end Sys2Proof.Machine
end

