-- ==== Sys2Proof/Laws/Codec.lean ====
section
/-! SUPPORT. For each operation that several commands share, what it can do: the scalar read, the smart reads and the chain, the
string and block operations, and the pack loop on the storage. -/

namespace Sys2Proof.Machine

theorem map_ok {α β : Type} {x : Except Response α} {f : α → β} {y : β} (h : x.map f = .ok y) :
    ∃ a, x = .ok a ∧ f a = y := by
  cases x with
  | error e => cases h
  | ok a => exact ⟨a, rfl, by simpa [Except.map] using h⟩

theorem map_error {α β : Type} {x : Except Response α} {f : α → β} {e : Response} (h : x.map f = .error e) :
    x = .error e := by
  cases x with
  | error d => simpa [Except.map] using h
  | ok a => cases h

/-! ### Which errors the primitives raise -/

theorem State.cover_error {need : Nat} {s : State} {e : Response} (h : s.cover need = .error e) :
    e = .boundsError ∧ s.params.maxCapacity < need := by
  unfold State.cover at h
  split at h
  · cases h
  · exact ⟨by simpa using h.symm, by omega⟩

theorem State.take_error {n : Nat} {s : State} {e : Response} (h : s.take n = .error e) :
    e = .boundsError ∧ s.len.toNat < s.cursor.toNat + n := by
  unfold State.take at h
  split at h
  · cases h
  · exact ⟨by simpa using h.symm, by omega⟩

theorem State.peek_error {s : State} {e : Response} (h : s.peek = .error e) :
    e = .boundsError ∧ s.len.toNat ≤ s.cursor.toNat := by
  unfold State.peek at h
  split at h
  · cases h
  · exact ⟨by simpa using h.symm, by omega⟩

theorem State.emitSized_error {n : Nat} {f : Unit → List Byte} {s : State} {e : Response} (h : s.emitSized n f = .error e) :
    e = .boundsError ∧ s.params.maxCapacity < s.cursor.toNat + n :=
  State.cover_error (map_error h)

/-! ### Scalar reads -/

/-- Everything a scalar read can do when it answers (R185): CURSOR moves over the field's bytes and R is their value. -/
theorem State.readScalar_ok {widen : Nat → Nat → DWord} {f : ScalarField} {s t : State} (h : s.readScalar widen f = .ok t) :
    s.cursor.toNat + widthBytes f.width ≤ s.len.toNat ∧
      t = { s with
        cursor := reg (s.cursor.toNat + widthBytes f.width)
        r := widen (8 * widthBytes f.width) (assemble f (s.mem.readBytes s.cursor.toNat (widthBytes f.width))) } := by
  obtain ⟨x, hx, rfl⟩ := map_ok h
  obtain ⟨hl, h1, h2⟩ := State.take_ok hx
  exact ⟨hl, by rw [h1, h2]⟩

theorem State.readScalar_error {widen : Nat → Nat → DWord} {f : ScalarField} {s : State} {e : Response}
    (h : s.readScalar widen f = .error e) : e = .boundsError ∧ s.len.toNat < s.cursor.toNat + widthBytes f.width :=
  State.take_error (map_error h)

/-! ### Smart reads -/

/-- The count of bytes a smart read takes: bit 7 of the byte at CURSOR chooses (R260). -/
def State.smartLength (short long : Nat) (s : State) : Nat :=
  if (s.mem.read s.cursor.toNat).toNat < 0x80 then short else long

/-- Everything `takeSmart` can do when it answers. -/
theorem State.takeSmart_ok {short long : Nat} {s : State} {x : (Bool × Nat) × State} (h : s.takeSmart short long = .ok x) :
    s.cursor.toNat < s.len.toNat ∧ s.cursor.toNat + s.smartLength short long ≤ s.len.toNat ∧
      x = ((decide (0x80 ≤ (s.mem.read s.cursor.toNat).toNat),
          beValue (s.mem.readBytes s.cursor.toNat (s.smartLength short long))),
        { s with cursor := reg (s.cursor.toNat + s.smartLength short long) }) := by
  unfold State.takeSmart at h
  split at h
  · cases h
  · rename_i b0 hb
    obtain ⟨hlt, rfl⟩ := State.peek_ok hb
    split at h
    all_goals
      rename_i hc
      obtain ⟨y, hy, rfl⟩ := map_ok h
      obtain ⟨z, hz, rfl⟩ := map_ok hy
      obtain ⟨hl, h1, h2⟩ := State.take_ok hz
    · exact ⟨hlt, by simpa [State.smartLength, hc] using hl, by simp [State.smartLength, hc, h1, h2]⟩
    · exact ⟨hlt, by simpa [State.smartLength, hc] using hl, by
        simp [State.smartLength, hc, h1, h2, Nat.not_lt.mp hc]⟩

/-- `takeSmart` answers where the bytes it needs lie below LEN. -/
theorem State.takeSmart_of_le {short long : Nat} {s : State} (h0 : s.cursor.toNat < s.len.toNat)
    (h : s.cursor.toNat + s.smartLength short long ≤ s.len.toNat) :
    s.takeSmart short long = .ok ((decide (0x80 ≤ (s.mem.read s.cursor.toNat).toNat),
        beValue (s.mem.readBytes s.cursor.toNat (s.smartLength short long))),
      { s with cursor := reg (s.cursor.toNat + s.smartLength short long) }) := by
  unfold State.takeSmart State.takeBe
  rw [State.peek_of_lt h0]
  by_cases hc : (s.mem.read s.cursor.toNat).toNat < 0x80
  · have h' : s.cursor.toNat + short ≤ s.len.toNat := by simpa [State.smartLength, hc] using h
    simp [hc, State.smartLength, State.take_of_le h', Except.map]
  · have h' : s.cursor.toNat + long ≤ s.len.toNat := by simpa [State.smartLength, hc] using h
    simp [hc, State.smartLength, State.take_of_le h', Except.map, Nat.not_lt.mp hc]

/-- Where they do not, it raises BOUNDS_ERROR. -/
theorem State.takeSmart_of_gt {short long : Nat} {s : State}
    (h : s.len.toNat ≤ s.cursor.toNat ∨ s.len.toNat < s.cursor.toNat + s.smartLength short long) :
    s.takeSmart short long = .error .boundsError := by
  unfold State.takeSmart State.takeBe
  by_cases h0 : s.cursor.toNat < s.len.toNat
  · have h' := h.resolve_left (by omega)
    rw [State.peek_of_lt h0]
    by_cases hc : (s.mem.read s.cursor.toNat).toNat < 0x80
    · have h' : s.len.toNat < s.cursor.toNat + short := by simpa [State.smartLength, hc] using h'
      simp [hc, State.take_of_gt h', Except.map]
    · have h' : s.len.toNat < s.cursor.toNat + long := by simpa [State.smartLength, hc] using h'
      simp [hc, State.take_of_gt h', Except.map]
  · rw [State.peek_of_ge (by omega)]

theorem State.takeSmart_error {short long : Nat} {s : State} {e : Response} (h : s.takeSmart short long = .error e) :
    e = .boundsError := by
  by_cases h0 : s.cursor.toNat < s.len.toNat ∧ s.cursor.toNat + s.smartLength short long ≤ s.len.toNat
  · rw [State.takeSmart_of_le h0.1 h0.2] at h
    cases h
  · rw [State.takeSmart_of_gt (by omega)] at h
    simpa using h.symm

theorem State.usmartRead_ok {s : State} {x : Nat × State} (h : s.usmartRead = .ok x) :
    s.cursor.toNat < s.len.toNat ∧ s.cursor.toNat + s.smartLength 1 2 ≤ s.len.toNat ∧
      x.1 = usmartValue (decide (0x80 ≤ (s.mem.read s.cursor.toNat).toNat),
        beValue (s.mem.readBytes s.cursor.toNat (s.smartLength 1 2))) ∧
      x.2 = { s with cursor := reg (s.cursor.toNat + s.smartLength 1 2) } := by
  obtain ⟨y, hy, rfl⟩ := map_ok h
  obtain ⟨h0, h1, rfl⟩ := State.takeSmart_ok hy
  exact ⟨h0, h1, rfl, rfl⟩

theorem State.usmartRead_error {s : State} {e : Response} (h : s.usmartRead = .error e) : e = .boundsError :=
  State.takeSmart_error (map_error h)

/-! ### The chain -/

theorem smartLength_pos (s : State) : 1 ≤ s.smartLength 1 2 ∧ s.smartLength 1 2 ≤ 2 := by
  unfold State.smartLength
  split <;> omega

/-- One smart read moves CURSOR forward, to LEN at most. -/
theorem State.usmartRead_cursor {s : State} {x : Nat × State} (h : s.usmartRead = .ok x) :
    x.2 = { s with cursor := x.2.cursor } ∧ s.cursor.toNat < x.2.cursor.toNat ∧ x.2.cursor.toNat ≤ s.len.toNat := by
  obtain ⟨_, h1, _, h2⟩ := State.usmartRead_ok h
  have := State.take_cursor h1
  have := smartLength_pos s
  rw [h2]
  refine ⟨rfl, ?_, ?_⟩ <;> simp only <;> omega

/-- Everything the chain loop changes when it answers: CURSOR, forward, to LEN at most. -/
theorem xsmartLoop_ok {rounds : Nat} {acc : DWord} {s : State} {x : DWord × State} (h : xsmartLoop rounds acc s = .ok x) :
    x.2 = { s with cursor := x.2.cursor } ∧ s.cursor.toNat < x.2.cursor.toNat ∧ x.2.cursor.toNat ≤ s.len.toNat := by
  induction rounds generalizing acc s with
  | zero => cases h
  | succ rounds ih =>
    rw [xsmartLoop] at h
    split at h
    · cases h
    · rename_i u t hu
      obtain ⟨ht, h1, h2⟩ := State.usmartRead_cursor hu
      simp only at ht h1 h2
      split at h
      · obtain ⟨g, g1, g2⟩ := ih h
        rw [ht] at g g2
        refine ⟨by rw [g], by omega, g2⟩
      · simp only [Except.ok.injEq] at h
        subst h
        exact ⟨ht, h1, h2⟩

theorem xsmartLoop_error {rounds : Nat} {acc : DWord} {s : State} {e : Response} (h : xsmartLoop rounds acc s = .error e) :
    e = .boundsError := by
  induction rounds generalizing acc s with
  | zero => simpa [xsmartLoop] using h.symm
  | succ rounds ih =>
    rw [xsmartLoop] at h
    split at h
    · rename_i d hd
      have := State.usmartRead_error hd
      simp only [Except.error.injEq] at h
      rw [← h, this]
    · split at h
      · exact ih h
      · cases h

/-- The bound on the rounds is never met: one more round than there are bytes left changes nothing (log entry 14). -/
theorem xsmartLoop_rounds {rounds more : Nat} {acc : DWord} {s : State} (h : s.len.toNat - s.cursor.toNat < rounds) :
    xsmartLoop (rounds + more) acc s = xsmartLoop rounds acc s := by
  induction rounds generalizing acc s with
  | zero => omega
  | succ rounds ih =>
    rw [show rounds + 1 + more = rounds + more + 1 by omega, xsmartLoop, xsmartLoop]
    split
    · rfl
    · rename_i u t hu
      obtain ⟨ht, h1, h2⟩ := State.usmartRead_cursor hu
      simp only at ht h1 h2
      split
      · exact ih (by rw [ht]; simp only; omega)
      · rfl

/-! ### Lengths of the forms -/

@[simp] theorem length_beBytes (n v : Nat) : (beBytes n v).length = n := by simp [beBytes]

@[simp] theorem length_scalarBytes (f : ScalarField) (v : Nat) : (scalarBytes f v).length = widthBytes f.width := by
  simp [scalarBytes]

/-- The chain's length is the one its room is asked for. -/
@[simp] theorem length_xsmartBytes (v : Nat) : (xsmartBytes v).length = xsmartLength v := by
  simp [xsmartBytes, xsmartLength, List.sum_replicate, Nat.mul_comm]

theorem State.requireRange_of_mem {lo hi : Int} {body : Int → State → Except Response State} {s : State}
    (h : lo ≤ s.opA.toInt ∧ s.opA.toInt ≤ hi) : State.requireRange lo hi body s = body s.opA.toInt s := by
  simp [State.requireRange, h]

theorem State.requireRange_of_not_mem {lo hi : Int} {body : Int → State → Except Response State} {s : State}
    (h : ¬(lo ≤ s.opA.toInt ∧ s.opA.toInt ≤ hi)) : State.requireRange lo hi body s = .error .rangeError := by
  simp [State.requireRange, h]

/-! ### Strings and blocks -/

/-- What the scan finds: its bytes are not 0x00, and it ends at a 0x00 or at the end of the data (R311). -/
theorem scanString_spec (m : Memory) (i left : Nat) :
    scanString m i left ≤ left ∧ (∀ k < scanString m i left, m.read (i + k) ≠ 0#8) ∧
      (scanString m i left < left → m.read (i + scanString m i left) = 0#8) := by
  induction left generalizing i with
  | zero => simp [scanString]
  | succ left ih =>
    rw [scanString]
    split
    · rename_i h
      exact ⟨Nat.zero_le _, fun k hk => absurd hk (Nat.not_lt_zero k), fun _ => h⟩
    · rename_i h
      obtain ⟨h1, h2, h3⟩ := ih (i + 1)
      refine ⟨by omega, ?_, ?_⟩
      · intro k hk
        cases k with
        | zero => exact h
        | succ k => rw [show i + (k + 1) = i + 1 + k by omega]; exact h2 k (by omega)
      · intro hlt
        rw [show i + (scanString m (i + 1) left + 1) = i + 1 + scanString m (i + 1) left by omega]
        exact h3 (by omega)

/-- The scan is the only count with that property. -/
theorem scanString_eq {m : Memory} {i left n : Nat} (hn : n ≤ left) (h : ∀ k < n, m.read (i + k) ≠ 0#8)
    (hz : n < left → m.read (i + n) = 0#8) : scanString m i left = n := by
  obtain ⟨h1, h2, h3⟩ := scanString_spec m i left
  rcases Nat.lt_trichotomy (scanString m i left) n with hl | he | hg
  · exact absurd (h3 (by omega)) (h _ hl)
  · exact he
  · exact absurd (hz (by omega)) (h2 n hg)

/-- Everything a string read changes: CURSOR, not backwards and to LEN at most, and DOUT, by bytes CURSOR moves over. -/
theorem State.readString_frame {s : State} (h : s.cursor.toNat ≤ s.len.toNat) :
    s.readString = { s with cursor := s.readString.cursor, dout := s.readString.dout } ∧
      s.cursor.toNat ≤ s.readString.cursor.toNat ∧ s.readString.cursor.toNat ≤ s.len.toNat ∧
      s.readString.dout.length ≤ s.len.toNat := by
  have hs := (scanString_spec s.mem s.cursor.toNat (s.len.toNat - s.cursor.toNat)).1
  have hl := s.len.isLt
  refine ⟨rfl, ?_, ?_, ?_⟩
  · simp only [State.readString]
    split
    · rw [reg_toNat (by omega)]; omega
    · exact h
  · simp only [State.readString]
    split
    · rw [reg_toNat (by omega)]; omega
    · exact le_refl _
  · simp only [State.readString, Memory.length_readBytes]
    omega

theorem State.writeString_of_mem {s : State} (h : 0#8 ∈ s.opDin) : s.writeString = .error .rangeError := by
  simp [State.writeString, h]

theorem State.writeString_of_not_mem {s : State} (h : 0#8 ∉ s.opDin) : s.writeString = s.emit (s.opDin ++ [0#8]) := by
  simp [State.writeString, h]

/-- Everything a block read can do when it answers. -/
theorem State.readBlock_ok {f : List Byte → List Byte} {s t : State} (h : s.readBlock f = .ok t) :
    s.cursor.toNat + s.opA.toNat ≤ s.len.toNat ∧
      t = { s with
        cursor := reg (s.cursor.toNat + s.opA.toNat)
        dout := f (s.mem.readBytes s.cursor.toNat s.opA.toNat) } := by
  obtain ⟨x, hx, rfl⟩ := map_ok h
  obtain ⟨hl, h1, h2⟩ := State.take_ok hx
  exact ⟨hl, by rw [h1, h2]⟩

theorem State.readBlock_error {f : List Byte → List Byte} {s : State} {e : Response} (h : s.readBlock f = .error e) :
    e = .boundsError ∧ s.len.toNat < s.cursor.toNat + s.opA.toNat :=
  State.take_error (map_error h)

/-! ### The pack loop on the storage -/

theorem packLoop_wf {v rounds : Nat} {m : Memory} (h : m.wf) (p off rem : Nat) :
    (packLoop v rounds m p off rem).wf := by
  induction rounds generalizing m p off rem with
  | zero => exact h
  | succ rounds ih =>
    rw [packLoop]
    split
    · exact ih (Memory.wf_write h _ _) _ _ _
    · split <;> exact Memory.wf_write h _ _

theorem packLoop_within {v rounds n : Nat} {m : Memory} (h : m.within n) {p : Nat} (hp : p + rounds ≤ n) (off rem : Nat) :
    (packLoop v rounds m p off rem).within n := by
  induction rounds generalizing m p off rem with
  | zero => exact h
  | succ rounds ih =>
    rw [packLoop]
    split
    · exact ih (Memory.within_write h (by omega) _) (by omega) _ _
    · split <;> exact Memory.within_write h (by omega) _

/-- The loop leaves every byte outside its rounds alone. -/
theorem packLoop_read {v rounds : Nat} {m : Memory} (h : m.wf) {p a : Nat} (ha : a < p ∨ p + rounds ≤ a) (off rem : Nat) :
    (packLoop v rounds m p off rem).read a = m.read a := by
  induction rounds generalizing m p off rem with
  | zero => rfl
  | succ rounds ih =>
    have hne : a ≠ p := by omega
    rw [packLoop]
    split
    · rw [ih (Memory.wf_write h _ _) (by omega), Memory.read_write h, if_neg hne]
    · split <;> rw [Memory.read_write h, if_neg hne]

theorem pack_wf {m : Memory} (h : m.wf) (b n v : Nat) : (pack m b n v).wf := packLoop_wf h _ _ _

theorem pack_within {m : Memory} {hi : Nat} (h : m.within hi) {b n : Nat} (hb : b >>> 3 + touchedBytes b n ≤ hi) (v : Nat) :
    (pack m b n v).within hi := packLoop_within h hb _ _

/-- `pack` leaves every byte the field does not touch alone (R237). -/
theorem pack_read {m : Memory} (h : m.wf) {b n v a : Nat} (ha : a < b >>> 3 ∨ b >>> 3 + touchedBytes b n ≤ a) :
    (pack m b n v).read a = m.read a := packLoop_read h ha _ _

end Sys2Proof.Machine
end

