-- ==== Sys2Proof/Laws/Decode.lean ====
section
/-! SUPPORT. The fields of a command word read back what `commandWord` put there (30_encoding.md R90). -/

namespace Sys2Proof

/-- Which bit of which field each bit of a command word is (R90). -/
theorem getLsbD_commandWord (op : BitVec 8) (wid : BitVec 4) (ord tr : BitVec 3) (nbits : BitVec 6) (k : Nat) :
    (commandWord op wid ord tr nbits).getLsbD k =
      if k < 8 then op.getLsbD k
      else if k < 12 then wid.getLsbD (k - 8)
      else if k < 15 then ord.getLsbD (k - 12)
      else if k < 18 then tr.getLsbD (k - 15)
      else nbits.getLsbD (k - 18) := by
  by_cases hk : k < 32
  · interval_cases k <;> simp [commandWord]
  · rw [BitVec.getLsbD_of_ge _ _ (by omega)]
    simp only [show ¬k < 8 by omega, show ¬k < 12 by omega, show ¬k < 15 by omega, show ¬k < 18 by omega, if_false]
    rw [BitVec.getLsbD_of_ge _ _ (by omega)]

@[simp] theorem opcode_commandWord (op : BitVec 8) (wid : BitVec 4) (ord tr : BitVec 3) (nbits : BitVec 6) :
    opcode (commandWord op wid ord tr nbits) = op := by
  apply BitVec.eq_of_getLsbD_eq
  intro k hk
  simp [opcode, getLsbD_commandWord, hk]

@[simp] theorem widField_commandWord (op : BitVec 8) (wid : BitVec 4) (ord tr : BitVec 3) (nbits : BitVec 6) :
    widField (commandWord op wid ord tr nbits) = wid := by
  apply BitVec.eq_of_getLsbD_eq
  intro k hk
  simp [widField, getLsbD_commandWord, hk, show 8 + k < 12 by omega]

@[simp] theorem ordField_commandWord (op : BitVec 8) (wid : BitVec 4) (ord tr : BitVec 3) (nbits : BitVec 6) :
    ordField (commandWord op wid ord tr nbits) = ord := by
  apply BitVec.eq_of_getLsbD_eq
  intro k hk
  simp [ordField, getLsbD_commandWord, hk, show ¬12 + k < 8 by omega, show 12 + k < 15 by omega]

@[simp] theorem trField_commandWord (op : BitVec 8) (wid : BitVec 4) (ord tr : BitVec 3) (nbits : BitVec 6) :
    trField (commandWord op wid ord tr nbits) = tr := by
  apply BitVec.eq_of_getLsbD_eq
  intro k hk
  simp [trField, getLsbD_commandWord, hk, show ¬15 + k < 8 by omega, show ¬15 + k < 12 by omega, show 15 + k < 18 by omega]

@[simp] theorem nbitsField_commandWord (op : BitVec 8) (wid : BitVec 4) (ord tr : BitVec 3) (nbits : BitVec 6) :
    nbitsField (commandWord op wid ord tr nbits) = nbits := by
  apply BitVec.eq_of_getLsbD_eq
  intro k hk
  simp [nbitsField, getLsbD_commandWord, hk, show ¬18 + k < 8 by omega, show ¬18 + k < 12 by omega,
    show ¬18 + k < 15 by omega]

/-- RSV is 0 in every command word (R96). -/
theorem rsv_commandWord (op : BitVec 8) (wid : BitVec 4) (ord tr : BitVec 3) (nbits : BitVec 6) :
    (commandWord op wid ord tr nbits).extractLsb' 24 8 = 0#8 := by
  apply BitVec.eq_of_getLsbD_eq
  intro k hk
  simp only [BitVec.getLsbD_extractLsb', getLsbD_commandWord, hk, decide_true, Bool.true_and, BitVec.getLsbD_zero,
    show ¬24 + k < 8 by omega, show ¬24 + k < 12 by omega, show ¬24 + k < 15 by omega, show ¬24 + k < 18 by omega, if_false]
  exact BitVec.getLsbD_of_ge _ _ (by omega)

end Sys2Proof
end

