-- ==== Sys2Proof/Laws/PerInstr.lean ====
section
/-! SUPPORT. One lemma per command: its encoding leaves the reserved byte RSV at 0 (30_encoding.md R96). -/

namespace Sys2Proof.Laws

/-- RSV, bits 31:24 of the command's word, is 0 (R96). -/
def ReservedByteZero.Statement (i : Instr) : Prop := (encode i).extractLsb' 24 8 = 0#8

theorem ReservedByteZero.constructReader : ReservedByteZero.Statement .constructReader := rsv_commandWord _ _ _ _ _
theorem ReservedByteZero.constructWriter : ReservedByteZero.Statement .constructWriter := rsv_commandWord _ _ _ _ _
theorem ReservedByteZero.constructWriterCap : ReservedByteZero.Statement .constructWriterCap := rsv_commandWord _ _ _ _ _
theorem ReservedByteZero.finalizeExact : ReservedByteZero.Statement .finalizeExact := rsv_commandWord _ _ _ _ _
theorem ReservedByteZero.finalizeFull : ReservedByteZero.Statement .finalizeFull := rsv_commandWord _ _ _ _ _
theorem ReservedByteZero.mark : ReservedByteZero.Statement .mark := rsv_commandWord _ _ _ _ _
theorem ReservedByteZero.resetCursor : ReservedByteZero.Statement .resetCursor := rsv_commandWord _ _ _ _ _
theorem ReservedByteZero.enterBit : ReservedByteZero.Statement .enterBit := rsv_commandWord _ _ _ _ _
theorem ReservedByteZero.enterByte : ReservedByteZero.Statement .enterByte := rsv_commandWord _ _ _ _ _
theorem ReservedByteZero.put (wid : BitVec 4) (ord : BitVec 3) (tr : BitVec 3) : ReservedByteZero.Statement (.put wid ord tr) := rsv_commandWord _ _ _ _ _
theorem ReservedByteZero.getS (wid : BitVec 4) (ord : BitVec 3) (tr : BitVec 3) : ReservedByteZero.Statement (.getS wid ord tr) := rsv_commandWord _ _ _ _ _
theorem ReservedByteZero.getU (wid : BitVec 4) (ord : BitVec 3) (tr : BitVec 3) : ReservedByteZero.Statement (.getU wid ord tr) := rsv_commandWord _ _ _ _ _
theorem ReservedByteZero.putBits (nbits : BitVec 6) : ReservedByteZero.Statement (.putBits nbits) := rsv_commandWord _ _ _ _ _
theorem ReservedByteZero.getBits (nbits : BitVec 6) : ReservedByteZero.Statement (.getBits nbits) := rsv_commandWord _ _ _ _ _
theorem ReservedByteZero.putUsmart : ReservedByteZero.Statement .putUsmart := rsv_commandWord _ _ _ _ _
theorem ReservedByteZero.getUsmart : ReservedByteZero.Statement .getUsmart := rsv_commandWord _ _ _ _ _
theorem ReservedByteZero.putSsmart : ReservedByteZero.Statement .putSsmart := rsv_commandWord _ _ _ _ _
theorem ReservedByteZero.getSsmart : ReservedByteZero.Statement .getSsmart := rsv_commandWord _ _ _ _ _
theorem ReservedByteZero.putXsmart : ReservedByteZero.Statement .putXsmart := rsv_commandWord _ _ _ _ _
theorem ReservedByteZero.getXsmart : ReservedByteZero.Statement .getXsmart := rsv_commandWord _ _ _ _ _
theorem ReservedByteZero.putBsmart : ReservedByteZero.Statement .putBsmart := rsv_commandWord _ _ _ _ _
theorem ReservedByteZero.getBsmart : ReservedByteZero.Statement .getBsmart := rsv_commandWord _ _ _ _ _
theorem ReservedByteZero.putStr : ReservedByteZero.Statement .putStr := rsv_commandWord _ _ _ _ _
theorem ReservedByteZero.getStr : ReservedByteZero.Statement .getStr := rsv_commandWord _ _ _ _ _
theorem ReservedByteZero.putFstr : ReservedByteZero.Statement .putFstr := rsv_commandWord _ _ _ _ _
theorem ReservedByteZero.getFstr : ReservedByteZero.Statement .getFstr := rsv_commandWord _ _ _ _ _
theorem ReservedByteZero.putBlk : ReservedByteZero.Statement .putBlk := rsv_commandWord _ _ _ _ _
theorem ReservedByteZero.getBlk : ReservedByteZero.Statement .getBlk := rsv_commandWord _ _ _ _ _
theorem ReservedByteZero.putBlkRev : ReservedByteZero.Statement .putBlkRev := rsv_commandWord _ _ _ _ _
theorem ReservedByteZero.getBlkRev : ReservedByteZero.Statement .getBlkRev := rsv_commandWord _ _ _ _ _
theorem ReservedByteZero.putBlkT (tr : BitVec 3) : ReservedByteZero.Statement (.putBlkT tr) := rsv_commandWord _ _ _ _ _
theorem ReservedByteZero.getBlkT (tr : BitVec 3) : ReservedByteZero.Statement (.getBlkT tr) := rsv_commandWord _ _ _ _ _

end Sys2Proof.Laws
end

