-- ==== Sys2Proof/Tests/Slice0.lean ====
section
/-! SUPPORT. The model's own tests, each a named theorem: the smoke test of `WellFormed`, one word of every command written out
from 30_encoding.md R90 and R97, one-step runs of the vectors of 95_test_vectors.md (E<n>, V<n>), and for every obligation with
hypotheses a state and operands that meet them, clause by clause. -/

namespace Sys2Proof.Tests

open Sys2Proof Sys2Proof.Machine Sys2Proof.Claims

/-! ### Small states -/

/-- Parameters with little room, so that the bounds are near: MAX_CAPACITY 16, DEFAULT_CAPACITY 4, `GROW(0, 2) = 6`. -/
def small : Config.Params := { maxCapacity := 16, defaultCapacity := 4, growth := [⟨0, 2, 6⟩] }

/-- Power-on with the small parameters. -/
def off : State := State.powerOn small 0 []

/-- `W(c)`: just after CONSTRUCT_WRITER_CAP c. -/
def writer (c : Nat) : State := { off with kind := .writer, cap := BitVec.ofNat 64 c }

/-- `Rd[bytes]`: just after CONSTRUCT_READER. -/
def reader (bytes : List Byte) : State :=
  { off with kind := .reader, len := BitVec.ofNat 64 bytes.length, cap := BitVec.ofNat 64 bytes.length, mem := Memory.ofBytes bytes }

/-- The same unit in BIT mode at bit index b. -/
def inBit (b : Nat) (s : State) : State := { s with mode := .bit, bitIdx := BitVec.ofNat 64 b }

/-- The unit with its cursor at c. -/
def at' (c : Nat) (s : State) : State := { s with cursor := BitVec.ofNat 64 c }

/-- The unit with operand A. -/
def withA (a : Int) (s : State) : State := { s with opA := BitVec.ofInt 64 a }

/-- The unit with operand DIN. -/
def withDin (d : List Byte) (s : State) : State := { s with opDin := d }

/-- The unit with a latched BOUNDS_ERROR. -/
def broken (s : State) : State := { s with fault := true, err := .boundsError, resp := .boundsError }

/-- The unit with one command issued. -/
def issue (cmd : Word) (a : Int) (din : List Byte) (s : State) : State :=
  { s with pending := [⟨cmd, BitVec.ofInt 64 a, din⟩] }

/-- Whether the outcome is a next state that passes the test. -/
def gives (o : Host.Outcome State Fault Refusal) (p : State → Bool) : Bool :=
  match o with
  | .next t => p t
  | _ => false

/-- One step: the writer's storage from index i is `bytes` and CURSOR is past them. -/
def writes (i : Nat) (bytes : List Byte) (t : State) : Bool :=
  decide (t.mem.readBytes i bytes.length = bytes ∧ t.cursor.toNat = i + bytes.length ∧ t.resp = .ok)

/-- One step: R is the signed number v and CURSOR is k. -/
def reads (v : Int) (k : Nat) (t : State) : Bool := decide (t.r.toInt = v ∧ t.cursor.toNat = k ∧ t.resp = .ok)

/-- One step: DOUT is d and CURSOR is k. -/
def readsList (d : List Byte) (k : Nat) (t : State) : Bool := decide (t.dout = d ∧ t.cursor.toNat = k ∧ t.resp = .ok)

/-- One step: the error e is latched. -/
def latches (e : Response) (t : State) : Bool := decide (t.resp = e ∧ t.err = e ∧ t.fault = true)

/-! ### WellFormed refuses each ill-formed term -/

/-- R92: WID 0. -/
theorem test_ill_formed_wid_zero : Instr.wellFormed (.put 0 0 0) = false := by decide

/-- R92: WID 5. -/
theorem test_ill_formed_wid_five : Instr.wellFormed (.getS 5 0 0) = false := by decide

/-- R93: ORD 4. -/
theorem test_ill_formed_ord_four : Instr.wellFormed (.put 4 4 0) = false := by decide

/-- R94: TR 4. -/
theorem test_ill_formed_tr_four : Instr.wellFormed (.put 4 0 4) = false := by decide

/-- R99 1. -/
theorem test_ill_formed_middle_two_bytes : Instr.wellFormed (.put 2 2 0) = false := by decide

/-- R99 2. -/
theorem test_ill_formed_inverse_middle_transform : Instr.wellFormed (.getS 4 3 1) = false := by decide

/-- R99 3. -/
theorem test_ill_formed_unsigned_eight : Instr.wellFormed (.getU 8 0 0) = false := by decide

/-- R95: NBITS 0. -/
theorem test_ill_formed_put_bits_zero : Instr.wellFormed (.putBits 0) = false := by decide

/-- R95: NBITS 33. -/
theorem test_ill_formed_get_bits_33 : Instr.wellFormed (.getBits 33) = false := by decide

/-- R94: TR 4. -/
theorem test_ill_formed_put_blk_t_four : Instr.wellFormed (.putBlkT 4) = false := by decide

/-- R94: TR 7. -/
theorem test_ill_formed_get_blk_t_seven : Instr.wellFormed (.getBlkT 7) = false := by decide

/-- R99, its last paragraph: an 8-byte PUT with a transform is legal. -/
theorem test_well_formed_put_eight : Instr.wellFormed (.put 8 1 1) = true := by decide

/-! ### Decoding: the words by bits, RSV_NBITS_TR_ORD_WID_OP (R90, R97) -/

theorem test_decode_constructReader : decode 0b00000000_000000_000_000_0000_00000001#32 = .ok .constructReader := by decide
theorem test_decode_constructWriter : decode 0b00000000_000000_000_000_0000_00000010#32 = .ok .constructWriter := by decide
theorem test_decode_constructWriterCap : decode 0b00000000_000000_000_000_0000_00000011#32 = .ok .constructWriterCap := by decide
theorem test_decode_finalizeExact : decode 0b00000000_000000_000_000_0000_00000100#32 = .ok .finalizeExact := by decide
theorem test_decode_finalizeFull : decode 0b00000000_000000_000_000_0000_00000101#32 = .ok .finalizeFull := by decide
theorem test_decode_mark : decode 0b00000000_000000_000_000_0000_00000110#32 = .ok .mark := by decide
theorem test_decode_resetCursor : decode 0b00000000_000000_000_000_0000_00000111#32 = .ok .resetCursor := by decide
theorem test_decode_enterBit : decode 0b00000000_000000_000_000_0000_00010000#32 = .ok .enterBit := by decide
theorem test_decode_enterByte : decode 0b00000000_000000_000_000_0000_00010001#32 = .ok .enterByte := by decide
theorem test_decode_put : decode 0b00000000_000000_001_010_0100_00100000#32 = .ok (.put 4 2 1) := by decide
theorem test_decode_getS : decode 0b00000000_000000_001_001_1000_00100001#32 = .ok (.getS 8 1 1) := by decide
theorem test_decode_getU : decode 0b00000000_000000_011_011_0010_00100010#32 = .ok (.getU 2 3 3) := by decide
theorem test_decode_putBits : decode 0b00000000_001101_000_000_0000_00110000#32 = .ok (.putBits 13) := by decide
theorem test_decode_getBits : decode 0b00000000_100000_000_000_0000_00110001#32 = .ok (.getBits 32) := by decide
theorem test_decode_putUsmart : decode 0b00000000_000000_000_000_0000_01000000#32 = .ok .putUsmart := by decide
theorem test_decode_getUsmart : decode 0b00000000_000000_000_000_0000_01000001#32 = .ok .getUsmart := by decide
theorem test_decode_putSsmart : decode 0b00000000_000000_000_000_0000_01000010#32 = .ok .putSsmart := by decide
theorem test_decode_getSsmart : decode 0b00000000_000000_000_000_0000_01000011#32 = .ok .getSsmart := by decide
theorem test_decode_putXsmart : decode 0b00000000_000000_000_000_0000_01000100#32 = .ok .putXsmart := by decide
theorem test_decode_getXsmart : decode 0b00000000_000000_000_000_0000_01000101#32 = .ok .getXsmart := by decide
theorem test_decode_putBsmart : decode 0b00000000_000000_000_000_0000_01000110#32 = .ok .putBsmart := by decide
theorem test_decode_getBsmart : decode 0b00000000_000000_000_000_0000_01000111#32 = .ok .getBsmart := by decide
theorem test_decode_putStr : decode 0b00000000_000000_000_000_0000_01010000#32 = .ok .putStr := by decide
theorem test_decode_getStr : decode 0b00000000_000000_000_000_0000_01010001#32 = .ok .getStr := by decide
theorem test_decode_putFstr : decode 0b00000000_000000_000_000_0000_01010010#32 = .ok .putFstr := by decide
theorem test_decode_getFstr : decode 0b00000000_000000_000_000_0000_01010011#32 = .ok .getFstr := by decide
theorem test_decode_putBlk : decode 0b00000000_000000_000_000_0000_01010100#32 = .ok .putBlk := by decide
theorem test_decode_getBlk : decode 0b00000000_000000_000_000_0000_01010101#32 = .ok .getBlk := by decide
theorem test_decode_putBlkRev : decode 0b00000000_000000_000_000_0000_01010110#32 = .ok .putBlkRev := by decide
theorem test_decode_getBlkRev : decode 0b00000000_000000_000_000_0000_01010111#32 = .ok .getBlkRev := by decide
theorem test_decode_putBlkT : decode 0b00000000_000000_011_000_0000_01011000#32 = .ok (.putBlkT 3) := by decide
theorem test_decode_getBlkT : decode 0b00000000_000000_001_000_0000_01011001#32 = .ok (.getBlkT 1) := by decide

theorem test_decode_unassigned_00 : decode 0x00000000#32 = .error (.unassignedOp 0x00) := by decide
theorem test_decode_unassigned_08 : decode 0x00000008#32 = .error (.unassignedOp 0x08) := by decide
theorem test_decode_unassigned_ff : decode 0xFFFFFFFF#32 = .error (.unassignedOp 0xFF) := by decide
/-- V63: bit 24, the lowest of RSV. -/
theorem test_decode_reserved_rsv : decode 0x01000120#32 = .error (.reservedBits 0x20) := by decide
/-- V87: PUT_BITS with WID bits. -/
theorem test_decode_reserved_wid : decode 0x000C0130#32 = .error (.reservedBits 0x30) := by decide
/-- V130: PUT_BLK_T with WID bits. -/
theorem test_decode_reserved_block : decode 0x00000158#32 = .error (.reservedBits 0x58) := by decide
/-- R106: the encoder writes MATCH and the fields. -/
theorem test_encode_put : encode (.put 4 2 1) = 0x0000A420#32 := by decide
theorem test_decode_table_word : decodeTableWord 32 0x9220 = some (.put 2 1 1) := by decide

/-! ### Reset and the command port -/

/-- R39: KIND NONE, MODE BYTE, FAULT 0, RESP OK. -/
theorem test_reset : State.reset.kind = .none ∧ State.reset.mode = .byte ∧ State.reset.fault = false ∧ State.reset.resp = .ok := by
  decide
/-- V140: the first command of a unit that is no CONSTRUCT is illegal. -/
theorem test_reset_get : gives (step (State.reset.withFetchWord 32 0x121)) (latches .illegalCommand) = true := by decide
/-- V2. -/
theorem test_reset_construct_writer : gives (step (State.reset.withFetchWord 32 0x2)) (fun t => decide (t.kind = .writer)) = true := by
  decide
/-- R394: a DIN longer than MAX_CAPACITY is refused. -/
theorem test_din_too_long : step (issue 0x1#32 0 (List.replicate 17 0#8) off) = .refused .dinTooLong := rfl
/-- V141. -/
theorem test_unassigned_op : gives (step (issue 0x8#32 0 [] (writer 4))) (latches .illegalCommand) = true := by decide
/-- V146: a malformed CONSTRUCT on a faulted unit leaves the power-on state under its own error. -/
theorem test_malformed_construct :
    gives (step (issue 0x103#32 0 [] (broken (reader [1])))) (fun t => latches .illegalCommand t && decide (t.kind = .none ∧ t.len = 0)) = true := by
  decide

/-! ### One step of each command -/

/-- V1. -/
theorem test_construct_reader : gives (step (issue 0x1#32 0 [0x61#8, 0x62, 0x63, 0x00] (off))) (fun t => decide (t.kind = .reader ∧ t.len = 4 ∧ t.cap = 4 ∧ t.mem.readBytes 0 4 = [0x61, 0x62, 0x63, 0x00])) = true := by decide
/-- V145. -/
theorem test_construct_reader_clears_the_latch : gives (step (issue 0x1#32 0 [0x01#8] (broken (writer 4)))) (fun t => decide (t.fault = false ∧ t.err = .ok ∧ t.resp = .ok ∧ t.kind = .reader)) = true := by decide
/-- V2. -/
theorem test_construct_writer : gives (step (issue 0x2#32 0 [] (reader [7]))) (fun t => decide (t.kind = .writer ∧ t.cap = 4 ∧ t.len = 0 ∧ t.mem = [])) = true := by decide
/-- V3. -/
theorem test_construct_writer_cap : gives (step (issue 0x3#32 16 [] (off))) (fun t => decide (t.kind = .writer ∧ t.cap = 16)) = true := by decide
/-- V4. -/
theorem test_construct_writer_cap_past : gives (step (issue 0x3#32 17 [] (writer 4))) (fun t => latches .rangeError t && decide (t.kind = .none ∧ t.cap = 0)) = true := by decide
/-- V5. -/
theorem test_finalize_exact : gives (step (issue 0x4#32 0 [] ({ at' 2 (writer 8) with mem := [(0, 0x12), (1, 0x34), (2, 0x99)] }))) (fun t => decide (t.kind = .reader ∧ t.len = 2 ∧ t.cap = 2 ∧ t.cursor = 0 ∧ t.mem = [(0, 0x12), (1, 0x34)])) = true := by decide
/-- V8. -/
theorem test_finalize_exact_bit_mode : gives (step (issue 0x4#32 0 [] (inBit 0 (writer 4)))) (latches .modeError) = true := by decide
/-- V6. -/
theorem test_finalize_full : gives (step (issue 0x5#32 0 [] ({ at' 1 (writer 8) with mem := [(0, 0x41)] }))) (fun t => decide (t.kind = .reader ∧ t.len = 8 ∧ t.mem.readBytes 0 8 = [0x41, 0, 0, 0, 0, 0, 0, 0])) = true := by decide
/-- R134: the KIND column of R97. -/
theorem test_finalize_full_on_reader : gives (step (issue 0x5#32 0 [] (reader [1]))) (latches .illegalCommand) = true := by decide
/-- V10. -/
theorem test_mark : gives (step (issue 0x6#32 0 [] (at' 5 (reader [0, 1, 2, 3, 4, 5, 6])))) (fun t => decide (t.mark = 5 ∧ t.cursor = 5)) = true := by decide
/-- V13. -/
theorem test_mark_none : gives (step (issue 0x6#32 0 [] (off))) (latches .illegalCommand) = true := by decide
/-- V11. -/
theorem test_reset_cursor : gives (step (issue 0x7#32 0 [] ({ at' 7 (reader [0, 1, 2, 3, 4, 5, 6]) with mark := 5 }))) (fun t => decide (t.mark = 5 ∧ t.cursor = 5)) = true := by decide
/-- V12. -/
theorem test_reset_cursor_keeps_bytes : gives (step (issue 0x7#32 0 [] ({ at' 1 (writer 1) with mem := [(0, 0xFF)] }))) (fun t => decide (t.cursor = 0 ∧ t.mem.read 0 = 0xFF)) = true := by decide
/-- V20. -/
theorem test_enter_bit : gives (step (issue 0x10#32 0 [] (at' 3 (reader [0xAB, 0xCD, 0xEF])))) (fun t => decide (t.bitIdx = 24 ∧ t.mode = .bit ∧ t.cursor = 3)) = true := by decide
/-- V24. -/
theorem test_enter_bit_twice : gives (step (issue 0x10#32 0 [] (inBit 0 (reader [0xAB])))) (latches .modeError) = true := by decide
/-- V21. -/
theorem test_enter_byte : gives (step (issue 0x11#32 0 [] (inBit 3 (reader [0xAB])))) (fun t => decide (t.bitIdx = 3 ∧ t.mode = .byte ∧ t.cursor = 1)) = true := by decide
/-- V23. -/
theorem test_enter_byte_twice : gives (step (issue 0x11#32 0 [] (reader [0xAB]))) (latches .modeError) = true := by decide
/-- E1. -/
theorem test_put_middle : gives (step (issue 0x2420#32 (0x12345678) [] (writer 16))) (writes 0 [0x56#8, 0x78, 0x12, 0x34]) = true := by decide
/-- V39. -/
theorem test_put_little_add : gives (step (issue 0x9820#32 (0x102030405060708) [] (writer 16))) (writes 0 [0x88#8, 0x07, 0x06, 0x05, 0x04, 0x03, 0x02, 0x01]) = true := by decide
/-- V48. -/
theorem test_get_s_little : gives (step (issue 0x1321#32 0 [] (reader [1, 2, 3]))) (reads 197121 3) = true := by decide
/-- V49. -/
theorem test_get_s_add : gives (step (issue 0x8121#32 0 [] (reader [0]))) (reads (-128) 1) = true := by decide
/-- V47. -/
theorem test_get_u_three : gives (step (issue 0x322#32 0 [] (reader [0xFF, 0xFF, 0xFE]))) (reads 16777214 3) = true := by decide
/-- V57. -/
theorem test_get_u_eight : gives (step (issue 0x822#32 0 [] (reader [0]))) (latches .configurationError) = true := by decide
/-- V75: bits outside the field keep their values. -/
theorem test_put_bits : gives (step (issue 0xC0030#32 0 [] ({ inBit 0 (writer 1) with mem := [(0, 0xFF)] }))) (fun t => decide (t.mem = [(0, 0x1F)] ∧ t.bitIdx = 3)) = true := by decide
/-- V74, and GROW. -/
theorem test_put_bits_five_bytes : gives (step (issue 0x800030#32 (0xdeadbeef) [] (inBit 4 (writer 0)))) (fun t => decide (t.mem.readBytes 0 5 = [0x0D, 0xEA, 0xDB, 0xEE, 0xF0] ∧ t.bitIdx = 36 ∧ t.cap = 5)) = true := by decide
/-- V82. -/
theorem test_get_bits : gives (step (issue 0x800031#32 0 [] (inBit 4 (reader [0x0D, 0xEA, 0xDB, 0xEE, 0xF0])))) (fun t => decide (t.r = 0xDEADBEEF ∧ t.bitIdx = 36 ∧ t.resp = .ok)) = true := by decide
/-- V80. -/
theorem test_get_bits_past : gives (step (issue 0x240031#32 0 [] (inBit 0 (reader [0xAB])))) (fun t => latches .boundsError t && decide (t.bitIdx = 0)) = true := by decide
/-- V90, and GROW. -/
theorem test_put_usmart : gives (step (issue 0x40#32 300 [] (writer 0))) (fun t => writes 0 [0x81, 0x2C] t && decide (t.cap = 6)) = true := by decide
/-- V91. -/
theorem test_put_usmart_past : gives (step (issue 0x40#32 (-1) [] (writer 16))) (latches .rangeError) = true := by decide
/-- E5. -/
theorem test_get_usmart_one : gives (step (issue 0x41#32 0 [] (reader [0x7F]))) (reads 127 1) = true := by decide
/-- V93. -/
theorem test_get_usmart_two : gives (step (issue 0x41#32 0 [] (reader [0x80, 0x05]))) (reads 5 2) = true := by decide
/-- E6. -/
theorem test_put_ssmart_one : gives (step (issue 0x42#32 (-64) [] (writer 16))) (writes 0 [0x00#8]) = true := by decide
/-- V95. -/
theorem test_put_ssmart_two : gives (step (issue 0x42#32 (-65) [] (writer 16))) (writes 0 [0xBF#8, 0xBF]) = true := by decide
/-- E6. -/
theorem test_get_ssmart_one : gives (step (issue 0x43#32 0 [] (reader [0x7F]))) (reads 63 1) = true := by decide
/-- V97. -/
theorem test_get_ssmart_two : gives (step (issue 0x43#32 0 [] (reader [0xBF, 0xBF]))) (reads (-65) 2) = true := by decide
/-- V99. -/
theorem test_put_xsmart_sentinel : gives (step (issue 0x44#32 32767 [] (writer 16))) (writes 0 [0xFF#8, 0xFF, 0x00]) = true := by decide
/-- V99. -/
theorem test_put_xsmart : gives (step (issue 0x44#32 40000 [] (writer 16))) (writes 0 [0xFF#8, 0xFF, 0x9C, 0x41]) = true := by decide
/-- E9, corrected by 90_conflicts.md C1. -/
theorem test_get_xsmart : gives (step (issue 0x45#32 0 [] (reader [0xFF, 0xFF, 0xFF, 0xFF, 0x00]))) (reads 65534 5) = true := by decide
/-- V102. -/
theorem test_get_xsmart_short : gives (step (issue 0x45#32 0 [] (reader [0xFF, 0xFF]))) (fun t => latches .boundsError t && decide (t.cursor = 0)) = true := by decide
/-- E7. -/
theorem test_put_bsmart_two : gives (step (issue 0x46#32 300 [] (writer 16))) (writes 0 [0x01#8, 0x2C]) = true := by decide
/-- E8, corrected by 90_conflicts.md C2. -/
theorem test_put_bsmart_four : gives (step (issue 0x46#32 70000 [] (writer 16))) (writes 0 [0x80#8, 0x01, 0x11, 0x70]) = true := by decide
/-- V105. -/
theorem test_get_bsmart_two : gives (step (issue 0x47#32 0 [] (reader [0x7F, 0xFF]))) (reads 32767 2) = true := by decide
/-- V105. -/
theorem test_get_bsmart_four : gives (step (issue 0x47#32 0 [] (reader [0xFF, 0xFF, 0xFF, 0xFF]))) (reads 2147483647 4) = true := by decide
/-- E11. -/
theorem test_put_str : gives (step (issue 0x50#32 0 [0x61#8, 0x62, 0x63] (writer 16))) (writes 0 [0x61#8, 0x62, 0x63, 0x00]) = true := by decide
/-- V112. -/
theorem test_put_str_zero : gives (step (issue 0x50#32 0 [0x61#8, 0x00, 0x62] (writer 16))) (latches .rangeError) = true := by decide
/-- V110. -/
theorem test_get_str_end : gives (step (issue 0x51#32 0 [] (reader [0x61, 0x62]))) (readsList [0x61, 0x62] 2) = true := by decide
/-- V111. -/
theorem test_get_str_terminator : gives (step (issue 0x51#32 0 [] (reader [0x00, 0x41]))) (readsList [] 1) = true := by decide
/-- V117. -/
theorem test_put_fstr : gives (step (issue 0x52#32 0 [0x61#8, 0x62] (writer 16))) (writes 0 [0x61#8, 0x62, 0x00]) = true := by decide
/-- V117. -/
theorem test_put_fstr_empty : gives (step (issue 0x52#32 0 [] (at' 1 (writer 16)))) (writes 1 [0x00#8]) = true := by decide
/-- V113. -/
theorem test_get_fstr_flag : gives (step (issue 0x53#32 0 [] (reader [0x00, 0x41, 0x00]))) (readsList [] 1) = true := by decide
/-- V114. -/
theorem test_get_fstr : gives (step (issue 0x53#32 0 [] (reader [0x61, 0x62, 0x00]))) (readsList [0x61, 0x62] 3) = true := by decide
/-- V120. -/
theorem test_put_blk : gives (step (issue 0x54#32 0 [0x01#8, 0x00, 0x03] (writer 16))) (writes 0 [0x01#8, 0x00, 0x03]) = true := by decide
/-- R15, D18: growth past MAX_CAPACITY. -/
theorem test_put_blk_past : gives (step (issue 0x54#32 0 [0x01#8, 0x02] (at' 15 (writer 16)))) (latches .boundsError) = true := by decide
/-- V118. -/
theorem test_get_blk : gives (step (issue 0x55#32 2 [] (reader [1, 2, 3]))) (readsList [1, 2] 2) = true := by decide
/-- V118. -/
theorem test_get_blk_past : gives (step (issue 0x55#32 4 [] (reader [1, 2, 3]))) (latches .boundsError) = true := by decide
/-- V121. -/
theorem test_put_blk_rev : gives (step (issue 0x56#32 0 [0x01#8, 0x02, 0x03] (writer 16))) (writes 0 [0x03#8, 0x02, 0x01]) = true := by decide
/-- V122. -/
theorem test_get_blk_rev : gives (step (issue 0x57#32 3 [] (reader [3, 2, 1]))) (readsList [1, 2, 3] 3) = true := by decide
/-- V125. -/
theorem test_put_blk_t_sub : gives (step (issue 0x10058#32 0 [0x00#8, 0x01] (writer 16))) (writes 0 [0x80#8, 0x7F]) = true := by decide
/-- V129. -/
theorem test_put_blk_t_four : gives (step (issue 0x20058#32 0 [0x01#8] (writer 16))) (latches .configurationError) = true := by decide
/-- V127. -/
theorem test_get_blk_t_add : gives (step (issue 0x8059#32 3 [] (reader [0x80, 0xFF, 0x00]))) (readsList [0x00, 0x7F, 0x80] 3) = true := by decide
/-- V128. -/
theorem test_get_blk_t_sub : gives (step (issue 0x10059#32 2 [] (reader [0x80, 0x7F]))) (readsList [0x00, 0x01] 2) = true := by decide

/-! ### Witnesses: for each obligation with hypotheses, and each of its clauses, a state and operands that meet them -/

theorem witness_EncodeOfDecodeGivesTheWord : decode 0x0000A420#32 = .ok (.put 4 2 1) := by decide

/-- The three cases: an OP that is not listed, a word of the row, a word that fails the row's mask. -/
theorem witness_DecodeFollowsTheOpcodeMasks :
    opMask (opOf 0x5A#32) = none ∧ (opMask (opOf 0x20131#32) = some 0xFF03FFFF#32 ∧ 0x20131#32 &&& 0xFF03FFFF#32 ≠ 0x31#32) ∧
    (opMask (opOf 0xFC0031#32) = some 0xFF03FFFF#32 ∧ 0xFC0031#32 &&& 0xFF03FFFF#32 = 0x31#32) := by decide

/-- The legal widths at their ends. -/
theorem witness_FieldCodesStandForTheirParameters : legalWid 1 ∧ legalWid 8 := by decide

/-- With a DIN of exactly MAX_CAPACITY bytes. -/
theorem witness_StepRunsTheDecodedCommand :
    (issue 0x9220#32 0x1234 (List.replicate 16 0xFF#8) (writer 4)).pending = [⟨0x9220#32, 0x1234#64, List.replicate 16 0xFF#8⟩] ∧
    (List.replicate 16 0xFF#8).length ≤ (writer 4).params.maxCapacity ∧ decode 0x9220#32 = .ok (.put 2 1 1) := by decide

theorem witness_IdleUnitKeepsItsState : (broken (reader [1])).pending = [] := rfl

/-- One byte too many, and exactly enough. -/
theorem witness_OnlyAnOverlongDinIsRefused :
    (issue 0x1#32 0 (List.replicate 17 0#8) off).pending = [⟨0x1#32, 0#64, List.replicate 17 0#8⟩] ∧
    off.params.maxCapacity < (List.replicate 17 0#8).length ∧ (List.replicate 16 0#8).length ≤ off.params.maxCapacity := by decide

/-- A CONSTRUCT's OP with WID bits; an OP that is not listed, with the latch clear and set; with a DIN of MAX_CAPACITY bytes. -/
theorem witness_UndecodableWordIsIllegal :
    (issue 0x103#32 0 (List.replicate 16 0#8) (broken (writer 4))).pending = [⟨0x103#32, 0#64, List.replicate 16 0#8⟩] ∧
    (List.replicate 16 0#8).length ≤ (writer 4).params.maxCapacity ∧
    spellsNoCommand 0x103#32 ∧ opOf 0x103#32 ∈ [1, 2, 3] ∧
    spellsNoCommand 0xFF#32 ∧ opOf 0xFF#32 ∉ [1, 2, 3] ∧ (writer 4).fault = false ∧ (broken (writer 4)).fault = true := by
  refine ⟨by decide, by decide, ?_, by decide, trivial, by decide, rfl, rfl⟩
  show 0x103#32 &&& 0xFFFFFFFF#32 ≠ _
  decide

/-- A clause each: faulted; the wrong KIND; illegal codes; the wrong MODE. -/
theorem witness_ChecksFollowTheirOrder :
    isConstruct (.getU 8 0 0) = false ∧ (broken (reader [1])).fault = true ∧
    ((writer 4).fault = false ∧ (writer 4).kind ∉ kindsOf (.getU 8 0 0)) ∧
    ((inBit 0 (reader [1])).kind ∈ kindsOf (.getU 8 0 0) ∧ Instr.wellFormed (.getU 8 0 0) = false) ∧
    ((inBit 0 (reader [1])).kind ∈ kindsOf (.getU 4 0 0) ∧ Instr.wellFormed (.getU 4 0 0) = true ∧
      (inBit 0 (reader [1])).mode ∉ modesOf (.getU 4 0 0)) := by decide

/-- A command and a CONSTRUCT that fail. -/
theorem witness_FailingCommandChangesOnlyTheStatus :
    (∃ t, exec .getUsmart (reader [0x80]) = .next t ∧ t.resp ≠ .ok) ∧ isConstruct .getUsmart = false ∧
    (∃ t, exec .constructWriterCap (withA 17 (reader [1])) = .next t ∧ t.resp ≠ .ok) ∧ isConstruct .constructWriterCap = true :=
  ⟨⟨_, rfl, by decide⟩, rfl, ⟨_, rfl, by decide⟩, rfl⟩

theorem witness_FaultedUnitTakesOnlyConstructs :
    (issue 0x9220#32 0 (List.replicate 16 0#8) (broken (writer 4))).fault = true ∧
    (issue 0x9220#32 0 (List.replicate 16 0#8) (broken (writer 4))).pending = [⟨0x9220#32, 0#64, List.replicate 16 0#8⟩] ∧
    (List.replicate 16 0#8).length ≤ (writer 4).params.maxCapacity ∧ opOf 0x9220#32 ∉ [1, 2, 3] ∧
    isConstruct .constructReader = true := by decide

/-- At the least and the greatest MAX_CAPACITY, with a DOUT as long as it may be. -/
theorem witness_PowerOnSatisfiesTheInvariant :
    (Config.Params.mk 1 0 []).legal ∧ [0xAA#8].length ≤ 1 ∧ (Config.Params.mk (2 ^ 48) (2 ^ 48) []).legal ∧ ¬(Config.Params.mk 0 0 []).legal ∧
    ¬(Config.Params.mk (2 ^ 48 + 1) 0 []).legal := by decide

/-- A writer in BIT mode at its last bit, about to grow; and a step from there. -/
theorem witness_StepKeepsTheInvariant :
    State.Inv (issue 0x40030#32 1 [] { inBit 8 (at' 1 (writer 1)) with mem := [(0, 0xFF)] }) ∧
    ∃ t, step (issue 0x40030#32 1 [] { inBit 8 (at' 1 (writer 1)) with mem := [(0, 0xFF)] }) = .next t ∧ t.resp = .ok ∧ t.cap = 2 :=
  ⟨⟨by decide, by decide, ⟨nofun, fun _ => by decide, nofun⟩, by decide, by decide⟩, _, rfl, by decide⟩

theorem witness_ReaderDataIsFixedAndCapacityOnlyGrows :
    (reader [0x61, 0x00]).params.legal ∧ (∃ t, exec .getStr (reader [0x61, 0x00]) = .next t ∧ t.resp = .ok) ∧
    isConstruct .getStr = false ∧ isFinalize .getStr = false ∧ (reader [0x61, 0x00]).kind = .reader :=
  ⟨by decide, ⟨_, rfl, by decide⟩, rfl, rfl, rfl⟩

/-- GET_USMART, completing, failing and under the latch, meets every condition but three: it writes R, moves CURSOR and is no
CONSTRUCT. PUT_BLK meets the first of them, MARK the second, CONSTRUCT_WRITER_CAP, completing and failing, the third. -/
theorem witness_RegistersAreWrittenOnlyByTheirCommands :
    (∃ t, exec .getUsmart (reader [5]) = .next t ∧ t.resp = .ok) ∧
    (∃ t, exec .getUsmart (reader []) = .next t ∧ (reader []).fault = false ∧ t.resp ≠ .ok) ∧
    (∃ t, exec .getUsmart (broken (reader [5])) = .next t ∧ (broken (reader [5])).fault = true) ∧
    (writesDout .getUsmart = false ∧ isConstruct .getUsmart = false ∧ isFinalize .getUsmart = false ∧
      writesMem .getUsmart = false ∧ Instr.getUsmart ≠ .mark ∧ Instr.getUsmart ≠ .enterBit ∧ Instr.getUsmart ≠ .enterByte ∧
      ∀ n, Instr.getUsmart ≠ .putBits n ∧ Instr.getUsmart ≠ .getBits n) ∧
    ((∃ t, exec .putBlk (withDin [1, 2] (writer 2)) = .next t ∧ t.resp = .ok) ∧ writesR .putBlk = false) ∧
    ((∃ t, exec .mark (at' 1 (reader [5])) = .next t ∧ t.resp = .ok) ∧ keepsCursor .mark = true) ∧
    ((∃ t, exec .constructWriterCap (withA 16 off) = .next t ∧ t.resp = .ok) ∧
      (∃ t, exec .constructWriterCap (withA 17 off) = .next t ∧ t.resp ≠ .ok) ∧ isConstruct .constructWriterCap = true) :=
  ⟨⟨_, rfl, by decide⟩, ⟨_, rfl, rfl, by decide⟩, ⟨_, rfl, rfl⟩,
    ⟨rfl, rfl, rfl, rfl, nofun, nofun, nofun, fun _ => ⟨nofun, nofun⟩⟩, ⟨⟨_, rfl, by decide⟩, rfl⟩, ⟨⟨_, rfl, by decide⟩, rfl⟩,
    ⟨_, rfl, by decide⟩, ⟨_, rfl, by decide⟩, rfl⟩

/-- A field read in BIT mode; MARK on a reader; FINALIZE_EXACT on a writer. -/
theorem witness_BitModeHoldsTheCursor :
    (inBit 0 (reader [0xAB])).mode = .bit ∧ (∃ t, exec (.getBits 4) (inBit 0 (reader [0xAB])) = .next t ∧ t.resp = .ok) ∧
    isConstruct (.getBits 4) = false ∧ Instr.getBits 4 ≠ .enterByte ∧
    ((inBit 0 (reader [0xAB])).fault = false ∧ (inBit 0 (reader [0xAB])).kind ≠ .none) ∧ (inBit 0 (writer 4)).kind = .writer :=
  ⟨rfl, ⟨_, rfl, by decide⟩, rfl, nofun, by decide, rfl⟩

theorem witness_UnnamedOperandsAreIgnored :
    (∃ t, exec .getUsmart (reader [5]) = .next t ∧ t.resp = .ok) ∧ readsA .getUsmart = false ∧ readsDin .getUsmart = false :=
  ⟨⟨_, rfl, by decide⟩, rfl, rfl⟩

/-- With a DIN of exactly MAX_CAPACITY bytes. -/
theorem witness_ConstructReaderLoadsDin :
    (withDin (List.replicate 16 7#8) (broken off)).params.legal ∧
    (withDin (List.replicate 16 7#8) (broken off)).opDin.length ≤ (withDin (List.replicate 16 7#8) (broken off)).params.maxCapacity := by
  decide

/-- A at MAX_CAPACITY and one past it. -/
theorem witness_ConstructWriterStartsEmpty :
    (withA 16 off).params.legal ∧ (withA 16 off).opA.toNat ≤ (withA 16 off).params.maxCapacity ∧
    (withA 17 off).params.legal ∧ (withA 17 off).params.maxCapacity < (withA 17 off).opA.toNat := by decide

/-- A writer in BYTE mode, a reader, a writer in BIT mode. -/
theorem witness_FinalizeKeepsTheWritersBytes :
    ((at' 4 (writer 4)).fault = false ∧ (at' 4 (writer 4)).kind = .writer ∧ (at' 4 (writer 4)).mode = .byte) ∧
    ((reader [1]).fault = false ∧ (reader [1]).kind ≠ .writer) ∧
    ((inBit 0 (writer 4)).fault = false ∧ (inBit 0 (writer 4)).kind = .writer ∧ (inBit 0 (writer 4)).mode = .bit) ∧
    ((at' 4 (writer 4)).cursor = 4 ∧ (at' 4 (writer 4)).cap = 4) := by decide

theorem witness_MarkAndResetCursorCopyTheCursor :
    ((reader [1]).fault = false ∧ (reader [1]).kind ≠ .none ∧ (reader [1]).mode = .byte) ∧ (off.fault = false ∧ off.kind = .none) ∧
    ((inBit 0 (reader [1])).fault = false ∧ (inBit 0 (reader [1])).kind ≠ .none ∧ (inBit 0 (reader [1])).mode = .bit) := by decide

/-- The greatest CURSOR of the first clause, and the other clauses' states. -/
theorem witness_AccessModeSwitchesSetTheOtherCursor :
    ((at' (2 ^ 48) (writer 0)).fault = false ∧ (at' (2 ^ 48) (writer 0)).kind ≠ .none ∧ (at' (2 ^ 48) (writer 0)).mode = .byte ∧
      (at' (2 ^ 48) (writer 0)).cursor.toNat ≤ 2 ^ 48) ∧
    ((inBit 3 (writer 1)).fault = false ∧ (inBit 3 (writer 1)).kind ≠ .none ∧ (inBit 3 (writer 1)).mode = .bit) ∧
    (off.fault = false ∧ off.kind = .none) := by decide

/-- The last byte of a middle-order field. -/
theorem witness_ByteOrdersFollowTheirTable :
    combines ⟨.w4, .inverseMiddle, .none⟩ = true ∧ 3 < widthBytes .w4 ∧ (ScalarField.mk .w4 .inverseMiddle .none).transform = .none := by
  decide

/-- Room for exactly the field, and one byte less. -/
theorem witness_PutWritesTheField :
    writing (at' 12 (withA (-2) (writer 16))) ∧ scalarField 4 3 0 = some ⟨.w4, .inverseMiddle, .none⟩ ∧
    (at' 12 (writer 16)).cursor.toNat + 4 ≤ (writer 16).params.maxCapacity ∧
    writing (at' 13 (writer 16)) ∧ (writer 16).params.maxCapacity < (at' 13 (writer 16)).cursor.toNat + 4 := by decide

/-- Exactly the field's bytes left, and one byte less. -/
theorem witness_GetReadsTheField :
    ready .reader .byte (reader [0xFF, 0x80]) ∧ scalarField 2 1 3 = some ⟨.w2, .little, .negate⟩ ∧
    (reader [0xFF, 0x80]).cursor.toNat + 2 ≤ (reader [0xFF, 0x80]).len.toNat ∧ (2 : BitVec 4) ≠ 8#4 ∧
    ready .reader .byte (at' 1 (reader [0xFF, 0x80])) ∧
    (at' 1 (reader [0xFF, 0x80])).len.toNat < (at' 1 (reader [0xFF, 0x80])).cursor.toNat + 2 := by decide

/-- −2 in two bytes, written by PUT, and a reader over the bytes written. -/
theorem witness_ScalarFieldsRoundTrip :
    writing (withA (-2) (writer 2)) ∧ scalarField 2 0 1 = some ⟨.w2, .big, .add⟩ ∧
    ∃ t, exec (.put 2 0 1) (withA (-2) (writer 2)) = .next t ∧ t.resp = .ok ∧
      ready .reader .byte (reader [0xFF, 0x7E]) ∧ holdsAt (reader [0xFF, 0x7E]) t.mem 0 2 ∧ (2 : BitVec 4) ≠ 8#4 :=
  ⟨by decide, by decide, _, rfl, by decide, by decide, by decide, by decide⟩

/-- The narrowest and the widest field. -/
theorem witness_UnpackLoopReadsTheStreamBits : 1 ≤ 1 ∧ 1 ≤ 32 ∧ 32 ≤ 32 := by decide

/-- The narrowest and the widest field, each with its greatest value. -/
theorem witness_PackLoopSetsExactlyTheStreamBits :
    Memory.wf [(0, 0xFF), (3, 0x80)] ∧ (1 ≤ 1 ∧ 1 ≤ 32 ∧ 1 < 2 ^ 1) ∧ (1 ≤ 32 ∧ 32 ≤ 32 ∧ 0xFFFFFFFF < 2 ^ 32) :=
  ⟨by decide, by decide, by decide, by decide, by norm_num⟩

/-- A field that ends on the last bit of MAX_CAPACITY, and one that ends a bit past it. -/
theorem witness_PutBitsWritesTheField :
    ready .writer .bit (inBit 96 (writer 0)) ∧ (inBit 96 (writer 0)).params.legal ∧ (inBit 96 (writer 0)).memInv ∧ legalNbits 32 ∧
    legalNbits 1 ∧ fieldEnd (inBit 96 (writer 0)).bitIdx.toNat 32 ≤ small.maxCapacity ∧
    ready .writer .bit (inBit 97 (writer 0)) ∧ (inBit 97 (writer 0)).memInv ∧
    small.maxCapacity < fieldEnd (inBit 97 (writer 0)).bitIdx.toNat 32 := by decide

/-- A field that ends on the last bit of LEN, and one that ends a bit past it. -/
theorem witness_GetBitsReadsTheField :
    ready .reader .bit (inBit 4 (reader [0xAB])) ∧ legalNbits 4 ∧ legalNbits 5 ∧ (reader [0xAB]).len.toNat ≤ 2 ^ 48 ∧
    fieldEnd (inBit 4 (reader [0xAB])).bitIdx.toNat 4 ≤ (reader [0xAB]).len.toNat ∧
    (reader [0xAB]).len.toNat < fieldEnd (inBit 4 (reader [0xAB])).bitIdx.toNat 5 := by decide

/-- E4: 3 bits of 5, 5 bits of 17, 13 bits of 8000, and a reader over the bytes B1 FA 00. -/
theorem witness_BitFieldRunsRoundTrip :
    ready .writer .bit (inBit 0 (writer 0)) ∧ (writer 0).params.legal ∧ (inBit 0 (writer 0)).memInv ∧
    (∀ f ∈ [((3, 5) : BitVec 6 × DWord), (5, 17), (13, 8000)], legalNbits f.1 ∧ f.2.toNat < 2 ^ f.1.toNat) ∧
    fieldEnd 0 21 ≤ small.maxCapacity ∧
    (∃ t, putFields [(3, 5), (5, 17), (13, 8000)] (inBit 0 (writer 0)) = some t ∧
      ∀ a < 3, (reader [0xB1, 0xFA, 0x00]).mem.read a = t.mem.read a) ∧
    ready .reader .bit (inBit 0 (reader [0xB1, 0xFA, 0x00])) ∧ (reader [0xB1, 0xFA, 0x00]).len.toNat ≤ 2 ^ 48 ∧
    (inBit 0 (reader [0xB1, 0xFA, 0x00])).bitIdx = (inBit 0 (writer 0)).bitIdx ∧ fieldEnd 0 21 ≤ (reader [0xB1, 0xFA, 0x00]).len.toNat :=
  ⟨by decide, by decide, by decide, by simp [legalNbits], by decide, ⟨_, rfl, by decide⟩, by decide, by decide, rfl, by decide⟩

/-- One byte, at the greatest first byte of that form; two, at the least; and the ends of the data. -/
theorem witness_GetUsmartReadsOneOrTwoBytes :
    (ready .reader .byte (reader [0x7F]) ∧ 127 = ((reader [0x7F]).mem.read 0).toNat ∧ 0 + 1 ≤ (reader [0x7F]).len.toNat) ∧
    (ready .reader .byte (reader [0x80, 0x00]) ∧ 128 = ((reader [0x80, 0x00]).mem.read 0).toNat ∧ 0 + 2 ≤ (reader [0x80, 0x00]).len.toNat) ∧
    (ready .reader .byte (at' 1 (reader [0x7F])) ∧ (at' 1 (reader [0x7F])).len.toNat ≤ (at' 1 (reader [0x7F])).cursor.toNat) ∧
    (ready .reader .byte (reader [0x80]) ∧ 128 ≤ ((reader [0x80]).mem.read 0).toNat ∧ (reader [0x80]).len.toNat < 0 + 2) := by decide

/-- As for the unsigned form. -/
theorem witness_GetSsmartReadsOneOrTwoBytes :
    (ready .reader .byte (reader [0x7F]) ∧ 127 = ((reader [0x7F]).mem.read 0).toNat ∧ 0 + 1 ≤ (reader [0x7F]).len.toNat) ∧
    (ready .reader .byte (reader [0x80, 0x00]) ∧ 128 = ((reader [0x80, 0x00]).mem.read 0).toNat ∧ 0 + 2 ≤ (reader [0x80, 0x00]).len.toNat) ∧
    (ready .reader .byte (reader []) ∧ (reader []).len.toNat ≤ (reader []).cursor.toNat) ∧
    (ready .reader .byte (reader [0x80]) ∧ 128 ≤ ((reader [0x80]).mem.read 0).toNat ∧ (reader [0x80]).len.toNat < 0 + 2) := by decide

/-- Two bytes, four bytes, no byte, one byte of two, three bytes of four. -/
theorem witness_GetBsmartReadsTwoOrFourBytes :
    (ready .reader .byte (reader [0x7F, 0xFF]) ∧ ((reader [0x7F, 0xFF]).mem.read 0).toNat = 127 ∧ 0 + 2 ≤ (reader [0x7F, 0xFF]).len.toNat) ∧
    (ready .reader .byte (reader [0x80, 0, 0, 0]) ∧ ((reader [0x80, 0, 0, 0]).mem.read 0).toNat = 128 ∧
      0 + 4 ≤ (reader [0x80, 0, 0, 0]).len.toNat) ∧
    (ready .reader .byte (reader []) ∧ (reader []).len.toNat ≤ (reader []).cursor.toNat) ∧
    (ready .reader .byte (reader [0x7F]) ∧ ((reader [0x7F]).mem.read 0).toNat < 128 ∧ (reader [0x7F]).len.toNat < 0 + 2) ∧
    (ready .reader .byte (reader [0x80, 0, 0]) ∧ 128 ≤ ((reader [0x80, 0, 0]).mem.read 0).toNat ∧ (reader [0x80, 0, 0]).len.toNat < 0 + 4) := by
  decide

/-- One sentinel, then: a last smart of one byte; the greatest of two bytes (FF FE); no byte; half a smart. -/
theorem witness_GetXsmartAddsTheChain :
    (∀ k < 2 * 1, (reader [0xFF, 0xFF, 0x7F]).mem.read (0 + k) = 0xFF#8) ∧
    (ready .reader .byte (reader [0xFF, 0xFF, 0x7F]) ∧ ((reader [0xFF, 0xFF, 0x7F]).mem.read 2).toNat = 127 ∧
      2 + 1 ≤ (reader [0xFF, 0xFF, 0x7F]).len.toNat) ∧
    (ready .reader .byte (reader [0xFF, 0xFF, 0xFF, 0xFE]) ∧ 256 * ((reader [0xFF, 0xFF, 0xFF, 0xFE]).mem.read 2).toNat
      + ((reader [0xFF, 0xFF, 0xFF, 0xFE]).mem.read 3).toNat ≠ 65535 ∧ 2 + 2 ≤ (reader [0xFF, 0xFF, 0xFF, 0xFE]).len.toNat) ∧
    (ready .reader .byte (reader [0xFF, 0xFF]) ∧ (reader [0xFF, 0xFF]).len.toNat ≤ 2) ∧
    (ready .reader .byte (reader [0xFF, 0xFF, 0x80]) ∧ 128 ≤ ((reader [0xFF, 0xFF, 0x80]).mem.read 2).toNat ∧
      (reader [0xFF, 0xFF, 0x80]).len.toNat < 2 + 2) := by decide

/-- The ends of the range, and a step outside each. -/
theorem witness_PutUsmartWritesTheSmart :
    writing (withA 0 (writer 2)) ∧ 0 ≤ (withA 0 off).opA.toInt ∧ writing (withA 32767 (writer 2)) ∧ (withA 32767 off).opA.toInt ≤ 32767 ∧
    writing (withA (-1) (writer 2)) ∧ (withA (-1) off).opA.toInt < 0 ∧ writing (withA 32768 (writer 2)) ∧
    32767 < (withA 32768 off).opA.toInt ∧ (writer 2).cursor.toNat + 2 ≤ (writer 2).params.maxCapacity := by decide

/-- The ends of the one-byte range, the ends of the two-byte ranges, and a step outside each. -/
theorem witness_PutSsmartWritesTheSmart :
    (writing (withA (-64) (writer 2)) ∧ (withA (-64) off).opA.toInt = -64 ∧ (withA 63 off).opA.toInt = 63) ∧
    (writing (withA (-16384) (writer 2)) ∧ -16384 ≤ (withA (-16384) off).opA.toInt ∧ (withA (-65) off).opA.toInt < -64) ∧
    (63 < (withA 64 off).opA.toInt ∧ (withA 16383 off).opA.toInt ≤ 16383) ∧
    (writing (withA 16384 (writer 2)) ∧ 16383 < (withA 16384 off).opA.toInt ∧ (withA (-16385) off).opA.toInt < -16384) := by decide

/-- One sentinel and the end of the range; room for exactly the chain, and one byte less. -/
theorem witness_PutXsmartWritesTheChain :
    writing (withA 32767 (at' 13 (writer 16))) ∧ 0 ≤ (withA 32767 off).opA.toInt ∧
    (at' 13 off).cursor.toNat + (List.replicate (2 * (32767 / 32767)) 0xFF#8 ++ usmartForm (32767 % 32767)).length ≤ small.maxCapacity ∧
    small.maxCapacity < (at' 14 off).cursor.toNat + (List.replicate (2 * (32767 / 32767)) 0xFF#8 ++ usmartForm (32767 % 32767)).length ∧
    writing (withA (-1) (writer 4)) ∧ (withA (-1) off).opA.toInt < 0 := by decide

/-- The ends of the two forms, and a step outside each. -/
theorem witness_PutBsmartWritesTheSmart :
    (writing (withA 32767 (writer 4)) ∧ (withA 32767 off).opA.toNat ≤ 32767) ∧
    (writing (withA 32768 (writer 4)) ∧ 32767 < (withA 32768 off).opA.toNat ∧ (withA 2147483647 off).opA.toNat ≤ 2 ^ 31 - 1) ∧
    (writing (withA (-1) (writer 4)) ∧ (withA (-1) off).opA.toInt < 0) ∧
    (writing (withA 2147483648 (writer 4)) ∧ 2 ^ 31 - 1 < (withA 2147483648 off).opA.toInt) := by decide

/-- A pair of each form: an encoder that completes, and a reader over the bytes it wrote. -/
theorem witness_SmartsRoundTrip :
    (∃ t, exec .putUsmart (withA 32767 (writer 4)) = .next t ∧ t.resp = .ok ∧ 2 = t.cursor.toNat - (writer 4).cursor.toNat ∧
      holdsAt (reader [0xFF, 0xFF]) t.mem 0 2) ∧
    (∃ t, exec .putSsmart (withA (-16384) (writer 4)) = .next t ∧ t.resp = .ok ∧ 2 = t.cursor.toNat - (writer 4).cursor.toNat ∧
      holdsAt (reader [0x80, 0x00]) t.mem 0 2) ∧
    (∃ t, exec .putXsmart (withA 32767 (writer 4)) = .next t ∧ t.resp = .ok ∧ 3 = t.cursor.toNat - (writer 4).cursor.toNat ∧
      holdsAt (reader [0xFF, 0xFF, 0x00]) t.mem 0 3) ∧
    (∃ t, exec .putBsmart (withA 32768 (writer 4)) = .next t ∧ t.resp = .ok ∧ 4 = t.cursor.toNat - (writer 4).cursor.toNat ∧
      holdsAt (reader [0x80, 0x00, 0x80, 0x00]) t.mem 0 4) ∧
    writing (withA 32767 (writer 4)) ∧ writing (withA (-16384) (writer 4)) ∧ writing (withA 32768 (writer 4)) ∧
    ready .reader .byte (reader [0xFF, 0xFF]) :=
  ⟨⟨_, rfl, by decide, by decide, by decide⟩, ⟨_, rfl, by decide, by decide, by decide⟩, ⟨_, rfl, by decide, by decide, by decide⟩,
    ⟨_, rfl, by decide, by decide, by decide⟩, by decide, by decide, by decide, by decide⟩

/-- A terminator in the last byte, and a string that runs to the end. -/
theorem witness_GetStrReadsToTheTerminator :
    (ready .reader .byte (reader [0x61, 0x00]) ∧ (∀ k < 1, (reader [0x61, 0x00]).mem.read (0 + k) ≠ 0) ∧
      0 + 1 < (reader [0x61, 0x00]).len.toNat ∧ (reader [0x61, 0x00]).mem.read (0 + 1) = 0) ∧
    (ready .reader .byte (reader [0x61]) ∧ (∀ k < 1, (reader [0x61]).mem.read (0 + k) ≠ 0) ∧ 0 + 1 = (reader [0x61]).len.toNat) := by decide

/-- The end of the data; a zero first byte; a terminated string; a string that runs to the end. -/
theorem witness_GetFstrReadsTheFlaggedString :
    (ready .reader .byte (reader []) ∧ (reader []).len.toNat ≤ (reader []).cursor.toNat) ∧
    (ready .reader .byte (reader [0x00]) ∧ (reader [0x00]).cursor.toNat < (reader [0x00]).len.toNat ∧ (reader [0x00]).mem.read 0 = 0) ∧
    ((∀ k < 1, (reader [0x61, 0x00]).mem.read (0 + k) ≠ 0) ∧ 0 + 1 < (reader [0x61, 0x00]).len.toNat ∧
      (reader [0x61, 0x00]).mem.read (0 + 1) = 0) ∧
    ((∀ k < 1, (reader [0x61]).mem.read (0 + k) ≠ 0) ∧ 0 + 1 = (reader [0x61]).len.toNat) := by decide

/-- A DIN without 0x00 that fits exactly, one that does not fit, and a DIN with 0x00. -/
theorem witness_PutStringsWriteTheTerminator :
    (writing (withDin [0x61] (at' 14 (writer 16))) ∧ 0 ∉ [0x61#8] ∧
      (at' 14 off).cursor.toNat + ([0x61#8] ++ [0]).length ≤ small.maxCapacity) ∧
    small.maxCapacity < (at' 15 off).cursor.toNat + ([0x61#8] ++ [0]).length ∧
    (writing (withDin [0x61, 0x00] (writer 4)) ∧ 0 ∈ [0x61#8, 0x00]) := by decide

/-- A block that fits exactly and one that does not, and the transforms' ends. -/
theorem witness_PutBlocksWriteTheirBytes :
    writing (withDin [1, 2] (at' 14 (writer 16))) ∧ (at' 14 off).cursor.toNat + [1#8, 2].length ≤ small.maxCapacity ∧
    small.maxCapacity < (at' 15 off).cursor.toNat + [1#8, 2].length ∧ legalTr 0 ∧ legalTr 3 := by decide

/-- A block of every byte, and one byte more. -/
theorem witness_GetBlocksReadTheirBytes :
    ready .reader .byte (withA 3 (reader [1, 2, 3])) ∧
    (reader [1, 2, 3]).cursor.toNat + (withA 3 off).opA.toNat ≤ (reader [1, 2, 3]).len.toNat ∧
    (reader [1, 2, 3]).len.toNat < (reader [1, 2, 3]).cursor.toNat + (withA 4 off).opA.toNat ∧ legalTr 3 := by decide

/-- A string, the empty flagged string, and a transformed block, each with a reader over the bytes written. -/
theorem witness_StringsAndBlocksRoundTrip :
    (∃ t, exec .putStr (withDin [0x61] (writer 4)) = .next t ∧ t.resp = .ok ∧ 2 = t.cursor.toNat - (writer 4).cursor.toNat ∧
      holdsAt (reader [0x61, 0x00]) t.mem 0 2) ∧
    (∃ t, exec .putFstr (withDin [] (writer 4)) = .next t ∧ t.resp = .ok ∧ 1 = t.cursor.toNat - (writer 4).cursor.toNat ∧
      holdsAt (reader [0x00]) t.mem 0 1) ∧
    (∃ t, exec .putBlk (withDin [1, 2] (writer 4)) = .next t ∧ t.resp = .ok ∧ 2 = t.cursor.toNat - (writer 4).cursor.toNat ∧
      holdsAt (withA 2 (reader [1, 2])) t.mem 0 2) ∧
    (∃ t, exec .putBlkRev (withDin [1, 2] (writer 4)) = .next t ∧ t.resp = .ok ∧ 2 = t.cursor.toNat - (writer 4).cursor.toNat ∧
      holdsAt (withA 2 (reader [2, 1])) t.mem 0 2) ∧
    (∃ t, exec (.putBlkT 3) (withDin [1, 2] (writer 4)) = .next t ∧ t.resp = .ok ∧ 2 = t.cursor.toNat - (writer 4).cursor.toNat ∧
      holdsAt (withA 2 (reader [0xFF, 0xFE])) t.mem 0 2) ∧
    legalTr 3 ∧ writing (withDin [1, 2] (writer 4)) ∧ ready .reader .byte (withA 2 (reader [1, 2])) ∧
    (withA 2 (reader [1, 2])).opA.toNat = (withDin [1, 2] (writer 4)).opDin.length :=
  ⟨⟨_, rfl, by decide, by decide, by decide⟩, ⟨_, rfl, by decide, by decide, by decide⟩, ⟨_, rfl, by decide, by decide, by decide⟩,
    ⟨_, rfl, by decide, by decide, by decide⟩, ⟨_, rfl, by decide, by decide, by decide⟩, by decide, by decide, by decide, by decide⟩

/-- Two units, of which the second takes a command; and another system whose second unit is the same. -/
theorem witness_UnitsShareNoState :
    (∃ sys', stepUnit [off, issue 0x2#32 0 [] off] 1 = .next sys') ∧
    [off, issue 0x2#32 0 [] off][1]? = some (issue 0x2#32 0 [] off) ∧
    [writer 4, issue 0x2#32 0 [] off][1]? = [off, issue 0x2#32 0 [] off][1]? ∧ (0 : Nat) ≠ 1 :=
  ⟨⟨_, rfl⟩, rfl, rfl, by decide⟩

/-- A legal growth function, and a growth to exactly MAX_CAPACITY. -/
theorem witness_GrowthTablesAreTheLegalGrowths :
    16 ≤ small.maxCapacity ∧ (∀ cap need : Nat, need ≤ 16 → need ≤ max cap 16 - (cap - 16) ∧ max cap 16 - (cap - 16) ≤ 16) ∧
    (∀ c ∈ [(0, 16), (4, 9)], c.2 ≤ 16) :=
  ⟨by decide, fun _ _ h => by omega, by decide⟩


end Sys2Proof.Tests
end

/-! ## Words that spell no command (30_encoding.md R91, R96, R98)

The decoder looks its row up in `opcodeMap`; the obligations speak of `opOf` and of the spec's own masks `opMask`. The first
lemmas tie the two together, for every word. -/

namespace Sys2Proof

open Machine Claims

/-- The spec's OP of a word and the decoder's are the same byte (R90). -/
theorem toNat_opcode (w : Word) : (opcode w).toNat = opOf w := by
  simp [opcode, opOf]

/-- Every row of the opcode map carries the mask the spec states for its OP (R97, R98). -/
theorem opMask_of_mem_opcodeMap : ∀ r ∈ opcodeMap, opMask r.op.toNat = some r.mask := by decide

/-- Every OP with a mask has a row (R97). -/
theorem exists_row_of_opMask_ne_none {n : Nat} (h : opMask n ≠ none) : ∃ r ∈ opcodeMap, r.op.toNat = n := by
  have hlt : n < 0x5A := by
    by_contra hge
    refine h ?_
    simp only [opMask, List.mem_cons, List.not_mem_nil, or_false]
    rw [if_neg, if_neg, if_neg, if_neg] <;> omega
  exact (by decide : ∀ n < 0x5A, opMask n ≠ none → ∃ r ∈ opcodeMap, r.op.toNat = n) n hlt h

/-- A word whose OP has no mask is rejected for its OP (R91). -/
theorem decode_of_opMask_eq_none {w : Word} (h : opMask (opOf w) = none) :
    decode w = .error (.unassignedOp (opcode w)) := by
  have hrow : opcodeMap.find? (fun r => r.op == opcode w) = none := by
    refine List.find?_eq_none.mpr fun r hr hop => ?_
    have hmask := opMask_of_mem_opcodeMap r hr
    rw [beq_iff_eq.mp hop, toNat_opcode, h] at hmask
    exact absurd hmask (by simp)
  simp [decode, hrow]

/-- A word whose OP has a mask is looked up in a row of that OP and that mask (R98). -/
theorem find?_row_of_opMask_eq_some {w m : Word} (h : opMask (opOf w) = some m) :
    ∃ r, opcodeMap.find? (fun r => r.op == opcode w) = some r ∧ r.op = opcode w ∧ r.mask = m := by
  obtain ⟨r₀, hmem₀, hop₀⟩ := exists_row_of_opMask_ne_none (n := opOf w) (by simp [h])
  have hfound : (opcodeMap.find? (fun r => r.op == opcode w)).isSome :=
    List.find?_isSome.mpr ⟨r₀, hmem₀, by simp [← BitVec.toNat_inj, toNat_opcode, hop₀]⟩
  obtain ⟨r, hr⟩ := Option.isSome_iff_exists.mp hfound
  have hop : r.op = opcode w := by simpa using List.find?_some hr
  have hmask := opMask_of_mem_opcodeMap r (List.mem_of_find?_eq_some hr)
  rw [hop, toNat_opcode, h] at hmask
  exact ⟨r, hr, hop, (Option.some.inj hmask).symm⟩

/-- A word that differs from its OP under the OP's mask is rejected for a reserved or unused field (R96, R98). -/
theorem decode_of_masked_ne {w m : Word} (h : opMask (opOf w) = some m) (hne : w &&& m ≠ BitVec.ofNat 32 (opOf w)) :
    decode w = .error (.reservedBits (opcode w)) := by
  obtain ⟨r, hr, hop, rfl⟩ := find?_row_of_opMask_eq_some h
  have hmatch : r.op.setWidth 32 = BitVec.ofNat 32 (opOf w) := by rw [hop, ← toNat_opcode, BitVec.ofNat_toNat]
  simp only [decode, hr, hmatch, if_neg hne]

/-- The decoder's CONSTRUCT test is on OP 1, 2 and 3 (R97). -/
theorem isConstructOp_opcode (w : Word) : isConstructOp (opcode w) = true ↔ opOf w ∈ [1, 2, 3] := by
  simp [isConstructOp, ← BitVec.toNat_inj, toNat_opcode, or_assoc]

/-- A CONSTRUCT's OP is listed, so its word can only be rejected for a nonzero field (R96, R97). -/
theorem decode_of_spellsNoCommand_construct {w : Word} (h : spellsNoCommand w) (hop : opOf w ∈ [1, 2, 3]) :
    decode w = .error (.reservedBits (opcode w)) := by
  have hmask : opMask (opOf w) = some 0xFFFFFFFF#32 :=
    (by decide : ∀ n ∈ [1, 2, 3], opMask n = some 0xFFFFFFFF#32) _ hop
  refine decode_of_masked_ne hmask ?_
  simpa only [spellsNoCommand, hmask] using h

/-- The decoder rejects every word that spells no command, under the word's own OP (R91, R96). -/
theorem decode_of_spellsNoCommand {w : Word} (h : spellsNoCommand w) :
    decode w = .error (.unassignedOp (opcode w)) ∨ decode w = .error (.reservedBits (opcode w)) := by
  cases hmask : opMask (opOf w) with
  | none => exact .inl (decode_of_opMask_eq_none hmask)
  | some m => exact .inr (decode_of_masked_ne hmask (by simpa only [spellsNoCommand, hmask] using h))

end Sys2Proof

namespace Sys2Proof.Machine

open Claims

/-! ### The step that rejects a word (R352 1 to 3) -/

/-- A word the decoder rejects, taken from the port with an admissible DIN. -/
theorem step_of_decode_error {s : State} {c : Command} {rest : List Command} {e : DecodeError} (hp : s.pending = c :: rest)
    (hd : c.din.length ≤ s.params.maxCapacity) (he : decode c.cmd = .error e) :
    step s = .next ((s.load c rest).rejectWord e) := by
  simp [step, hp, State.admits, hd, he]

/-- Raising a code while none is latched is the spec's latch (R353, R354). -/
theorem State.raise_of_not_fault {s : State} (h : s.fault = false) (e : Response) : s.raise e = latched e s := by
  simp [State.raise, latched, h]

/-- A malformed CONSTRUCT goes through power-on, fault or not (R135). -/
theorem State.rejectWord_construct {op : BitVec 8} (h : isConstructOp op = true) (s : State) :
    s.rejectWord (.reservedBits op) = constructFailed .illegalCommand s := by
  simp only [State.rejectWord, h, if_true]
  rfl

/-- With any other OP a nonzero field is treated as an unlisted OP is (R352 1 to 3). -/
theorem State.rejectWord_not_construct {op : BitVec 8} (h : isConstructOp op = false) (s : State) :
    s.rejectWord (.reservedBits op) = s.rejectWord (.unassignedOp op) := by
  simp only [State.rejectWord, h, Bool.false_eq_true, if_false]

/-- An unlisted OP under a fault (R355). -/
theorem State.rejectWord_of_fault {s : State} (h : s.fault = true) (op : BitVec 8) :
    s.rejectWord (.unassignedOp op) = s.refuseFaulted := if_pos h

/-- An unlisted OP while no fault is latched (R91, R353). -/
theorem State.rejectWord_of_not_fault {s : State} (h : s.fault = false) (op : BitVec 8) :
    s.rejectWord (.unassignedOp op) = latched .illegalCommand s :=
  (if_neg (by simp [h])).trans (State.raise_of_not_fault h _)

/-- A word that spells no command and has no CONSTRUCT's OP is rejected in one way, whatever is wrong with it. -/
theorem step_of_spellsNoCommand_not_construct {s : State} {c : Command} {rest : List Command} (hp : s.pending = c :: rest)
    (hd : c.din.length ≤ s.params.maxCapacity) (h : spellsNoCommand c.cmd) (hop : opOf c.cmd ∉ [1, 2, 3]) :
    step s = .next ((s.load c rest).rejectWord (.unassignedOp (opcode c.cmd))) := by
  have hc : isConstructOp (opcode c.cmd) = false :=
    Bool.eq_false_iff.mpr (mt (isConstructOp_opcode c.cmd).mp hop)
  rcases decode_of_spellsNoCommand h with he | he
  · exact step_of_decode_error hp hd he
  · rw [step_of_decode_error hp hd he, State.rejectWord_not_construct hc]

/-- Settles O9: the decoder rejects the word, a CONSTRUCT's for a nonzero field; then the step is `rejectWord`, by OP and FAULT. -/
theorem undecodableWordIsIllegal : Obligations.UndecodableWordIsIllegal := by
  intro s c rest hp hd h
  refine ⟨fun hop => ?construct, fun hop hf => ?latch, fun hop hf => ?faulted⟩
  case construct =>
    rw [step_of_decode_error hp hd (decode_of_spellsNoCommand_construct h hop),
      State.rejectWord_construct ((isConstructOp_opcode c.cmd).mpr hop)]
    rfl
  case latch =>
    rw [step_of_spellsNoCommand_not_construct hp hd h hop, State.rejectWord_of_not_fault (s := s.load c rest) hf]
    rfl
  case faulted =>
    rw [step_of_spellsNoCommand_not_construct hp hd h hop, State.rejectWord_of_fault (s := s.load c rest) hf]
    rfl

end Sys2Proof.Machine

/-! ## Lifecycle (40_lifecycle.md)

FINALIZE_EXACT, FINALIZE_FULL, MARK and RESET_CURSOR are each one run of `runPlain` with a body that cannot fail. What is left to
say of them is what the two checks that can fail answer, which KINDs pass, and the state a FINALIZE gives. -/

namespace Sys2Proof.Machine

open Claims

/-! ### The checks of KIND and MODE (R351, R352 4 and 6) -/

theorem kindTakes_writer_iff {k : Kind} : kindTakes .writer k = true ↔ k = .writer := by
  cases k <;> simp [kindTakes]

theorem kindTakes_built_iff {k : Kind} : kindTakes .built k = true ↔ k ≠ .none := by
  cases k <;> simp [kindTakes]

/-- A command on a KIND it does not take, whatever its fields and its mode (R352 4). -/
theorem runCommand_of_kind {α : Type} {need : KindNeed} {field : Option α} {mode : Mode}
    {body : α → State → Except Response State} {s : State} (hf : s.fault = false) (hk : ¬ kindTakes need s.kind = true) :
    runCommand need field mode body s = .next (latched .illegalCommand s) := by
  simp [runCommand, hf, hk, State.raise_of_not_fault hf]

/-- A command with legal fields on a KIND it takes, in the other mode (R352 6). -/
theorem runCommand_of_mode {α : Type} {need : KindNeed} {field : Option α} {mode : Mode}
    {body : α → State → Except Response State} {s : State} {f : α} (hf : s.fault = false)
    (hk : kindTakes need s.kind = true) (hd : field = some f) (hm : s.mode ≠ mode) :
    runCommand need field mode body s = .next (latched .modeError s) := by
  simp [runCommand, hf, hk, hd, hm, State.raise_of_not_fault hf]

theorem runPlain_of_kind {need : KindNeed} {mode : Mode} {body : State → Except Response State} {s : State}
    (hf : s.fault = false) (hk : ¬ kindTakes need s.kind = true) :
    runPlain need mode body s = .next (latched .illegalCommand s) :=
  runCommand_of_kind hf hk

theorem runPlain_of_mode {need : KindNeed} {mode : Mode} {body : State → Except Response State} {s : State}
    (hf : s.fault = false) (hk : kindTakes need s.kind = true) (hm : s.mode ≠ mode) :
    runPlain need mode body s = .next (latched .modeError s) :=
  runCommand_of_mode hf hk rfl hm

/-! ### FINALIZE (R133, R134) -/

/-- Both FINALIZE commands run `finalize` on a writer in BYTE mode; they differ in the length alone. -/
theorem exec_finalize {i : Instr} {n : DWord} {s : State}
    (h : i = .finalizeExact ∧ n = s.cursor ∨ i = .finalizeFull ∧ n = s.cap) :
    exec i s = runPlain .writer .byte (fun _ => .ok (s.finalize n)) s := by
  obtain ⟨rfl, rfl⟩ | ⟨rfl, rfl⟩ := h
  · rfl
  · rfl

/-- The new reader's bytes are the writer's. -/
theorem Memory.read_below_of_lt {m : Memory} {n a : Nat} (h : a < n) : (m.below n).read a = m.read a := by
  rw [Memory.read_below, if_pos h]

/-- Settles O23: either command is `finalize` behind the checks of KIND and MODE, and `finalize` cuts the storage to the bytes
below its length. -/
theorem finalizeKeepsTheWritersBytes : Obligations.FinalizeKeepsTheWritersBytes := by
  refine ⟨by decide, by decide, fun s hf i n h => ?_⟩
  rw [exec_finalize h]
  refine ⟨fun hk hm => ?finalized, fun hk => ?otherKind, fun hk hm => ?bitMode⟩
  case finalized =>
    exact ⟨{ s.finalize n with resp := .ok }, runPlain_of_ok hf (kindTakes_writer_iff.mpr hk) hm rfl, rfl,
      Memory.within_below s.mem n.toNat, fun _ ha => Memory.read_below_of_lt ha⟩
  case otherKind => exact runPlain_of_kind hf (mt kindTakes_writer_iff.mp hk)
  case bitMode => exact runPlain_of_mode hf (kindTakes_writer_iff.mpr hk) (by simp [hm])

/-! ### MARK and RESET_CURSOR (R136, R137) -/

theorem exec_mark (s : State) :
    exec .mark s = runPlain .built .byte (fun u => .ok { u with mark := u.cursor }) s := rfl

theorem exec_resetCursor (s : State) :
    exec .resetCursor s = runPlain .built .byte (fun u => .ok { u with cursor := u.mark }) s := rfl

/-- Settles O24: both commands are one copy behind the checks of KIND and MODE. -/
theorem markAndResetCursorCopyTheCursor : Obligations.MarkAndResetCursorCopyTheCursor := by
  refine ⟨by decide, by decide, fun s hf => ?_⟩
  rw [exec_mark, exec_resetCursor]
  refine ⟨fun hk hm => ?copied, fun hk => ?noKind, fun hk hm => ?bitMode⟩
  case copied =>
    have htakes := kindTakes_built_iff.mpr hk
    exact ⟨runPlain_of_ok (t := { s with mark := s.cursor }) hf htakes hm rfl,
      runPlain_of_ok (t := { s with cursor := s.mark }) hf htakes hm rfl⟩
  case noKind =>
    have hrejects := mt kindTakes_built_iff.mp (not_not.mpr hk)
    exact ⟨runPlain_of_kind hf hrejects, runPlain_of_kind hf hrejects⟩
  case bitMode =>
    have htakes := kindTakes_built_iff.mpr hk
    have hmode : s.mode ≠ .byte := by simp [hm]
    exact ⟨runPlain_of_mode hf htakes hmode, runPlain_of_mode hf htakes hmode⟩

end Sys2Proof.Machine

/-! ## Scalar codec (42_scalar.md)

A transform is one sum, difference or negation of bytes, so the table of R184 is the value of each mod 256. A byte order
is a pair of maps, one from stream positions and one to them; a field's bytes hold its value bytes because the two are inverse. -/

namespace Sys2Proof.Machine

/-! ### Transforms (R184) -/

/-- Bytes subtract mod 256 (R184). -/
theorem toNat_sub_byte (a b : Byte) : ((a - b).toNat : Int) = ((a.toNat : Int) - b.toNat) % 256 := by
  rw [BitVec.toNat_sub]
  omega

/-- Bytes negate mod 256 (R184). -/
theorem toNat_neg_byte (b : Byte) : ((-b).toNat : Int) = -(b.toNat : Int) % 256 := by
  rw [← BitVec.zero_sub, toNat_sub_byte, BitVec.toNat_zero, Nat.cast_zero, zero_sub]

@[simp] theorem encByte_none (b : Byte) : encByte .none b = b := rfl
@[simp] theorem encByte_add (b : Byte) : encByte .add b = b + 128#8 := rfl
@[simp] theorem encByte_subtract (b : Byte) : encByte .subtract b = 128#8 - b := rfl
@[simp] theorem encByte_negate (b : Byte) : encByte .negate b = -b := rfl
@[simp] theorem decByte_none (b : Byte) : decByte .none b = b := rfl
@[simp] theorem decByte_add (b : Byte) : decByte .add b = b - 128#8 := rfl
@[simp] theorem decByte_subtract (b : Byte) : decByte .subtract b = 128#8 - b := rfl
@[simp] theorem decByte_negate (b : Byte) : decByte .negate b = -b := rfl

/-- Settles O26: NONE is the identity, and every other entry of the table is the value of a sum, a difference or a negation of bytes. -/
theorem transformsFollowTheirTable : Obligations.TransformsFollowTheirTable := by
  intro b
  refine ⟨⟨encByte_none b, decByte_none b⟩, ⟨?addEnc, ?addDec⟩, ⟨?subtractEnc, ?subtractDec⟩, ⟨?negateEnc, ?negateDec⟩⟩
  case addEnc => rw [encByte_add]; exact BitVec.toNat_add b 128#8
  case addDec => rw [decByte_add]; exact toNat_sub_byte b 128#8
  case subtractEnc => rw [encByte_subtract]; exact toNat_sub_byte 128#8 b
  case subtractDec => rw [decByte_subtract]; exact toNat_sub_byte 128#8 b
  case negateEnc => rw [encByte_negate, toNat_neg_byte]
  case negateDec => rw [decByte_negate, toNat_neg_byte]

/-! ### Byte orders (R182) -/

/-- `v[8j+7:8j]` is the digit j of v in base 256 (R182). -/
theorem byteOf_eq_ofNat_div (v j : Nat) : byteOf v j = BitVec.ofNat 8 (v / 256 ^ j) := by
  rw [byteOf, Nat.shiftRight_eq_div_pow, Nat.pow_mul]

/-- A middle order is an order of four bytes (R99 1). -/
theorem width_of_combines_middle {f : ScalarField} (h : combines f = true)
    (ho : f.order = .middle ∨ f.order = .inverseMiddle) : f.width = .w4 := by
  rcases ho with ho | ho <;> simp_all [combines]

/-- The writer's map takes the stream position of a value byte, which lies in the field, back to that byte. -/
theorem streamPos_lt_and_byteIndexAt_streamPos {f : ScalarField} {j : Nat} (h : combines f = true)
    (hj : j < widthBytes f.width) :
    streamPos f.order (widthBytes f.width) j < widthBytes f.width ∧
      byteIndexAt f.order (widthBytes f.width) (streamPos f.order (widthBytes f.width) j) = j := by
  cases ho : f.order with
  | big => simp only [streamPos, byteIndexAt]; omega
  | little => exact ⟨hj, rfl⟩
  | middle =>
    rw [width_of_combines_middle h (.inl ho)] at hj ⊢
    exact (by decide : ∀ j < 4, streamPos .middle 4 j < 4 ∧ byteIndexAt .middle 4 (streamPos .middle 4 j) = j) j hj
  | inverseMiddle =>
    rw [width_of_combines_middle h (.inr ho)] at hj ⊢
    exact (by decide : ∀ j < 4, streamPos .inverseMiddle 4 j < 4 ∧
      byteIndexAt .inverseMiddle 4 (streamPos .inverseMiddle 4 j) = j) j hj

/-- The byte PUT writes at stream position k (R182, R183). -/
theorem scalarBytes_getD {f : ScalarField} {k : Nat} (v : Nat) (hk : k < widthBytes f.width) :
    (scalarBytes f v).getD k 0 =
      if byteIndexAt f.order (widthBytes f.width) k = 0 then
        encByte f.transform (byteOf v (byteIndexAt f.order (widthBytes f.width) k))
      else byteOf v (byteIndexAt f.order (widthBytes f.width) k) := by
  rw [List.getD_eq_getElem _ _ (by simpa using hk)]
  simp only [scalarBytes, List.getElem_map, List.getElem_range]

/-- At the stream position of value byte j stands that byte, transformed if it is the least significant (R182, R183). -/
theorem scalarBytes_getD_streamPos {f : ScalarField} {j : Nat} (v : Nat) (h : combines f = true)
    (hj : j < widthBytes f.width) :
    (scalarBytes f v).getD (streamPos f.order (widthBytes f.width) j) 0 =
      if j = 0 then encByte f.transform (byteOf v j) else byteOf v j := by
  obtain ⟨hlt, hinv⟩ := streamPos_lt_and_byteIndexAt_streamPos h hj
  rw [scalarBytes_getD v hlt, hinv]

/-- Settles O28: the tables and the examples are the maps' own values; the last clause is `scalarBytes_getD_streamPos`, where
NONE transforms nothing. -/
theorem byteOrdersFollowTheirTable : Obligations.ByteOrdersFollowTheirTable := by
  refine ⟨fun w k => ⟨rfl, rfl, rfl, rfl⟩, rfl, rfl, rfl, rfl, by decide, by decide, fun f v j h hj ht => ?_⟩
  rw [scalarBytes_getD_streamPos v h hj, ht, encByte_none, ite_self, byteOf_eq_ofNat_div]

end Sys2Proof.Machine

/-! ## Bit packer and unpacker (43_bits.md)

The ROM is compared with the table of its closed form once; every entry is then read off that table. -/

namespace Sys2Proof.Machine

/-! ### The mask ROM (R231) -/

/-- The ROM's literals, entry by entry, are the table of `2^w - 1` for w = 0 to 32 (R231). -/
theorem maskRom_eq_map_range : maskRom = (List.range 33).map fun w => 2 ^ w - 1 := by
  decide

/-- Every width a field or a part of one can have, 0 to 32, reads its own mask (R231). -/
theorem maskOf_eq_two_pow_sub_one {w : Nat} (hw : w ≤ 32) : maskOf w = 2 ^ w - 1 := by
  have hlt : w < ((List.range 33).map fun w => 2 ^ w - 1).length := by
    rw [List.length_map, List.length_range]; omega
  rw [maskOf, maskRom_eq_map_range, List.getD_eq_getElem _ _ hlt, List.getElem_map, List.getElem_range]

/-- Settles O32: the entry count is the ROM's own, and each entry is `maskOf_eq_two_pow_sub_one`. -/
theorem maskRomHoldsTheMasks : Obligations.MaskRomHoldsTheMasks :=
  ⟨rfl, fun _ hw => maskOf_eq_two_pow_sub_one hw⟩

end Sys2Proof.Machine

/-! ## Errors (60_exceptions.md)

Every command but the three CONSTRUCTs is one run of `runCommand`, whatever its body, so what a failing command or a faulted unit
does is said once, of `runCommand`: it completes, or it is `raise` on the state the command found. -/

namespace Sys2Proof

open Machine Claims

/-! ### Which words are a CONSTRUCT's (R97) -/

/-- The rows that build a CONSTRUCT are those of a CONSTRUCT's OP. -/
theorem isConstruct_build_of_mem_opcodeMap (w : Word) :
    ∀ r ∈ opcodeMap, isConstruct (r.build w) = isConstructOp r.op :=
  List.map_inj_left.mp rfl

/-- A word that spells a command decodes to what the row of its OP builds (R98). -/
theorem decode_of_not_spellsNoCommand {w : Word} (h : ¬ spellsNoCommand w) :
    ∃ r ∈ opcodeMap, r.op = opcode w ∧ decode w = .ok (r.build w) := by
  cases hmask : opMask (opOf w) with
  | none => exact absurd (by simp only [spellsNoCommand, hmask]) h
  | some m =>
    have hmasked : w &&& m = BitVec.ofNat 32 (opOf w) := by
      simpa only [spellsNoCommand, hmask, ne_eq, not_not] using h
    obtain ⟨r, hr, hop, rfl⟩ := find?_row_of_opMask_eq_some hmask
    have hmatch : r.op.setWidth 32 = BitVec.ofNat 32 (opOf w) := by rw [hop, ← toNat_opcode, BitVec.ofNat_toNat]
    refine ⟨r, List.mem_of_find?_eq_some hr, hop, ?_⟩
    simp only [decode, hr, hmatch, if_pos hmasked]

/-- A command word without a CONSTRUCT's OP spells a command that is no CONSTRUCT. -/
theorem decode_ok_of_not_construct {w : Word} (h : ¬ spellsNoCommand w) (hop : opOf w ∉ [1, 2, 3]) :
    ∃ i, decode w = .ok i ∧ isConstruct i = false := by
  obtain ⟨r, hr, hrop, hdecode⟩ := decode_of_not_spellsNoCommand h
  refine ⟨r.build w, hdecode, ?_⟩
  rw [isConstruct_build_of_mem_opcodeMap w r hr, hrop]
  exact Bool.eq_false_iff.mpr (mt (isConstructOp_opcode w).mp hop)

end Sys2Proof

namespace Sys2Proof.Machine

open Claims

/-! ### Commands other than a CONSTRUCT -/

/-- A command that uses no field is `runCommand` with a field that is always legal. -/
theorem runPlain_eq_runCommand (need : KindNeed) (mode : Mode) (body : State → Except Response State) (s : State) :
    runPlain need mode body s = runCommand need (some ()) mode (fun _ => body) s := rfl

/-- Every command but a CONSTRUCT makes the checks of R352 and then runs a body. -/
theorem exec_eq_runCommand {i : Instr} (h : isConstruct i = false) :
    ∃ (α : Type) (need : KindNeed) (field : Option α) (mode : Mode) (body : α → State → Except Response State),
      ∀ s, exec i s = runCommand need field mode body s := by
  cases i with
  | constructReader | constructWriter | constructWriterCap => cases h
  | put | getS | getU | putBits | getBits | putBlkT | getBlkT => exact ⟨_, _, _, _, _, fun _ => rfl⟩
  | _ =>
    unfold exec
    exact ⟨Unit, _, _, _, _, runPlain_eq_runCommand _ _ _⟩

/-- The fault latch is checked before everything else (R352 1). -/
theorem runCommand_of_fault {α : Type} {need : KindNeed} {field : Option α} {mode : Mode}
    {body : α → State → Except Response State} {s : State} (hf : s.fault = true) :
    runCommand need field mode body s = .next s.refuseFaulted := if_pos hf

theorem exec_of_fault {i : Instr} {s : State} (hc : isConstruct i = false) (hf : s.fault = true) :
    exec i s = .next s.refuseFaulted := by
  obtain ⟨_, _, _, _, _, hrun⟩ := exec_eq_runCommand hc
  rw [hrun, runCommand_of_fault hf]

/-- Under a fault the latch keeps FAULT and ERR, so a refusal is a raise of FAULTED. -/
theorem State.refuseFaulted_eq_raise {s : State} (hf : s.fault = true) : s.refuseFaulted = s.raise .faulted := by
  simp [State.refuseFaulted, State.raise, hf]

/-- A command either drops what its body did and raises an error, or answers OK (R353, R354). -/
theorem runCommand_raises_or_completes {α : Type} (need : KindNeed) (field : Option α) (mode : Mode)
    (body : α → State → Except Response State) (s : State) :
    (∃ e, runCommand need field mode body s = .next (s.raise e)) ∨
      ∃ t : State, runCommand need field mode body s = .next { t with resp := .ok } := by
  rcases runCommand_cases (rfl : runCommand need field mode body s = _) with
    ⟨hf, ho⟩ | ⟨_, _, ho⟩ | ⟨_, _, _, ho⟩ | ⟨_, _, _, _, ho⟩ | ⟨_, _, _, _, _, ⟨t, _, ho⟩ | ⟨e, _, ho⟩⟩
  · exact .inl ⟨.faulted, State.refuseFaulted_eq_raise hf ▸ ho⟩
  · exact .inl ⟨.illegalCommand, ho⟩
  · exact .inl ⟨.configurationError, ho⟩
  · exact .inl ⟨.modeError, ho⟩
  · exact .inr ⟨t, ho⟩
  · exact .inl ⟨e, ho⟩

/-- A command other than a CONSTRUCT that fails is `raise` on the state it found. -/
theorem eq_raise_of_exec_failed {i : Instr} {s t : State} (hc : isConstruct i = false) (h : exec i s = .next t)
    (hresp : t.resp ≠ .ok) : t = s.raise t.resp := by
  obtain ⟨_, need, field, mode, body, hrun⟩ := exec_eq_runCommand hc
  rw [hrun] at h
  obtain ⟨e, he⟩ | ⟨u, hu⟩ := runCommand_raises_or_completes need field mode body s
  · cases he.symm.trans h
    rfl
  · cases hu.symm.trans h
    exact absurd rfl hresp

/-! ### CONSTRUCT commands (R130 to R132, R135) -/

theorem exec_constructWriterCap (s : State) :
    exec .constructWriterCap s =
      if s.opA.toNat ≤ s.params.maxCapacity then .next (s.construct .writer [] 0 s.opA.toNat)
      else .next (s.failConstruct .rangeError) := rfl

/-- A CONSTRUCT builds a unit, or answers RANGE_ERROR from the power-on state. -/
theorem exec_construct_cases {i : Instr} (hc : isConstruct i = true) (s : State) :
    (∃ k m len cap, exec i s = .next (s.construct k m len cap)) ∨ exec i s = .next (s.failConstruct .rangeError) := by
  cases i with
  | constructReader | constructWriter => exact .inl ⟨_, _, _, _, rfl⟩
  | constructWriterCap =>
    rw [exec_constructWriterCap]
    split
    · exact .inl ⟨_, _, _, _, rfl⟩
    · exact .inr rfl
  | _ => cases hc

/-- A CONSTRUCT that fails leaves the power-on state under the latch. -/
theorem eq_constructFailed_of_exec_failed {i : Instr} {s t : State} (hc : isConstruct i = true) (h : exec i s = .next t)
    (hresp : t.resp ≠ .ok) : t = constructFailed t.resp s := by
  obtain ⟨_, _, _, _, hk⟩ | hfail := exec_construct_cases hc s
  · cases hk.symm.trans h
    exact absurd rfl hresp
  · cases hfail.symm.trans h
    rfl

/-- Settles O12: a failing command is `raise`, a failing CONSTRUCT `failConstruct`. -/
theorem failingCommandChangesOnlyTheStatus : Obligations.FailingCommandChangesOnlyTheStatus :=
  fun _ _ _ h hresp =>
    ⟨fun hc => eq_raise_of_exec_failed hc h hresp, fun hc => eq_constructFailed_of_exec_failed hc h hresp⟩

/-! ### A faulted unit (R355) -/

/-- The state with no fault latched and RESP = OK, every other field as before. -/
def State.unlatched (s : State) : State := { s with fault := false, err := .ok, resp := .ok }

theorem State.construct_unlatched (s : State) (k : Kind) (m : Memory) (len cap : Nat) :
    s.unlatched.construct k m len cap = s.construct k m len cap := rfl

theorem State.failConstruct_unlatched (s : State) (e : Response) : s.unlatched.failConstruct e = s.failConstruct e := rfl

/-- A CONSTRUCT overwrites the latch without reading it. -/
theorem exec_construct_unlatched {i : Instr} (hc : isConstruct i = true) (s : State) : exec i s.unlatched = exec i s := by
  cases i with
  | constructReader | constructWriter => exact congrArg Host.Outcome.next (s.construct_unlatched _ _ _ _)
  | constructWriterCap =>
    rw [exec_constructWriterCap, exec_constructWriterCap, State.construct_unlatched, State.failConstruct_unlatched]
    rfl
  | _ => cases hc

/-- A word the decoder takes, issued with an admissible DIN. -/
theorem step_of_decode_ok {s : State} {c : Command} {rest : List Command} {i : Instr} (hp : s.pending = c :: rest)
    (hd : c.din.length ≤ s.params.maxCapacity) (hi : decode c.cmd = .ok i) : step s = exec i (s.load c rest) := by
  simp [step, hp, State.admits, hd, hi]

/-- Settles O13: a word that spells no command is O9's third case; any other without a CONSTRUCT's OP decodes to a command that
checks the latch first. -/
theorem faultedUnitTakesOnlyConstructs : Obligations.FaultedUnitTakesOnlyConstructs := by
  intro s hf
  refine ⟨fun c rest hp hd hop => ?refused, fun i hc => (exec_construct_unlatched hc s).symm⟩
  by_cases hspell : spellsNoCommand c.cmd
  · obtain ⟨_, _, hfaulted⟩ := undecodableWordIsIllegal s c rest hp hd hspell
    exact hfaulted hop hf
  · obtain ⟨i, hi, hc⟩ := decode_ok_of_not_construct hspell hop
    rw [step_of_decode_ok hp hd hi, exec_of_fault hc (s := s.load c rest) hf]
    rfl

/-! ### Several units (R357) -/

theorem stepUnit_of_none {sys : System} {k : Nat} (hk : sys[k]? = none) : stepUnit sys k = .next sys := by
  simp [stepUnit, hk]

theorem stepUnit_of_next {sys : System} {k : Nat} {s t : State} (hk : sys[k]? = some s) (ht : step s = .next t) :
    stepUnit sys k = .next (sys.set k t) := by
  simp [stepUnit, hk, ht]

/-- Everything a step of unit `k` can do when it answers: nothing, where `k` names no unit, or replace that unit by its step. -/
theorem stepUnit_cases {sys sys' : System} {k : Nat} (h : stepUnit sys k = .next sys') :
    (sys[k]? = none ∧ sys' = sys) ∨ ∃ s t, sys[k]? = some s ∧ step s = .next t ∧ sys' = sys.set k t := by
  cases hk : sys[k]? with
  | none =>
    cases (stepUnit_of_none hk).symm.trans h
    exact .inl ⟨rfl, rfl⟩
  | some s =>
    cases ht : step s with
    | next t =>
      cases (stepUnit_of_next hk ht).symm.trans h
      exact .inr ⟨s, t, rfl, ht, rfl⟩
    | fault f => simp [stepUnit, hk, ht] at h
    | refused r => simp [stepUnit, hk, ht] at h

/-- The unit that was stepped holds its new state. -/
theorem getElem?_set_of_some {sys : System} {k : Nat} {s : State} (hk : sys[k]? = some s) (t : State) :
    (sys.set k t)[k]? = some t := by
  obtain ⟨hlt, _⟩ := List.getElem?_eq_some_iff.mp hk
  exact List.getElem?_set_self hlt

/-- Settles O54: the step replaces unit `k` by that unit's own step, and reads no other. -/
theorem unitsShareNoState : Obligations.UnitsShareNoState := by
  intro sys sys' k h
  obtain ⟨hk, rfl⟩ | ⟨s, t, hk, ht, rfl⟩ := stepUnit_cases h
  case inl =>
    exact ⟨fun _ _ => rfl, fun s hs => absurd (hk.symm.trans hs) (by simp),
      fun other ho => ⟨other, stepUnit_of_none (ho.trans hk), ho⟩⟩
  case inr =>
    refine ⟨fun j hj => List.getElem?_set_ne (Ne.symm hj), fun u hu => ?alone, fun other ho => ?same⟩
    case alone =>
      cases hk.symm.trans hu
      exact ⟨t, ht, getElem?_set_of_some hk t⟩
    case same =>
      refine ⟨other.set k t, stepUnit_of_next (ho.trans hk) ht, ?_⟩
      rw [getElem?_set_of_some (ho.trans hk), getElem?_set_of_some hk]

end Sys2Proof.Machine

/-! ## Reset and hazards (70_reset_and_hazards.md)

What a command that is no CONSTRUCT leaves behind is either the state it found with an error raised, or what its body made of that
state. So a register is held where the bodies hold it: a unit's data by every body but FINALIZE's, CURSOR by the bodies that run
in BIT mode. -/

namespace Sys2Proof.Machine

open Claims

/-! ### Power-on (R390) -/

/-- Settles O14: each value is a field of `powerOn`, and reset is `powerOn` of the model's own choices. -/
theorem powerOnHoldsTheStatedValues : Obligations.PowerOnHoldsTheStatedValues := by
  refine ⟨fun p r d => ?values, ?reset⟩
  case values =>
    exact ⟨State.powerOn_kind p r d, State.powerOn_mode p r d, State.powerOn_cursor p r d, State.powerOn_bitIdx p r d,
      State.powerOn_len p r d, State.powerOn_cap p r d, State.powerOn_mark p r d, State.powerOn_mem p r d,
      State.powerOn_resp p r d, State.powerOn_fault p r d, State.powerOn_err p r d⟩
  case reset => exact ⟨Config.resetParams, 0, [], rfl⟩

/-! ### What a command that is no CONSTRUCT leaves -/

/-- Everything a command that is no CONSTRUCT can leave: the state it found under an error, or its body's result. -/
theorem runCommand_next {α : Type} {need : KindNeed} {field : Option α} {mode : Mode}
    {body : α → State → Except Response State} {s t : State} (h : runCommand need field mode body s = .next t) :
    (∃ e, t = s.raise e) ∨
      kindTakes need s.kind = true ∧ s.mode = mode ∧
        ∃ f u, field = some f ∧ body f s = .ok u ∧ t = { u with resp := .ok } := by
  rcases runCommand_cases h with
    ⟨hf, ho⟩ | ⟨_, _, ho⟩ | ⟨_, _, _, ho⟩ | ⟨_, _, _, _, ho⟩ | ⟨_, hk, hm, f, hd, ⟨u, hb, ho⟩ | ⟨e, _, ho⟩⟩ <;>
    cases ho
  · exact .inl ⟨.faulted, State.refuseFaulted_eq_raise hf⟩
  · exact .inl ⟨_, rfl⟩
  · exact .inl ⟨_, rfl⟩
  · exact .inl ⟨_, rfl⟩
  · exact .inr ⟨hk, hm, f, u, hd, hb, rfl⟩
  · exact .inl ⟨e, rfl⟩

/-- A command in the mode it does not take leaves the state it found under an error, its body unused. -/
theorem runCommand_next_of_mode_ne {α : Type} {need : KindNeed} {field : Option α} {mode : Mode}
    {body : α → State → Except Response State} {s t : State} (h : runCommand need field mode body s = .next t)
    (hm : s.mode ≠ mode) : ∃ e, t = s.raise e := by
  obtain hraise | ⟨_, hmode, _⟩ := runCommand_next h
  · exact hraise
  · exact absurd hmode hm

/-- Everything PUT_BITS can leave: an error, or the field in the covered storage and BITIDX past it (R238). -/
theorem exec_putBits_next {nbits : BitVec 6} {s t : State} (h : exec (.putBits nbits) s = .next t) :
    (∃ e, t = s.raise e) ∨
      kindTakes .writer s.kind = true ∧ ∃ n u, s.cover (s.bitIdx.toNat >>> 3 + touchedBytes s.bitIdx.toNat n) = .ok u ∧
        t = { u with
          mem := pack u.mem s.bitIdx.toNat n (s.opA.toNat % 2 ^ n), bitIdx := reg (s.bitIdx.toNat + n), resp := .ok } := by
  unfold exec at h
  obtain hraise | ⟨hk, _, n, _, _, hb, rfl⟩ := runCommand_next h
  · exact .inl hraise
  · obtain ⟨u, hu, rfl⟩ := map_ok hb
    exact .inr ⟨hk, n, u, hu, rfl⟩

/-- Everything GET_BITS can leave: an error, or the state with BITIDX past the field and R its value (R239). -/
theorem exec_getBits_next {nbits : BitVec 6} {s t : State} (h : exec (.getBits nbits) s = .next t) :
    (∃ e, t = s.raise e) ∨
      ∃ n, t = { s with
        bitIdx := reg (s.bitIdx.toNat + n), r := zext 32 (unpack s.mem s.bitIdx.toNat n), resp := .ok } := by
  unfold exec at h
  obtain hraise | ⟨_, _, n, u, _, hb, rfl⟩ := runCommand_next h
  · exact .inl hraise
  · simp only at hb
    split at hb
    · cases hb
      exact .inr ⟨n, rfl⟩
    · cases hb

/-! ### CURSOR in BIT mode (R400) -/

theorem State.cover_cursor {need : Nat} {s t : State} (h : s.cover need = .ok t) : t.cursor = s.cursor := by
  obtain ⟨_, ⟨_, rfl⟩ | ⟨_, rfl⟩⟩ := State.cover_ok h
  · rfl
  · exact State.grow_cursor s need

/-- A command of BYTE mode alone makes the checks of R352 for that mode (R162). -/
theorem exec_eq_runCommand_byte {i : Instr} (h : modesOf i = [.byte]) :
    ∃ (α : Type) (need : KindNeed) (field : Option α) (body : α → State → Except Response State),
      ∀ s, exec i s = runCommand need field .byte body s := by
  cases i with
  | constructReader | constructWriter | constructWriterCap | enterByte | putBits | getBits => cases h
  | put | getS | getU | putBlkT | getBlkT => exact ⟨_, _, _, _, fun _ => rfl⟩
  | _ =>
    unfold exec
    exact ⟨Unit, _, _, _, runPlain_eq_runCommand _ _ _⟩

/-- The commands that take BIT mode, besides the CONSTRUCTs (R162). -/
theorem takes_bit_mode_cases {i : Instr} (hc : isConstruct i = false) (h : modesOf i ≠ [.byte]) :
    i = .enterByte ∨ (∃ n, i = .putBits n) ∨ ∃ n, i = .getBits n := by
  cases i with
  | constructReader | constructWriter | constructWriterCap => cases hc
  | enterByte => exact .inl rfl
  | putBits n => exact .inr (.inl ⟨n, rfl⟩)
  | getBits n => exact .inr (.inr ⟨n, rfl⟩)
  | _ => exact absurd rfl h

/-- In BIT mode a command is an error, or a bit command, which moves BITIDX in place of CURSOR. -/
theorem exec_cursor_of_bit_mode {i : Instr} {s t : State} (hm : s.mode = .bit) (h : exec i s = .next t)
    (hc : isConstruct i = false) (hne : i ≠ .enterByte) : t.cursor = s.cursor := by
  by_cases hbyte : modesOf i = [.byte]
  · obtain ⟨_, _, _, _, hrun⟩ := exec_eq_runCommand_byte hbyte
    rw [hrun] at h
    obtain ⟨e, rfl⟩ := runCommand_next_of_mode_ne h (by simp [hm])
    exact State.raise_cursor s e
  · obtain rfl | ⟨n, rfl⟩ | ⟨n, rfl⟩ := takes_bit_mode_cases hc hbyte
    · exact absurd rfl hne
    · obtain ⟨e, rfl⟩ | ⟨_, _, u, hu, rfl⟩ := exec_putBits_next h
      · exact State.raise_cursor s e
      · exact (State.cover_cursor hu : u.cursor = s.cursor)
    · obtain ⟨e, rfl⟩ | ⟨_, rfl⟩ := exec_getBits_next h
      · exact State.raise_cursor s e
      · rfl

/-- Settles O19: the first clause is `exec_cursor_of_bit_mode`; the others are the BIT mode clauses of O24 and O23. -/
theorem bitModeHoldsTheCursor : Obligations.BitModeHoldsTheCursor := by
  intro s hm
  refine ⟨fun _ _ => exec_cursor_of_bit_mode hm, fun hf hk => ?markAndReset, fun hf hk => ?finalize⟩
  case markAndReset =>
    obtain ⟨_, _, hclauses⟩ := markAndResetCursorCopyTheCursor
    obtain ⟨_, _, hbit⟩ := hclauses s hf
    exact hbit hk hm
  case finalize =>
    obtain ⟨_, _, hclauses⟩ := finalizeKeepsTheWritersBytes
    obtain ⟨_, _, hbit⟩ := hclauses s hf .finalizeExact s.cursor (.inl ⟨rfl, rfl⟩)
    exact hbit hk hm

/-! ### The data of a unit (R404) -/

/-- From `s` to `t` KIND and LEN stay, a reader's Mem stays, and CAP does not drop (R404). -/
structure KeepsData (s t : State) : Prop where
  kind : t.kind = s.kind
  len : t.len = s.len
  mem : s.kind = .reader → t.mem = s.mem
  cap : s.cap.toNat ≤ t.cap.toNat

theorem keepsData_of_eq {s t : State} (hkind : t.kind = s.kind) (hlen : t.len = s.len) (hmem : t.mem = s.mem)
    (hcap : t.cap = s.cap) : KeepsData s t :=
  ⟨hkind, hlen, fun _ => hmem, by rw [hcap]⟩

theorem keepsData_raise (s : State) (e : Response) : KeepsData s (s.raise e) := keepsData_of_eq rfl rfl rfl rfl

/-- An error keeps the data, so a command does if its body does on the KINDs it takes. -/
theorem keepsData_of_runCommand {α : Type} {need : KindNeed} {field : Option α} {mode : Mode}
    {body : α → State → Except Response State} {s t : State} (h : runCommand need field mode body s = .next t)
    (hbody : ∀ f u, kindTakes need s.kind = true → body f s = .ok u → KeepsData s u) : KeepsData s t := by
  obtain ⟨e, rfl⟩ | ⟨hk, _, f, u, _, hb, rfl⟩ := runCommand_next h
  · exact keepsData_raise s e
  · obtain ⟨hkind, hlen, hmem, hcap⟩ := hbody f u hk hb
    exact ⟨hkind, hlen, hmem, hcap⟩

theorem keepsData_of_runPlain {need : KindNeed} {mode : Mode} {body : State → Except Response State} {s t : State}
    (h : runPlain need mode body s = .next t)
    (hbody : ∀ u, kindTakes need s.kind = true → body s = .ok u → KeepsData s u) : KeepsData s t :=
  keepsData_of_runCommand h fun _ => hbody

/-! The reads move CURSOR and set R or DOUT. -/

theorem keepsData_of_take {n : Nat} {s : State} {x : List Byte × State} (h : s.take n = .ok x) : KeepsData s x.2 := by
  obtain ⟨_, _, hx⟩ := State.take_ok h
  rw [hx]
  exact keepsData_of_eq rfl rfl rfl rfl

theorem keepsData_of_readScalar {widen : Nat → Nat → DWord} {f : ScalarField} {s t : State}
    (h : s.readScalar widen f = .ok t) : KeepsData s t := by
  obtain ⟨_, rfl⟩ := State.readScalar_ok h
  exact keepsData_of_eq rfl rfl rfl rfl

/-- A number read behind a smart or a chain that moved CURSOR alone, put into R by `toR`. -/
theorem keepsData_of_map_r {α : Type} {read : Except Response (α × State)} {toR : α → DWord} {s t : State}
    (hread : ∀ x, read = .ok x → x.2 = { s with cursor := x.2.cursor })
    (h : read.map (fun x => { x.2 with r := toR x.1 }) = .ok t) : KeepsData s t := by
  obtain ⟨x, hx, rfl⟩ := map_ok h
  rw [hread x hx]
  exact keepsData_of_eq rfl rfl rfl rfl

theorem State.takeSmart_frame {short long : Nat} {s : State} {x : (Bool × Nat) × State}
    (h : s.takeSmart short long = .ok x) : x.2 = { s with cursor := x.2.cursor } := by
  obtain ⟨_, _, rfl⟩ := State.takeSmart_ok h
  rfl

theorem keepsData_readString (s : State) : KeepsData s s.readString := keepsData_of_eq rfl rfl rfl rfl

theorem keepsData_of_readBlock {f : List Byte → List Byte} {s t : State} (h : s.readBlock f = .ok t) :
    KeepsData s t := by
  obtain ⟨_, rfl⟩ := State.readBlock_ok h
  exact keepsData_of_eq rfl rfl rfl rfl

/-- GET_FSTR takes a zero byte and nothing else, or reads a string (R313). -/
theorem keepsData_of_getFstr {s t : State} (h : exec .getFstr s = .next t) : KeepsData s t := by
  unfold exec at h
  refine keepsData_of_runPlain h fun u _ hb => ?_
  simp only at hb
  split at hb
  · cases hb
  · split at hb
    · obtain ⟨x, hx, rfl⟩ := map_ok hb
      obtain ⟨hkind, hlen, hmem, hcap⟩ := keepsData_of_take hx
      exact ⟨hkind, hlen, hmem, hcap⟩
    · cases hb
      exact keepsData_readString s

/-! The writes are on a writer, whose Mem the rule leaves free; they change CAP by `cover` alone. -/

/-- A writer's storage may be written once `cover` has made room: CAP can only have grown (R15). -/
theorem keepsData_of_cover {need : Nat} {s u t : State} (hp : s.params.legal) (hk : kindTakes .writer s.kind = true)
    (h : s.cover need = .ok u) (hkind : t.kind = u.kind) (hlen : t.len = u.len) (hcap : t.cap = u.cap) :
    KeepsData s t := by
  obtain ⟨_, hmono, _, _⟩ := State.cover_cap hp h
  have hwriter := kindTakes_writer_iff.mp hk
  have hsame : u.kind = s.kind ∧ u.len = s.len := by
    obtain ⟨_, ⟨_, rfl⟩ | ⟨_, rfl⟩⟩ := State.cover_ok h
    · exact ⟨rfl, rfl⟩
    · exact ⟨State.grow_kind s need, State.grow_len s need⟩
  exact ⟨hkind.trans hsame.1, hlen.trans hsame.2, fun hr => by simp [hwriter] at hr, by rw [hcap]; exact hmono⟩

theorem keepsData_of_emitSized {n : Nat} {bytes : Unit → List Byte} {s t : State} (hp : s.params.legal)
    (hk : kindTakes .writer s.kind = true) (h : s.emitSized n bytes = .ok t) : KeepsData s t := by
  obtain ⟨_, hu, rfl⟩ := State.emitSized_ok h
  exact keepsData_of_cover hp hk hu rfl rfl rfl

theorem keepsData_of_emit {bytes : List Byte} {s t : State} (hp : s.params.legal)
    (hk : kindTakes .writer s.kind = true) (h : s.emit bytes = .ok t) : KeepsData s t :=
  keepsData_of_emitSized hp hk h

theorem keepsData_of_writeString {s t : State} (hp : s.params.legal) (hk : kindTakes .writer s.kind = true)
    (h : s.writeString = .ok t) : KeepsData s t := by
  by_cases hz : 0#8 ∈ s.opDin
  · cases (State.writeString_of_mem hz).symm.trans h
  · exact keepsData_of_emit hp hk ((State.writeString_of_not_mem hz).symm.trans h)

/-- A smart is written behind a check of A's range. -/
theorem keepsData_of_requireRange {lo hi : Int} {body : Int → State → Except Response State} {s t : State}
    (hbody : ∀ v, body v s = .ok t → KeepsData s t) (h : State.requireRange lo hi body s = .ok t) : KeepsData s t := by
  by_cases hr : lo ≤ s.opA.toInt ∧ s.opA.toInt ≤ hi
  · exact hbody _ ((State.requireRange_of_mem hr).symm.trans h)
  · cases (State.requireRange_of_not_mem hr).symm.trans h

theorem keepsData_of_putBits {nbits : BitVec 6} {s t : State} (hp : s.params.legal)
    (h : exec (.putBits nbits) s = .next t) : KeepsData s t := by
  obtain ⟨e, rfl⟩ | ⟨hk, _, _, hu, rfl⟩ := exec_putBits_next h
  · exact keepsData_raise s e
  · exact keepsData_of_cover hp hk hu rfl rfl rfl

theorem keepsData_of_getBits {nbits : BitVec 6} {s t : State} (h : exec (.getBits nbits) s = .next t) :
    KeepsData s t := by
  obtain ⟨e, rfl⟩ | ⟨_, rfl⟩ := exec_getBits_next h
  · exact keepsData_raise s e
  · exact keepsData_of_eq rfl rfl rfl rfl

/-- The commands by what their bodies are made of; only a CONSTRUCT and a FINALIZE replace the data. -/
theorem exec_keepsData {i : Instr} {s t : State} (hp : s.params.legal) (h : exec i s = .next t)
    (hc : isConstruct i = false) (hf : isFinalize i = false) : KeepsData s t := by
  unfold exec at h
  cases i with
  | constructReader | constructWriter | constructWriterCap => cases hc
  | finalizeExact | finalizeFull => cases hf
  | mark | resetCursor | enterBit | enterByte =>
    refine keepsData_of_runPlain h fun u _ hb => ?_
    cases hb
    exact keepsData_of_eq rfl rfl rfl rfl
  | put | putBlkT => exact keepsData_of_runCommand h fun _ _ hk => keepsData_of_emit hp hk
  | putBlk | putBlkRev => exact keepsData_of_runPlain h fun _ hk => keepsData_of_emit hp hk
  | putStr | putFstr => exact keepsData_of_runPlain h fun _ hk => keepsData_of_writeString hp hk
  | putUsmart | putSsmart | putXsmart | putBsmart =>
    exact keepsData_of_runPlain h fun _ hk =>
      keepsData_of_requireRange fun _ => keepsData_of_emitSized hp hk
  | putBits => exact keepsData_of_putBits hp h
  | getBits => exact keepsData_of_getBits h
  | getS | getU => exact keepsData_of_runCommand h fun _ _ _ => keepsData_of_readScalar
  | getUsmart =>
    exact keepsData_of_runPlain h fun _ _ => keepsData_of_map_r fun _ hx => (State.usmartRead_cursor hx).1
  | getSsmart =>
    exact keepsData_of_runPlain h fun _ _ => keepsData_of_map_r
      (toR := fun v => BitVec.ofInt 64 (ssmartValue v)) fun _ => State.takeSmart_frame
  | getBsmart =>
    exact keepsData_of_runPlain h fun _ _ => keepsData_of_map_r
      (toR := fun v => zext 32 (bsmartValue v)) fun _ => State.takeSmart_frame
  | getXsmart =>
    exact keepsData_of_runPlain h fun _ _ => keepsData_of_map_r (toR := id) fun _ hx => (xsmartLoop_ok hx).1
  | getStr =>
    refine keepsData_of_runPlain h fun u _ hb => ?_
    cases hb
    exact keepsData_readString s
  | getFstr => exact keepsData_of_getFstr h
  | getBlk | getBlkRev => exact keepsData_of_runPlain h fun _ _ => keepsData_of_readBlock
  | getBlkT => exact keepsData_of_runCommand h fun _ _ _ => keepsData_of_readBlock

/-- Settles O17: `exec_keepsData`, field by field. -/
theorem readerDataIsFixedAndCapacityOnlyGrows : Obligations.ReaderDataIsFixedAndCapacityOnlyGrows := by
  intro i s t hp h hc hf
  obtain ⟨hkind, hlen, hmem, hcap⟩ := exec_keepsData hp h hc hf
  exact ⟨hkind, hlen, hmem, hcap⟩

end Sys2Proof.Machine

/-! ## The command word (30_encoding.md)

Each of the four masks of R98 is read in both directions: a word made of the fields the mask leaves free passes the check, and a
word that passes it is made of those fields. With the rows found by their OP this gives both directions of the encoding. -/

namespace Sys2Proof

open Machine Claims

/-! ### A word made of the fields a mask leaves free passes the check (R98) -/

theorem and_fullMask (w : Word) : w &&& fullMask = w := BitVec.and_allOnes

theorem commandWord_of_op (op : BitVec 8) : commandWord op 0 0 0 0 = op.setWidth 32 := by
  simp [commandWord]

theorem commandWord_and_fullMask (op : BitVec 8) : commandWord op 0 0 0 0 &&& fullMask = op.setWidth 32 := by
  rw [and_fullMask, commandWord_of_op]

theorem commandWord_and_scalarMask (op : BitVec 8) (wid : BitVec 4) (ord tr : BitVec 3) :
    commandWord op wid ord tr 0 &&& scalarMask = op.setWidth 32 := by
  refine BitVec.eq_of_getLsbD_eq fun k hk => ?_
  rw [BitVec.getLsbD_and, getLsbD_commandWord]
  interval_cases k <;> simp [scalarMask]

theorem commandWord_and_bitsMask (op : BitVec 8) (nbits : BitVec 6) :
    commandWord op 0 0 0 nbits &&& bitsMask = op.setWidth 32 := by
  refine BitVec.eq_of_getLsbD_eq fun k hk => ?_
  rw [BitVec.getLsbD_and, getLsbD_commandWord]
  interval_cases k <;> simp [bitsMask]

theorem commandWord_and_transformMask (op : BitVec 8) (tr : BitVec 3) :
    commandWord op 0 0 tr 0 &&& transformMask = op.setWidth 32 := by
  refine BitVec.eq_of_getLsbD_eq fun k hk => ?_
  rw [BitVec.getLsbD_and, getLsbD_commandWord]
  interval_cases k <;> simp [transformMask]

/-! ### A word that passes the check is made of those fields (R98) -/

/-- What a mask's check says of one bit of the word. -/
theorem getLsbD_of_and_eq {w m : Word} {op : BitVec 8} (h : w &&& m = op.setWidth 32) {k : Nat} (hm : m.getLsbD k = true) :
    w.getLsbD k = (decide (k < 32) && op.getLsbD k) := by
  rw [← BitVec.getLsbD_setWidth, ← h, BitVec.getLsbD_and, hm, Bool.and_true]

theorem commandWord_of_and_fullMask {w : Word} {op : BitVec 8} (h : w &&& fullMask = op.setWidth 32) :
    commandWord op 0 0 0 0 = w := by
  rw [commandWord_of_op, ← h, and_fullMask]

theorem commandWord_of_and_scalarMask {w : Word} {op : BitVec 8} (h : w &&& scalarMask = op.setWidth 32) :
    commandWord op (widField w) (ordField w) (trField w) 0 = w := by
  refine BitVec.eq_of_getLsbD_eq fun k hk => ?_
  have hbit := getLsbD_of_and_eq h (k := k)
  rw [getLsbD_commandWord]
  interval_cases k <;> simp_all [scalarMask, widField, ordField, trField]

theorem commandWord_of_and_bitsMask {w : Word} {op : BitVec 8} (h : w &&& bitsMask = op.setWidth 32) :
    commandWord op 0 0 0 (nbitsField w) = w := by
  refine BitVec.eq_of_getLsbD_eq fun k hk => ?_
  have hbit := getLsbD_of_and_eq h (k := k)
  rw [getLsbD_commandWord]
  interval_cases k <;> simp_all [bitsMask, nbitsField]

theorem commandWord_of_and_transformMask {w : Word} {op : BitVec 8} (h : w &&& transformMask = op.setWidth 32) :
    commandWord op 0 0 (trField w) 0 = w := by
  refine BitVec.eq_of_getLsbD_eq fun k hk => ?_
  have hbit := getLsbD_of_and_eq h (k := k)
  rw [getLsbD_commandWord]
  interval_cases k <;> simp_all [transformMask, trField]

/-! ### The row of a command -/

/-- A word whose OP finds a row and which passes that row's check spells what the row builds (R98). -/
theorem decode_commandWord {op : BitVec 8} {wid : BitVec 4} {ord tr : BitVec 3} {nbits : BitVec 6} {m : Word}
    {build : Word → Instr} {i : Instr} (hrow : opcodeMap.find? (fun r => r.op == op) = some ⟨op, m, build⟩)
    (hmask : commandWord op wid ord tr nbits &&& m = op.setWidth 32)
    (hbuild : build (commandWord op wid ord tr nbits) = i) : decode (commandWord op wid ord tr nbits) = .ok i := by
  simp only [decode, opcode_commandWord, hrow, if_pos hmask, hbuild]

/-- Settles O1: the word's OP finds the command's row, the row's mask lets the command's fields pass, and the row's fields read
them back. -/
theorem decodeOfEncodeGivesTheCommand : Obligations.DecodeOfEncodeGivesTheCommand := by
  intro i
  unfold encode
  cases i with
  | put | getS | getU => exact decode_commandWord rfl (commandWord_and_scalarMask _ _ _ _) (by simp)
  | putBits | getBits => exact decode_commandWord rfl (commandWord_and_bitsMask _ _) (by simp)
  | putBlkT | getBlkT => exact decode_commandWord rfl (commandWord_and_transformMask _ _) (by simp)
  | _ => exact decode_commandWord rfl (commandWord_and_fullMask _) rfl

/-- The word of the command a row builds from a word that passes the row's check is that word. -/
theorem encode_build_of_mem_opcodeMap {w : Word} :
    ∀ r ∈ opcodeMap, w &&& r.mask = r.op.setWidth 32 → encode (r.build w) = w := by
  have full (op : BitVec 8) := @commandWord_of_and_fullMask w op
  have scalar (op : BitVec 8) := @commandWord_of_and_scalarMask w op
  have bits (op : BitVec 8) := @commandWord_of_and_bitsMask w op
  have transform (op : BitVec 8) := @commandWord_of_and_transformMask w op
  simp only [opcodeMap, lifecycleRows, fieldRows, smartRows, blockRows, List.cons_append, List.nil_append,
    List.forall_mem_cons, encode]
  exact ⟨full _, full _, full _, full _, full _, full _, full _, full _, full _,
    scalar _, scalar _, scalar _, bits _, bits _,
    full _, full _, full _, full _, full _, full _, full _, full _,
    full _, full _, full _, full _, full _, full _, full _, full _, transform _, transform _, List.forall_mem_nil _⟩

/-- Everything a word that decodes satisfies: it passes the check of a row, which builds the command. -/
theorem exists_row_of_decode_ok {w : Word} {i : Instr} (h : decode w = .ok i) :
    ∃ r ∈ opcodeMap, w &&& r.mask = r.op.setWidth 32 ∧ r.build w = i := by
  unfold decode at h
  split at h
  · cases h
  · rename_i r hr
    split at h
    · rename_i hmask
      exact ⟨r, List.mem_of_find?_eq_some hr, hmask, Except.ok.inj h⟩
    · cases h

/-- Settles O2: the row that decoded the word builds a command with that word. -/
theorem encodeOfDecodeGivesTheWord : Obligations.EncodeOfDecodeGivesTheWord := by
  intro w i h
  obtain ⟨r, hr, hmask, rfl⟩ := exists_row_of_decode_ok h
  exact encode_build_of_mem_opcodeMap r hr hmask

theorem opcode_eq_ofNat_opOf (w : Word) : opcode w = BitVec.ofNat 8 (opOf w) := by
  rw [← toNat_opcode, BitVec.ofNat_toNat, BitVec.setWidth_eq]

/-- Settles O3: the rejections are those of the decoder's row; a word that passes decodes, and by O2 its command has that word. -/
theorem decodeFollowsTheOpcodeMasks : Obligations.DecodeFollowsTheOpcodeMasks := by
  intro w
  cases hmask : opMask (opOf w) with
  | none =>
    simp only
    rw [decode_of_opMask_eq_none hmask, opcode_eq_ofNat_opOf]
  | some m =>
    simp only
    split
    · rename_i hmatch
      have hspells : ¬ spellsNoCommand w := by simp [spellsNoCommand, hmask, hmatch]
      obtain ⟨r, -, -, hdecode⟩ := decode_of_not_spellsNoCommand hspells
      exact ⟨r.build w, hdecode, by rw [encodeOfDecodeGivesTheWord w _ hdecode]⟩
    · rename_i hne
      rw [decode_of_masked_ne hmask hne, opcode_eq_ofNat_opOf]

theorem decode_eq_of_encode_eq {w : Word} {i : Instr} (h : encode i = w) : decode w = .ok i :=
  h ▸ decodeOfEncodeGivesTheCommand i

/-- Settles O4: eleven words are the encodings of their commands; the last has a WID bit a smart's mask does not leave free. -/
theorem specWordsDecodeToTheirCommands : Obligations.SpecWordsDecodeToTheirCommands :=
  ⟨decode_eq_of_encode_eq rfl, decode_eq_of_encode_eq rfl, decode_eq_of_encode_eq rfl, decode_eq_of_encode_eq rfl,
    decode_eq_of_encode_eq rfl, decode_eq_of_encode_eq rfl, decode_eq_of_encode_eq rfl, decode_eq_of_encode_eq rfl,
    decode_eq_of_encode_eq rfl, decode_eq_of_encode_eq rfl, decode_eq_of_encode_eq rfl,
    decode_of_masked_ne (m := fullMask) rfl (by decide)⟩

end Sys2Proof

/-! ## Field codes and one step (30_encoding.md, 20_memory.md)

A field's codes stand for a value exactly where they are legal. A step is the check of DIN, the decoder and `exec`, which always
answers. -/

namespace Sys2Proof.Machine

open Claims

/-! ### Field codes (R92 to R95, R99) -/

theorem widthOf_eq : ∀ wid, widthOf wid = if legalWid wid then some (widthName wid.toNat) else none := by decide

theorem orderOf_eq : ∀ ord, orderOf ord = if legalOrd ord then some (orderName ord.toNat) else none := by decide

theorem transformOf_eq : ∀ tr, transformOf tr = if legalTr tr then some (transformName tr.toNat) else none := by decide

theorem widthBytes_widthName : ∀ wid, legalWid wid → widthBytes (widthName wid.toNat) = wid.toNat := by decide

theorem widthName_eq_w4_iff : ∀ wid, legalWid wid → (widthName wid.toNat = .w4 ↔ wid = 4#4) := by decide

theorem widthName_eq_w8_iff : ∀ wid, legalWid wid → (widthName wid.toNat = .w8 ↔ wid = 8#4) := by decide

theorem orderName_middle_iff :
    ∀ ord, legalOrd ord →
      (orderName ord.toNat = .middle ∨ orderName ord.toNat = .inverseMiddle ↔ ord = 2#3 ∨ ord = 3#3) := by
  decide

theorem transformName_eq_none_iff : ∀ tr, legalTr tr → (transformName tr.toNat = .none ↔ tr = 0#3) := by decide

/-- R99 1 and 2, of the parameters. -/
theorem combines_iff (f : ScalarField) :
    combines f = true ↔ (f.order = .middle ∨ f.order = .inverseMiddle → f.width = .w4 ∧ f.transform = .none) := by
  cases ho : f.order <;> simp [combines, ho]

/-- R99 1 and 2, of the codes. -/
theorem combines_name_iff {wid : BitVec 4} {ord tr : BitVec 3} (hw : legalWid wid) (ho : legalOrd ord) (ht : legalTr tr) :
    combines ⟨widthName wid.toNat, orderName ord.toNat, transformName tr.toNat⟩ = true ↔ legalCombination wid ord tr := by
  rw [combines_iff, orderName_middle_iff ord ho, widthName_eq_w4_iff wid hw, transformName_eq_none_iff tr ht]

theorem scalarField_eq (wid : BitVec 4) (ord tr : BitVec 3) :
    scalarField wid ord tr =
      if legalScalar wid ord tr then some ⟨widthName wid.toNat, orderName ord.toNat, transformName tr.toNat⟩ else none := by
  unfold scalarField
  rw [widthOf_eq, orderOf_eq, transformOf_eq]
  by_cases hcodes : legalWid wid ∧ legalOrd ord ∧ legalTr tr
  · obtain ⟨hw, ho, ht⟩ := hcodes
    rw [if_pos hw, if_pos ho, if_pos ht]
    simp only [combines_name_iff hw ho ht, legalScalar, hw, ho, ht, true_and]
  · rw [if_neg fun h : legalScalar wid ord tr => hcodes ⟨h.1, h.2.1, h.2.2.1⟩]
    split
    · rename_i hw ho ht
      exact absurd ⟨(Option.ite_none_right_eq_some.mp hw).1, (Option.ite_none_right_eq_some.mp ho).1,
        (Option.ite_none_right_eq_some.mp ht).1⟩ hcodes
    · rfl

theorem unsignedField_eq (wid : BitVec 4) (ord tr : BitVec 3) :
    unsignedField wid ord tr =
      if legalScalar wid ord tr ∧ wid ≠ 8#4 then
        some ⟨widthName wid.toNat, orderName ord.toNat, transformName tr.toNat⟩
      else none := by
  unfold unsignedField
  rw [scalarField_eq]
  by_cases hlegal : legalScalar wid ord tr
  · rw [if_pos hlegal]
    simp only [widthName_eq_w8_iff wid hlegal.1, and_iff_right hlegal, ite_not]
  · simp [hlegal]

/-- Settles O5: each code by its own table, and a combination by the parameters it names. -/
theorem fieldCodesStandForTheirParameters : Obligations.FieldCodesStandForTheirParameters :=
  ⟨scalarField_eq, unsignedField_eq, widthBytes_widthName, fun _ => rfl, transformOf_eq⟩

/-! ### One step (R19, R71, R364, R394) -/

/-- Settles O6: `load` presents the operands and takes the command from the port. -/
theorem stepRunsTheDecodedCommand : Obligations.StepRunsTheDecodedCommand :=
  fun _ _ _ _ => step_of_decode_ok

/-- Settles O7: with an empty port `step` answers the state it found. -/
theorem idleUnitKeepsItsState : Obligations.IdleUnitKeepsItsState := by
  intro s hp
  simp only [step, hp]

/-- Settles O10: a CONSTRUCT builds or fails, any other command raises or completes. -/
theorem execAlwaysAnswersANextState : Obligations.ExecAlwaysAnswersANextState := by
  intro i s
  cases hc : isConstruct i with
  | true =>
    obtain ⟨_, _, _, _, h⟩ | h := exec_construct_cases hc s
    · exact ⟨_, h⟩
    · exact ⟨_, h⟩
  | false =>
    obtain ⟨_, need, field, mode, body, hrun⟩ := exec_eq_runCommand hc
    rw [hrun]
    obtain ⟨_, h⟩ | ⟨_, h⟩ := runCommand_raises_or_completes need field mode body s
    · exact ⟨_, h⟩
    · exact ⟨_, h⟩

theorem step_of_overlong {s : State} {c : Command} {rest : List Command} (hp : s.pending = c :: rest)
    (hd : s.params.maxCapacity < c.din.length) : step s = .refused .dinTooLong := by
  simp [step, hp, State.admits, Nat.not_le.mpr hd]

/-- Settles O8: an admitted word is run or rejected, and either answers a next state. -/
theorem onlyAnOverlongDinIsRefused : Obligations.OnlyAnOverlongDinIsRefused := by
  intro s c rest hp
  refine ⟨step_of_overlong hp, fun hd => ?_⟩
  cases hw : decode c.cmd with
  | ok i =>
    rw [step_of_decode_ok hp hd hw]
    exact execAlwaysAnswersANextState i _
  | error e => exact ⟨_, step_of_decode_error hp hd hw⟩

end Sys2Proof.Machine

/-! ## What a command does: its checks and its effect (10_state.md, 60_exceptions.md)

Every command but a CONSTRUCT makes the checks of its row of R97 and then either raises an error or has one of eleven effects on
the state. Both are said once, for all commands; the order of the checks, the fields each command may write and the invariant are
read off them. -/

namespace Sys2Proof.Machine

open Claims

/-! ### The effects -/

/-- What command `i` makes of state `s` when it completes, before RESP is set. A write is the `emit` of some bytes; of a read, all
that is said is where it may leave CURSOR and how long DOUT may be. -/
inductive Effect : Instr → State → State → Prop where
  | mark (s : State) : Effect .mark s { s with mark := s.cursor }
  | resetCursor (s : State) : Effect .resetCursor s { s with cursor := s.mark }
  | enterBit (s : State) : Effect .enterBit s { s with bitIdx := reg (s.cursor.toNat * 8), mode := .bit }
  | enterByte (s : State) : Effect .enterByte s { s with cursor := reg ((s.bitIdx.toNat + 7) / 8), mode := .byte }
  | finalizeExact (s : State) : Effect .finalizeExact s (s.finalize s.cursor)
  | finalizeFull (s : State) : Effect .finalizeFull s (s.finalize s.cap)
  | emit {i : Instr} {s u : State} {n : Nat} {bytes : Unit → List Byte} (hi : writesMem i = true)
      (hmode : modesOf i = [.byte]) (hlen : (bytes ()).length = n) (h : s.emitSized n bytes = .ok u) : Effect i s u
  | putBits (nbits : BitVec 6) {s u : State} (n : Nat)
      (h : s.cover (s.bitIdx.toNat >>> 3 + touchedBytes s.bitIdx.toNat n) = .ok u) :
      Effect (.putBits nbits) s { u with
        mem := pack u.mem s.bitIdx.toNat n (s.opA.toNat % 2 ^ n), bitIdx := reg (s.bitIdx.toNat + n) }
  | getNumber {i : Instr} {s : State} {c : DWord} (v : DWord) (hi : writesR i = true) (hmode : modesOf i = [.byte])
      (hmin : s.cursor.toNat ≤ c.toNat) (hmax : c.toNat ≤ s.len.toNat) : Effect i s { s with cursor := c, r := v }
  | getBits (nbits : BitVec 6) {s : State} {n : Nat} (v : DWord)
      (h : s.bitIdx.toNat >>> 3 + touchedBytes s.bitIdx.toNat n ≤ s.len.toNat) :
      Effect (.getBits nbits) s { s with bitIdx := reg (s.bitIdx.toNat + n), r := v }
  | getBytes {i : Instr} {s : State} {c : DWord} {d : List Byte} (hi : writesDout i = true)
      (h : s.cursor.toNat ≤ s.len.toNat →
        s.cursor.toNat ≤ c.toNat ∧ c.toNat ≤ s.len.toNat ∧ d.length ≤ s.len.toNat) :
      Effect i s { s with cursor := c, dout := d }

/-- What a command's body answers: the command's effect, or an error of the operands or of the storage (R352 7 and 8). -/
def BodyAnswers (i : Instr) (s : State) : Except Response State → Prop
  | .ok u => Effect i s u
  | .error e => e = .boundsError ∨ e = .rangeError

theorem bodyAnswers_ok {i : Instr} {s u : State} (h : Effect i s u) : BodyAnswers i s (.ok u) := h

theorem bodyAnswers_of_cases {i : Instr} {s : State} {x : Except Response State} (hok : ∀ u, x = .ok u → Effect i s u)
    (herror : ∀ e, x = .error e → e = .boundsError ∨ e = .rangeError) : BodyAnswers i s x := by
  cases x with
  | ok u => exact hok u rfl
  | error e => exact herror e rfl

/-! ### The bodies: writes -/

theorem bodyAnswers_emitSized {i : Instr} {s : State} {n : Nat} {bytes : Unit → List Byte} (hi : writesMem i = true)
    (hmode : modesOf i = [.byte]) (hlen : (bytes ()).length = n) : BodyAnswers i s (s.emitSized n bytes) :=
  bodyAnswers_of_cases (fun _ h => .emit hi hmode hlen h) fun _ h => .inl (State.emitSized_error h).1

theorem bodyAnswers_emit {i : Instr} {s : State} (bytes : List Byte) (hi : writesMem i = true)
    (hmode : modesOf i = [.byte]) : BodyAnswers i s (s.emit bytes) :=
  bodyAnswers_emitSized hi hmode rfl

theorem bodyAnswers_requireRange {i : Instr} {s : State} {lo hi : Int} {body : Int → State → Except Response State}
    (h : ∀ v, BodyAnswers i s (body v s)) : BodyAnswers i s (State.requireRange lo hi body s) := by
  unfold State.requireRange
  split
  · exact h _
  · exact .inr rfl

theorem bodyAnswers_writeString {i : Instr} {s : State} (hi : writesMem i = true) (hmode : modesOf i = [.byte]) :
    BodyAnswers i s s.writeString := by
  by_cases hz : 0#8 ∈ s.opDin
  · rw [State.writeString_of_mem hz]
    exact .inr rfl
  · rw [State.writeString_of_not_mem hz]
    exact bodyAnswers_emit _ hi hmode

/-! ### The bodies: reads -/

theorem bodyAnswers_readScalar {i : Instr} {s : State} (widen : Nat → Nat → DWord) (f : ScalarField)
    (hi : writesR i = true) (hmode : modesOf i = [.byte]) : BodyAnswers i s (s.readScalar widen f) := by
  refine bodyAnswers_of_cases (fun u h => ?_) fun e h => .inl (State.readScalar_error h).1
  obtain ⟨hle, rfl⟩ := State.readScalar_ok h
  have hcursor := State.take_cursor hle
  exact .getNumber _ hi hmode (by omega) (by omega)

/-- Everything a smart read changes: CURSOR, forward, to LEN at most. -/
theorem State.takeSmart_cursor {short long : Nat} {s : State} {x : (Bool × Nat) × State} (h : s.takeSmart short long = .ok x) :
    x.2 = { s with cursor := x.2.cursor } ∧ s.cursor.toNat ≤ x.2.cursor.toNat ∧ x.2.cursor.toNat ≤ s.len.toNat := by
  obtain ⟨_, hle, rfl⟩ := State.takeSmart_ok h
  have hcursor := State.take_cursor hle
  exact ⟨rfl, by simp only; omega, by simp only; omega⟩

/-- A number read by moving CURSOR alone, put into R by `toR`. -/
theorem bodyAnswers_map_r {i : Instr} {s : State} {α : Type} {read : Except Response (α × State)} {toR : α → DWord}
    (hi : writesR i = true) (hmode : modesOf i = [.byte]) (herror : ∀ e, read = .error e → e = .boundsError)
    (hread : ∀ x, read = .ok x →
      x.2 = { s with cursor := x.2.cursor } ∧ s.cursor.toNat ≤ x.2.cursor.toNat ∧ x.2.cursor.toNat ≤ s.len.toNat) :
    BodyAnswers i s (read.map fun x => { x.2 with r := toR x.1 }) := by
  refine bodyAnswers_of_cases (fun u h => ?_) fun e h => .inl (herror e (map_error h))
  obtain ⟨x, hx, rfl⟩ := map_ok h
  obtain ⟨hframe, hmin, hmax⟩ := hread x hx
  rw [hframe]
  exact .getNumber _ hi hmode hmin hmax

theorem bodyAnswers_takeSmart {i : Instr} {s : State} (short long : Nat) (toR : Bool × Nat → DWord) (hi : writesR i = true)
    (hmode : modesOf i = [.byte]) :
    BodyAnswers i s ((s.takeSmart short long).map fun x => { x.2 with r := toR x.1 }) :=
  bodyAnswers_map_r hi hmode (fun _ => State.takeSmart_error) fun _ => State.takeSmart_cursor

theorem State.usmartRead_advances {s : State} {x : Nat × State} (h : s.usmartRead = .ok x) :
    x.2 = { s with cursor := x.2.cursor } ∧ s.cursor.toNat ≤ x.2.cursor.toNat ∧ x.2.cursor.toNat ≤ s.len.toNat := by
  obtain ⟨hframe, hlt, hle⟩ := State.usmartRead_cursor h
  exact ⟨hframe, hlt.le, hle⟩

theorem State.xsmartRead_advances {s : State} {x : DWord × State} (h : s.xsmartRead = .ok x) :
    x.2 = { s with cursor := x.2.cursor } ∧ s.cursor.toNat ≤ x.2.cursor.toNat ∧ x.2.cursor.toNat ≤ s.len.toNat := by
  obtain ⟨hframe, hlt, hle⟩ := xsmartLoop_ok h
  exact ⟨hframe, hlt.le, hle⟩

theorem bodyAnswers_readString {i : Instr} {s : State} (hi : writesDout i = true) : BodyAnswers i s (.ok s.readString) :=
  .getBytes hi fun h => (State.readString_frame h).2

theorem bodyAnswers_readBlock {i : Instr} {s : State} {f : List Byte → List Byte} (hf : ∀ l, (f l).length = l.length)
    (hi : writesDout i = true) : BodyAnswers i s (s.readBlock f) := by
  refine bodyAnswers_of_cases (fun u h => ?_) fun e h => .inl (State.readBlock_error h).1
  obtain ⟨hle, rfl⟩ := State.readBlock_ok h
  have hcursor := State.take_cursor hle
  exact .getBytes hi fun _ => ⟨by omega, by omega, by rw [hf, Memory.length_readBytes]; omega⟩

/-- What GET_FSTR does behind its checks (R313). -/
def State.readFlagged (s : State) : Except Response State :=
  match s.peek with
  | .error e => .error e
  | .ok b0 => if b0 = 0#8 then (s.take 1).map (fun x => { x.2 with dout := [] }) else .ok s.readString

theorem exec_getFstr (s : State) : exec .getFstr s = runPlain .reader .byte State.readFlagged s := rfl

theorem State.readFlagged_of_ge {s : State} (h : s.len.toNat ≤ s.cursor.toNat) : s.readFlagged = .error .boundsError := by
  simp only [State.readFlagged, State.peek_of_ge h]

theorem State.readFlagged_of_zero {s : State} (h : s.cursor.toNat < s.len.toNat) (hz : s.mem.read s.cursor.toNat = 0#8) :
    s.readFlagged = .ok { s with cursor := reg (s.cursor.toNat + 1), dout := [] } := by
  simp only [State.readFlagged, State.peek_of_lt h, hz, if_true, State.take_of_le (s := s) (n := 1) h, Except.map]

theorem State.readFlagged_of_ne {s : State} (h : s.cursor.toNat < s.len.toNat) (hz : s.mem.read s.cursor.toNat ≠ 0#8) :
    s.readFlagged = .ok s.readString := by
  simp only [State.readFlagged, State.peek_of_lt h, if_neg hz]

theorem bodyAnswers_readFlagged {i : Instr} {s : State} (hi : writesDout i = true) : BodyAnswers i s s.readFlagged := by
  rcases Nat.lt_or_ge s.cursor.toNat s.len.toNat with hlt | hge
  · by_cases hz : s.mem.read s.cursor.toNat = 0#8
    · have hcursor := State.take_cursor (s := s) (n := 1) hlt
      rw [State.readFlagged_of_zero hlt hz]
      exact .getBytes hi fun _ => ⟨by omega, by omega, Nat.zero_le _⟩
    · rw [State.readFlagged_of_ne hlt hz]
      exact bodyAnswers_readString hi
  · rw [State.readFlagged_of_ge hge]
    exact .inl rfl

/-! ### The bodies: bit fields -/

/-- What PUT_BITS does behind its checks (R238). -/
def State.putField (n : Nat) (s : State) : Except Response State :=
  (s.cover (s.bitIdx.toNat >>> 3 + touchedBytes s.bitIdx.toNat n)).map fun t =>
    { t with mem := pack t.mem s.bitIdx.toNat n (s.opA.toNat % 2 ^ n), bitIdx := reg (s.bitIdx.toNat + n) }

/-- What GET_BITS does behind its checks (R239). -/
def State.getField (n : Nat) (s : State) : Except Response State :=
  if s.bitIdx.toNat >>> 3 + touchedBytes s.bitIdx.toNat n ≤ s.len.toNat then
    .ok { s with bitIdx := reg (s.bitIdx.toNat + n), r := zext 32 (unpack s.mem s.bitIdx.toNat n) }
  else .error .boundsError

theorem exec_putBits (nbits : BitVec 6) (s : State) :
    exec (.putBits nbits) s = runCommand .writer (bitWidthOf nbits) .bit State.putField s := rfl

theorem exec_getBits (nbits : BitVec 6) (s : State) :
    exec (.getBits nbits) s = runCommand .reader (bitWidthOf nbits) .bit State.getField s := rfl

theorem bodyAnswers_putField (nbits : BitVec 6) (n : Nat) (s : State) : BodyAnswers (.putBits nbits) s (s.putField n) := by
  refine bodyAnswers_of_cases (fun u h => ?_) fun e h => .inl (State.cover_error (map_error h)).1
  obtain ⟨u, hu, rfl⟩ := map_ok h
  exact .putBits nbits n hu

theorem bodyAnswers_getField (nbits : BitVec 6) (n : Nat) (s : State) : BodyAnswers (.getBits nbits) s (s.getField n) := by
  unfold State.getField
  split
  · exact .getBits nbits _ (by assumption)
  · exact .inl rfl

/-! ### The checks -/

/-- A command with illegal fields on a KIND it takes, whatever its mode (R352 5). -/
theorem runCommand_of_field {α : Type} {need : KindNeed} {field : Option α} {mode : Mode}
    {body : α → State → Except Response State} {s : State} (hf : s.fault = false) (hk : kindTakes need s.kind = true)
    (hd : field = none) : runCommand need field mode body s = .next (latched .configurationError s) := by
  simp [runCommand, hf, hk, hd, State.raise_of_not_fault hf]

/-- `need`, `field` and `mode` are the KIND column, the legal parameters and the MODE column of command `i` (R97, R99, R162), and
`body` answers as `i` does. -/
structure RunsAs {α : Type} (i : Instr) (need : KindNeed) (field : Option α) (mode : Mode)
    (body : α → State → Except Response State) : Prop where
  kinds : ∀ k, kindTakes need k = true ↔ k ∈ kindsOf i
  fields : field.isSome = i.wellFormed
  modes : modesOf i = [mode]
  answers : ∀ f s, BodyAnswers i s (body f s)

theorem kindTakes_reader_iff {k : Kind} : kindTakes .reader k = true ↔ k = .reader := by
  cases k <;> simp [kindTakes]

theorem kindTakes_reader (k : Kind) : kindTakes .reader k = true ↔ k ∈ [Kind.reader] := by
  rw [kindTakes_reader_iff, List.mem_singleton]

theorem kindTakes_writer (k : Kind) : kindTakes .writer k = true ↔ k ∈ [Kind.writer] := by
  rw [kindTakes_writer_iff, List.mem_singleton]

theorem kindTakes_built (k : Kind) : kindTakes .built k = true ↔ k ∈ [Kind.reader, Kind.writer] := by
  cases k <;> simp [kindTakes]

theorem isSome_ite_none {α : Type} {p : Prop} [Decidable p] (x : α) : (if p then some x else none).isSome = decide p := by
  split <;> simp [*]

theorem isSome_scalarField (wid : BitVec 4) (ord tr : BitVec 3) :
    (scalarField wid ord tr).isSome = decide (legalScalar wid ord tr) := by
  rw [scalarField_eq, isSome_ite_none]

theorem isSome_unsignedField (wid : BitVec 4) (ord tr : BitVec 3) :
    (unsignedField wid ord tr).isSome = decide (legalScalar wid ord tr ∧ wid ≠ 8#4) := by
  rw [unsignedField_eq, isSome_ite_none]

theorem isSome_bitWidthOf (nbits : BitVec 6) : (bitWidthOf nbits).isSome = decide (legalNbits nbits) :=
  isSome_ite_none _

theorem isSome_transformOf (tr : BitVec 3) : (transformOf tr).isSome = decide (legalTr tr) := by
  rw [transformOf_eq, isSome_ite_none]

/-- `run` makes the checks of the row of `i` and answers as `i` does. -/
def RunsItsRow (i : Instr) (run : State → Host.Outcome State Fault Refusal) : Prop :=
  ∃ (α : Type) (need : KindNeed) (field : Option α) (mode : Mode) (body : α → State → Except Response State),
    RunsAs i need field mode body ∧ ∀ s, run s = runCommand need field mode body s

theorem runsItsRow_runCommand {i : Instr} {α : Type} {need : KindNeed} {field : Option α} {mode : Mode}
    {body : α → State → Except Response State} (kinds : ∀ k, kindTakes need k = true ↔ k ∈ kindsOf i)
    (fields : field.isSome = i.wellFormed) (modes : modesOf i = [mode]) (answers : ∀ f s, BodyAnswers i s (body f s)) :
    RunsItsRow i (runCommand need field mode body) :=
  ⟨α, need, field, mode, body, ⟨kinds, fields, modes, answers⟩, fun _ => rfl⟩

/-- A command without fields is always well formed. -/
theorem runsItsRow_runPlain {i : Instr} {need : KindNeed} {mode : Mode} {body : State → Except Response State}
    (kinds : ∀ k, kindTakes need k = true ↔ k ∈ kindsOf i) (fields : i.wellFormed = true) (modes : modesOf i = [mode])
    (answers : ∀ s, BodyAnswers i s (body s)) : RunsItsRow i (runPlain need mode body) :=
  runsItsRow_runCommand kinds fields.symm modes fun _ => answers

/-- Every command but a CONSTRUCT is `runCommand` for its own row of R97. -/
theorem exec_runsItsRow {i : Instr} (h : isConstruct i = false) : RunsItsRow i (exec i) := by
  cases i with
  | constructReader | constructWriter | constructWriterCap => cases h
  | finalizeExact => exact runsItsRow_runPlain kindTakes_writer rfl rfl fun s => bodyAnswers_ok (.finalizeExact s)
  | finalizeFull => exact runsItsRow_runPlain kindTakes_writer rfl rfl fun s => bodyAnswers_ok (.finalizeFull s)
  | mark => exact runsItsRow_runPlain kindTakes_built rfl rfl fun s => bodyAnswers_ok (.mark s)
  | resetCursor => exact runsItsRow_runPlain kindTakes_built rfl rfl fun s => bodyAnswers_ok (.resetCursor s)
  | enterBit => exact runsItsRow_runPlain kindTakes_built rfl rfl fun s => bodyAnswers_ok (.enterBit s)
  | enterByte => exact runsItsRow_runPlain kindTakes_built rfl rfl fun s => bodyAnswers_ok (.enterByte s)
  | put => exact runsItsRow_runCommand kindTakes_writer (isSome_scalarField _ _ _) rfl fun _ _ => bodyAnswers_emit _ rfl rfl
  | putBlkT => exact runsItsRow_runCommand kindTakes_writer (isSome_transformOf _) rfl fun _ _ => bodyAnswers_emit _ rfl rfl
  | putBlk | putBlkRev => exact runsItsRow_runPlain kindTakes_writer rfl rfl fun _ => bodyAnswers_emit _ rfl rfl
  | putStr | putFstr => exact runsItsRow_runPlain kindTakes_writer rfl rfl fun _ => bodyAnswers_writeString rfl rfl
  | putUsmart | putSsmart | putBsmart =>
    exact runsItsRow_runPlain kindTakes_writer rfl rfl fun _ => bodyAnswers_requireRange fun _ => bodyAnswers_emit _ rfl rfl
  | putXsmart =>
    exact runsItsRow_runPlain kindTakes_writer rfl rfl fun _ =>
      bodyAnswers_requireRange fun _ => bodyAnswers_emitSized rfl rfl (length_xsmartBytes _)
  | putBits => exact runsItsRow_runCommand kindTakes_writer (isSome_bitWidthOf _) rfl (bodyAnswers_putField _)
  | getBits => exact runsItsRow_runCommand kindTakes_reader (isSome_bitWidthOf _) rfl (bodyAnswers_getField _)
  | getS =>
    exact runsItsRow_runCommand kindTakes_reader (isSome_scalarField _ _ _) rfl fun _ _ => bodyAnswers_readScalar _ _ rfl rfl
  | getU =>
    exact runsItsRow_runCommand kindTakes_reader (isSome_unsignedField _ _ _) rfl fun _ _ => bodyAnswers_readScalar _ _ rfl rfl
  | getUsmart =>
    exact runsItsRow_runPlain kindTakes_reader rfl rfl fun _ =>
      bodyAnswers_map_r rfl rfl (fun _ => State.usmartRead_error) fun _ => State.usmartRead_advances
  | getSsmart =>
    exact runsItsRow_runPlain kindTakes_reader rfl rfl fun _ =>
      bodyAnswers_takeSmart 1 2 (fun v => BitVec.ofInt 64 (ssmartValue v)) rfl rfl
  | getBsmart =>
    exact runsItsRow_runPlain kindTakes_reader rfl rfl fun _ =>
      bodyAnswers_takeSmart 2 4 (fun v => zext 32 (bsmartValue v)) rfl rfl
  | getXsmart =>
    exact runsItsRow_runPlain kindTakes_reader rfl rfl fun _ =>
      bodyAnswers_map_r (toR := id) rfl rfl (fun _ => xsmartLoop_error) fun _ => State.xsmartRead_advances
  | getStr => exact runsItsRow_runPlain kindTakes_reader rfl rfl fun _ => bodyAnswers_readString rfl
  | getFstr => exact runsItsRow_runPlain kindTakes_reader rfl rfl fun _ => bodyAnswers_readFlagged rfl
  | getBlk => exact runsItsRow_runPlain kindTakes_reader rfl rfl fun _ => bodyAnswers_readBlock (fun _ => rfl) rfl
  | getBlkRev =>
    exact runsItsRow_runPlain kindTakes_reader rfl rfl fun _ => bodyAnswers_readBlock (fun _ => List.length_reverse) rfl
  | getBlkT =>
    exact runsItsRow_runCommand kindTakes_reader (isSome_transformOf _) rfl fun _ _ =>
      bodyAnswers_readBlock (fun _ => List.length_map _) rfl

/-- Settles O11: the checks of the command's row, in the order `runCommand` makes them. -/
theorem checksFollowTheirOrder : Obligations.ChecksFollowTheirOrder := by
  intro i s hc
  obtain ⟨_, need, field, mode, body, ⟨hkinds, hfields, hmodes, _⟩, hrun⟩ := exec_runsItsRow hc
  rw [hrun, hmodes, ← hkinds, ← hfields]
  refine ⟨runCommand_of_fault, runCommand_of_kind, fun hf hk hd => ?field, fun hf hk hd hm => ?mode⟩
  case field => exact runCommand_of_field hf hk (by simpa using hd)
  case mode =>
    obtain ⟨_, hd⟩ := Option.isSome_iff_exists.mp hd
    exact runCommand_of_mode hf hk hd (by simpa using hm)

/-! ### Everything a command can leave -/

/-- The codes a command that is no CONSTRUCT raises: FAULTED under the latch, and else an error of its own (R353, R355). -/
def Raises (s : State) (e : Response) : Prop :=
  s.fault = true ∧ e = .faulted ∨ s.fault = false ∧ e ≠ .ok ∧ e ≠ .faulted

/-- Everything a command that is no CONSTRUCT can leave: the state it found under an error, or its effect and RESP = OK. -/
theorem exec_next {i : Instr} {s t : State} (hc : isConstruct i = false) (h : exec i s = .next t) :
    (∃ e, Raises s e ∧ t = s.raise e) ∨
      s.fault = false ∧ s.kind ∈ kindsOf i ∧ s.mode ∈ modesOf i ∧ ∃ u, Effect i s u ∧ t = { u with resp := .ok } := by
  obtain ⟨_, need, field, mode, body, ⟨hkinds, _, hmodes, hanswers⟩, hrun⟩ := exec_runsItsRow hc
  rw [hrun] at h
  rw [← hkinds, hmodes, List.mem_singleton]
  rcases runCommand_cases h with
    ⟨hf, ho⟩ | ⟨hf, _, ho⟩ | ⟨hf, _, _, ho⟩ | ⟨hf, _, _, _, ho⟩ | ⟨hf, hk, hm, f, _, ⟨u, hb, ho⟩ | ⟨e, hb, ho⟩⟩ <;>
    cases ho
  · exact .inl ⟨.faulted, .inl ⟨hf, rfl⟩, State.refuseFaulted_eq_raise hf⟩
  · exact .inl ⟨_, .inr ⟨hf, by decide, by decide⟩, rfl⟩
  · exact .inl ⟨_, .inr ⟨hf, by decide, by decide⟩, rfl⟩
  · exact .inl ⟨_, .inr ⟨hf, by decide, by decide⟩, rfl⟩
  · have heffect := hanswers f s
    rw [hb] at heffect
    exact .inr ⟨hf, hk, hm, u, heffect, rfl⟩
  · have herror := hanswers f s
    rw [hb] at herror
    obtain rfl | rfl := herror
    · exact .inl ⟨_, .inr ⟨hf, by decide, by decide⟩, rfl⟩
    · exact .inl ⟨_, .inr ⟨hf, by decide, by decide⟩, rfl⟩

end Sys2Proof.Machine

/-! ## Which fields a command writes (10_state.md R21 to R33)

A command that is no CONSTRUCT leaves either an error, which writes the status alone, or its effect, which says field by field
what is written. -/

namespace Sys2Proof.Machine

open Claims

/-! ### What the tables say of each other (R97, R23, R29 to R31) -/

theorem kindsOf_of_writesMem {i : Instr} (h : writesMem i = true) : kindsOf i = [.writer] := by
  cases i with
  | put | putBits | putUsmart | putSsmart | putXsmart | putBsmart | putStr | putFstr | putBlk | putBlkRev | putBlkT => rfl
  | _ => cases h

theorem kindsOf_of_writesR {i : Instr} (h : writesR i = true) : kindsOf i = [.reader] := by
  cases i with
  | getS | getU | getBits | getUsmart | getSsmart | getXsmart | getBsmart => rfl
  | _ => cases h

theorem kindsOf_and_modesOf_of_writesDout {i : Instr} (h : writesDout i = true) :
    kindsOf i = [.reader] ∧ modesOf i = [.byte] := by
  cases i with
  | getStr | getFstr | getBlk | getBlkRev | getBlkT => exact ⟨rfl, rfl⟩
  | _ => cases h

/-- In BYTE mode a command that reads or writes data moves CURSOR (R23). -/
theorem keepsCursor_of_data {i : Instr} (hmode : modesOf i = [.byte])
    (h : writesMem i = true ∨ writesR i = true ∨ writesDout i = true) : keepsCursor i = false := by
  cases i with
  | mark | enterBit => simp [writesMem, writesR, writesDout] at h
  | putBits | getBits => cases hmode
  | _ => rfl

/-! ### The fields an effect writes -/

/-- From `s` to `t` every field but the status is written only if the spec names `i` as writing it. -/
structure WritesOnly (i : Instr) (s t : State) : Prop where
  r : writesR i = false → t.r = s.r
  dout : writesDout i = false → t.dout = s.dout
  kind_len : isConstruct i = false → isFinalize i = false → t.kind = s.kind ∧ t.len = s.len
  mark : isConstruct i = false → isFinalize i = false → i ≠ .mark → t.mark = s.mark
  mode : isConstruct i = false → isFinalize i = false → i ≠ .enterBit → i ≠ .enterByte → t.mode = s.mode
  bitIdx : isConstruct i = false → isFinalize i = false → i ≠ .enterBit → (∀ n, i ≠ .putBits n ∧ i ≠ .getBits n) →
    t.bitIdx = s.bitIdx
  cursor : keepsCursor i = true → t.cursor = s.cursor
  cap_mem : isConstruct i = false → isFinalize i = false → writesMem i = false → t.cap = s.cap ∧ t.mem = s.mem
  inputs : t.params = s.params ∧ t.opA = s.opA ∧ t.opDin = s.opDin ∧ t.pending = s.pending

/-- Everything `cover` changes: CAP, and the storage it fills. -/
theorem State.cover_eq {need : Nat} {s t : State} (h : s.cover need = .ok t) :
    ∃ cap mem, t = { s with cap := cap, mem := mem } := by
  obtain ⟨_, ⟨_, ht⟩ | ⟨_, ht⟩⟩ := State.cover_ok h
  · exact ⟨s.cap, s.mem, ht⟩
  · exact ⟨_, _, ht⟩

/-- Everything `emitSized` changes: CURSOR, CAP and the storage. -/
theorem State.emitSized_eq {n : Nat} {bytes : Unit → List Byte} {s t : State} (h : s.emitSized n bytes = .ok t) :
    ∃ cursor cap mem, t = { s with cursor := cursor, cap := cap, mem := mem } := by
  obtain ⟨_, hu, rfl⟩ := State.emitSized_ok h
  obtain ⟨cap, _, rfl⟩ := State.cover_eq hu
  exact ⟨_, cap, _, rfl⟩

theorem writesOnly_of_effect {i : Instr} {s u : State} (h : Effect i s u) : WritesOnly i s u := by
  cases h with
  | mark | resetCursor | enterBit | enterByte => constructor <;> simp [keepsCursor]
  | finalizeExact | finalizeFull => constructor <;> simp [keepsCursor, isFinalize]
  | emit hi hmode _ h =>
    have hcursor := keepsCursor_of_data hmode (.inl hi)
    obtain ⟨_, _, _, rfl⟩ := State.emitSized_eq h
    constructor <;> simp [hcursor, hi]
  | putBits _ _ h =>
    obtain ⟨_, _, rfl⟩ := State.cover_eq h
    constructor <;> simp [writesMem]
  | getNumber _ hi hmode =>
    have hcursor := keepsCursor_of_data hmode (.inr (.inl hi))
    constructor <;> simp [hcursor, hi]
  | getBits => constructor <;> simp [writesR]
  | getBytes hi =>
    have hcursor := keepsCursor_of_data (kindsOf_and_modesOf_of_writesDout hi).2 (.inr (.inr hi))
    constructor <;> simp [hcursor, hi]

theorem latch_of_effect {i : Instr} {s u : State} (h : Effect i s u) : u.fault = s.fault ∧ u.err = s.err := by
  cases h with
  | mark | resetCursor | enterBit | enterByte | finalizeExact | finalizeFull | getNumber | getBits | getBytes =>
    exact ⟨rfl, rfl⟩
  | emit _ _ _ h =>
    obtain ⟨_, _, _, rfl⟩ := State.emitSized_eq h
    exact ⟨rfl, rfl⟩
  | putBits _ _ h =>
    obtain ⟨_, _, rfl⟩ := State.cover_eq h
    exact ⟨rfl, rfl⟩

/-! ### The fields a command writes -/

/-- The status is no field of `WritesOnly`. -/
theorem WritesOnly.with_status {i : Instr} {s t : State} (h : WritesOnly i s t) (resp err : Response) (fault : Bool) :
    WritesOnly i s { t with resp := resp, fault := fault, err := err } :=
  ⟨h.r, h.dout, h.kind_len, h.mark, h.mode, h.bitIdx, h.cursor, h.cap_mem, h.inputs⟩

theorem WritesOnly.refl (i : Instr) (s : State) : WritesOnly i s s := by
  constructor <;> simp

theorem writesOnly_of_construct {i : Instr} {s t : State} (hc : isConstruct i = true) (h : exec i s = .next t) :
    WritesOnly i s t := by
  have hcursor : keepsCursor i = false := by
    cases i with
    | constructReader | constructWriter | constructWriterCap => rfl
    | _ => cases hc
  obtain ⟨_, _, _, _, hk⟩ | hfail := exec_construct_cases hc s
  · cases hk.symm.trans h
    constructor <;> simp [hc, hcursor]
  · cases hfail.symm.trans h
    constructor <;> simp [hc, hcursor]

theorem writesOnly_of_exec {i : Instr} {s t : State} (h : exec i s = .next t) : WritesOnly i s t := by
  cases hc : isConstruct i with
  | true => exact writesOnly_of_construct hc h
  | false =>
    obtain ⟨e, _, rfl⟩ | ⟨_, _, _, u, hu, rfl⟩ := exec_next hc h
    · exact (WritesOnly.refl i s).with_status _ _ _
    · exact (writesOnly_of_effect hu).with_status _ _ _

/-- FAULT and ERR after a command that is no CONSTRUCT: kept under the latch and on success, set by the first error (R33). -/
theorem latch_of_exec {i : Instr} {s t : State} (hc : isConstruct i = false) (h : exec i s = .next t) :
    (s.fault = true ∨ t.resp = .ok → t.fault = s.fault ∧ t.err = s.err) ∧
      (s.fault = false → t.resp ≠ .ok → t.fault = true ∧ t.err = t.resp) := by
  obtain ⟨e, ⟨hf, rfl⟩ | ⟨hf, hok, _⟩, rfl⟩ | ⟨_, _, _, u, hu, rfl⟩ := exec_next hc h
  · simp [hf]
  · simp [hf, hok]
  · obtain ⟨hfault, herr⟩ := latch_of_effect hu
    exact ⟨fun _ => ⟨hfault, herr⟩, fun _ hresp => absurd rfl hresp⟩

/-- FAULT and ERR after a CONSTRUCT: cleared, or set if it fails (R33, R135). -/
theorem latch_of_construct {i : Instr} {s t : State} (hc : isConstruct i = true) (h : exec i s = .next t) :
    (t.resp = .ok → t.fault = false ∧ t.err = .ok) ∧ (t.resp ≠ .ok → t.fault = true ∧ t.err = t.resp) := by
  obtain ⟨_, _, _, _, hk⟩ | hfail := exec_construct_cases hc s
  · cases hk.symm.trans h
    simp
  · cases hfail.symm.trans h
    simp

/-- Settles O18: `writesOnly_of_exec` field by field, and the latch by the kind of command. -/
theorem registersAreWrittenOnlyByTheirCommands : Obligations.RegistersAreWrittenOnlyByTheirCommands := by
  intro i s t h
  obtain ⟨hr, hdout, hkind, hmark, hmode, hbitIdx, hcursor, hmem, hinputs⟩ := writesOnly_of_exec h
  exact ⟨hr, hdout, hkind, hmark, hmode, hbitIdx, hcursor, hmem, fun hc => latch_of_exec hc h,
    fun hc => latch_of_construct hc h, hinputs⟩

end Sys2Proof.Machine

/-! ## The invariant (10_state.md R38, R39)

A built unit's invariant is one set of bounds on MARK, CURSOR, BITIDX and CAP, the same for a reader and a writer, beside what LEN
is; each effect is checked against those bounds. -/

namespace Sys2Proof.Machine

open Claims

/-! ### Power-on (R390) -/

/-- Every register is 0, the storage is empty, and the status is OK. -/
theorem inv_powerOn (p : Config.Params) (r : DWord) (d : List Byte) (hp : p.legal) (hd : d.length ≤ p.maxCapacity) :
    (State.powerOn p r d).Inv :=
  ⟨hp, ⟨Memory.wf_nil, Memory.within_nil _⟩, by simp [State.kindInv, State.noneInv], by simp [State.flagsInv],
    hd, Nat.zero_le _⟩

/-- Settles O15: reset is one of the power-on states. -/
theorem powerOnSatisfiesTheInvariant : Obligations.PowerOnSatisfiesTheInvariant :=
  ⟨inv_powerOn, inv_powerOn _ _ _ (by decide) (Nat.zero_le _)⟩

/-! ### The bounds of a built unit -/

/-- R38 without LEN: for a reader and a writer alike. -/
structure State.Bounded (s : State) : Prop where
  mark : s.mark.toNat ≤ s.cursor.toNat
  cursor : s.cursor.toNat ≤ s.cap.toNat
  cap : s.cap.toNat ≤ s.params.maxCapacity
  bitIdx : s.mode = .bit → 8 * s.cursor.toNat ≤ s.bitIdx.toNat ∧ s.bitIdx.toNat ≤ 8 * s.cap.toNat

/-- What LEN is in a built unit (R25, R39). -/
def State.LenFits (s : State) : Prop := (s.kind = .reader → s.len = s.cap) ∧ (s.kind = .writer → s.len = 0)

theorem kindInv_iff_of_built {s : State} (hk : s.kind ≠ .none) : s.kindInv ↔ s.Bounded ∧ s.LenFits := by
  cases hkind : s.kind with
  | none => exact absurd hkind hk
  | reader =>
    constructor
    · intro ⟨h, _, _⟩
      obtain ⟨hmark, hcursor, hlen, hcap, hbit⟩ := h hkind
      rw [hlen] at hcursor hcap hbit
      exact ⟨⟨hmark, hcursor, hcap, hbit⟩, fun _ => hlen, by simp [hkind]⟩
    · intro ⟨⟨hmark, hcursor, hcap, hbit⟩, hlen, _⟩
      rw [← hlen hkind] at hcursor hcap hbit
      exact ⟨fun _ => ⟨hmark, hcursor, hlen hkind, hcap, hbit⟩, by simp [hkind], by simp [hkind]⟩
  | writer =>
    constructor
    · intro ⟨_, h, _⟩
      obtain ⟨hmark, hcursor, hlen, hcap, hbit⟩ := h hkind
      exact ⟨⟨hmark, hcursor, hcap, hbit⟩, by simp [hkind], fun _ => hlen⟩
    · intro ⟨⟨hmark, hcursor, hcap, hbit⟩, _, hlen⟩
      exact ⟨by simp [hkind], fun _ => ⟨hmark, hcursor, hlen hkind, hcap, hbit⟩, by simp [hkind]⟩

/-- A capacity within R9 and every bit index over it fit a register. -/
theorem legal_bits_lt {p : Config.Params} (hp : p.legal) {n : Nat} (h : n ≤ 8 * p.maxCapacity) : n < 2 ^ 64 := by
  have hbound := hp.2.1
  simp only [Config.capacityBound] at hbound
  omega

/-! ### Each effect keeps the bounds and the storage -/

/-- A built unit with the invariant, but for the status and DIN. -/
structure State.Sound (s : State) : Prop where
  legal : s.params.legal
  built : s.kind ≠ .none
  bounded : s.Bounded
  lenFits : s.LenFits
  mem : s.memInv
  dout : s.dout.length ≤ s.params.maxCapacity

theorem sound_finalize {s : State} (h : s.Sound) {n : DWord} (hn : n.toNat ≤ s.params.maxCapacity) : (s.finalize n).Sound where
  legal := h.legal
  built := by simp
  bounded := ⟨le_refl _, Nat.zero_le _, hn, by simp⟩
  lenFits := ⟨fun _ => rfl, by simp⟩
  mem := ⟨Memory.wf_below h.mem.1 _, Memory.within_below _ _⟩
  dout := h.dout

/-- A read in BYTE mode leaves CURSOR between where it was and LEN, which is CAP. -/
theorem sound_read {s : State} (h : s.Sound) (hk : s.kind = .reader) (hm : s.mode = .byte) {c : DWord}
    (hmin : s.cursor.toNat ≤ c.toNat) (hmax : c.toNat ≤ s.len.toNat) (v : DWord) {d : List Byte}
    (hd : d.length ≤ s.params.maxCapacity) : State.Sound { s with cursor := c, r := v, dout := d } where
  legal := h.legal
  built := h.built
  bounded := ⟨h.bounded.mark.trans hmin, by rw [← h.lenFits.1 hk]; exact hmax, h.bounded.cap, by simp [hm]⟩
  lenFits := h.lenFits
  mem := h.mem
  dout := hd

/-- What `cover` leaves of a sound writer: more room, and everything else. -/
theorem cover_of_sound {need : Nat} {s u : State} (h : s.Sound) (hu : s.cover need = .ok u) :
    ∃ cap : DWord, u = { s with cap := cap } ∧ need ≤ cap.toNat ∧ s.cap.toNat ≤ cap.toNat ∧
      cap.toNat ≤ s.params.maxCapacity := by
  obtain ⟨hcover, hmono, hle, _⟩ := State.cover_cap h.legal hu
  exact ⟨u.cap, State.cover_frame h.mem.2 hu, hcover, hmono, hle h.bounded.cap⟩

theorem sound_emit {s u : State} (h : s.Sound) (hk : s.kind = .writer) (hm : s.mode = .byte) {n : Nat}
    {bytes : Unit → List Byte} (hlen : (bytes ()).length = n) (hu : s.emitSized n bytes = .ok u) : u.Sound := by
  obtain ⟨_, hcover, rfl⟩ := State.emitSized_ok hu
  obtain ⟨cap, rfl, hroom, hmono, hcap⟩ := cover_of_sound h hcover
  have hcursor : (reg (s.cursor.toNat + n)).toNat = s.cursor.toNat + n := reg_toNat_of_le h.legal (hroom.trans hcap)
  exact {
    legal := h.legal
    built := h.built
    bounded := ⟨by simp only [hcursor]; exact h.bounded.mark.trans (Nat.le_add_right _ _), by simpa only [hcursor] using hroom,
      hcap, by simp [hm]⟩
    lenFits := ⟨by simp [hk], h.lenFits.2⟩
    mem := ⟨Memory.wf_writeBytes h.mem.1 _ _,
      Memory.within_writeBytes (Memory.within_mono h.mem.2 hmono) (by rw [hlen]; exact hroom)⟩
    dout := h.dout }

/-- The bytes a bit field touches hold its bits (R237). -/
theorem field_le_touched (b n : Nat) : b + n ≤ 8 * (b >>> 3 + touchedBytes b n) := by
  simp only [touchedBytes, Nat.shiftRight_eq_div_pow]
  omega

theorem sound_putBits {s u : State} (h : s.Sound) (hk : s.kind = .writer) (hm : s.mode = .bit) {n : Nat}
    (hu : s.cover (s.bitIdx.toNat >>> 3 + touchedBytes s.bitIdx.toNat n) = .ok u) (v : Nat) :
    State.Sound { u with mem := pack u.mem s.bitIdx.toNat n v, bitIdx := reg (s.bitIdx.toNat + n) } := by
  obtain ⟨cap, rfl, hroom, hmono, hcap⟩ := cover_of_sound h hu
  have hfield := field_le_touched s.bitIdx.toNat n
  have hbitIdx : (reg (s.bitIdx.toNat + n)).toNat = s.bitIdx.toNat + n :=
    reg_toNat (legal_bits_lt h.legal (by omega))
  obtain ⟨hmin, _⟩ := h.bounded.bitIdx hm
  exact {
    legal := h.legal
    built := h.built
    bounded := ⟨h.bounded.mark, h.bounded.cursor.trans hmono, hcap, fun _ => by simp only [hbitIdx]; omega⟩
    lenFits := ⟨by simp [hk], h.lenFits.2⟩
    mem := ⟨pack_wf h.mem.1 _ _ _, pack_within (Memory.within_mono h.mem.2 hmono) hroom _⟩
    dout := h.dout }

theorem sound_getBits {s : State} (h : s.Sound) (hk : s.kind = .reader) (hm : s.mode = .bit) {n : Nat}
    (hle : s.bitIdx.toNat >>> 3 + touchedBytes s.bitIdx.toNat n ≤ s.len.toNat) (v : DWord) :
    State.Sound { s with bitIdx := reg (s.bitIdx.toNat + n), r := v } := by
  have hfield := field_le_touched s.bitIdx.toNat n
  have hcap := h.bounded.cap
  obtain ⟨hmin, _⟩ := h.bounded.bitIdx hm
  rw [h.lenFits.1 hk] at hle
  have hbitIdx : (reg (s.bitIdx.toNat + n)).toNat = s.bitIdx.toNat + n :=
    reg_toNat (legal_bits_lt h.legal (by omega))
  exact { h with
    bounded := ⟨h.bounded.mark, h.bounded.cursor, hcap, fun _ => by simp only [hbitIdx]; omega⟩ }

theorem sound_enterBit {s : State} (h : s.Sound) :
    State.Sound { s with bitIdx := reg (s.cursor.toNat * 8), mode := .bit } := by
  obtain ⟨hmark, hcursor, hcap, _⟩ := h.bounded
  have hbitIdx : (reg (s.cursor.toNat * 8)).toNat = s.cursor.toNat * 8 := reg_toNat (legal_bits_lt h.legal (by omega))
  exact { h with bounded := ⟨hmark, hcursor, hcap, fun _ => by simp only [hbitIdx]; omega⟩ }

theorem sound_enterByte {s : State} (h : s.Sound) (hm : s.mode = .bit) :
    State.Sound { s with cursor := reg ((s.bitIdx.toNat + 7) / 8), mode := .byte } := by
  obtain ⟨hmark, _, hcap, hbit⟩ := h.bounded
  obtain ⟨hmin, hmax⟩ := hbit hm
  have hcursor : (reg ((s.bitIdx.toNat + 7) / 8)).toNat = (s.bitIdx.toNat + 7) / 8 := reg_toNat_of_le h.legal (by omega)
  exact { h with bounded := ⟨by simp only [hcursor]; omega, by simp only [hcursor]; omega, hcap, by simp⟩ }

theorem sound_of_effect {i : Instr} {s u : State} (h : s.Sound) (hk : s.kind ∈ kindsOf i) (hm : s.mode ∈ modesOf i)
    (he : Effect i s u) : u.Sound := by
  cases he with
  | mark => exact { h with bounded := { h.bounded with mark := le_refl _ } }
  | resetCursor =>
    have hbyte : s.mode = .byte := List.mem_singleton.mp hm
    exact { h with
      bounded := { h.bounded with
        mark := le_refl _, cursor := h.bounded.mark.trans h.bounded.cursor, bitIdx := by simp [hbyte] } }
  | enterBit => exact sound_enterBit h
  | enterByte => exact sound_enterByte h (List.mem_singleton.mp hm)
  | finalizeExact => exact sound_finalize h (h.bounded.cursor.trans h.bounded.cap)
  | finalizeFull => exact sound_finalize h h.bounded.cap
  | emit hi hmode hlen hu =>
    rw [kindsOf_of_writesMem hi, List.mem_singleton] at hk
    rw [hmode, List.mem_singleton] at hm
    exact sound_emit h hk hm hlen hu
  | putBits _ _ hu => exact sound_putBits h (List.mem_singleton.mp hk) (List.mem_singleton.mp hm) hu _
  | getNumber v hi hmode hmin hmax =>
    rw [kindsOf_of_writesR hi, List.mem_singleton] at hk
    rw [hmode, List.mem_singleton] at hm
    exact sound_read h hk hm hmin hmax v h.dout
  | getBits _ v hle => exact sound_getBits h (List.mem_singleton.mp hk) (List.mem_singleton.mp hm) hle v
  | getBytes hi hc =>
    obtain ⟨hkinds, hmodes⟩ := kindsOf_and_modesOf_of_writesDout hi
    rw [hkinds, List.mem_singleton] at hk
    rw [hmodes, List.mem_singleton] at hm
    have hlen : s.len.toNat = s.cap.toNat := by rw [h.lenFits.1 hk]
    obtain ⟨hmin, hmax, hd⟩ := hc (by rw [hlen]; exact h.bounded.cursor)
    exact sound_read h hk hm hmin hmax s.r (hd.trans (by rw [hlen]; exact h.bounded.cap))

/-! ### Each command keeps the invariant -/

theorem sound_of_inv {s : State} (h : s.Inv) (hk : s.kind ≠ .none) : s.Sound := by
  obtain ⟨hp, hmem, hkind, _, hdout, _⟩ := h
  obtain ⟨hbounded, hlen⟩ := (kindInv_iff_of_built hk).mp hkind
  exact ⟨hp, hk, hbounded, hlen, hmem, hdout⟩

theorem inv_of_sound {s : State} (h : s.Sound) (hflags : s.flagsInv) (hdin : s.opDin.length ≤ s.params.maxCapacity) :
    s.Inv :=
  ⟨h.legal, h.mem, (kindInv_iff_of_built h.built).mpr ⟨h.bounded, h.lenFits⟩, hflags, h.dout, hdin⟩

/-- The status after success, where no error was latched. -/
theorem inv_completed {s u : State} (h : s.Inv) (hf : s.fault = false) (hu : u.Sound) (hfault : u.fault = s.fault)
    (herr : u.err = s.err) (hparams : u.params = s.params) (hdin : u.opDin = s.opDin) :
    State.Inv { u with resp := .ok } := by
  obtain ⟨_, _, _, ⟨hok, _, _⟩, _, hle⟩ := h
  have herrOk : u.err = .ok := herr.trans (hok.mp hf)
  have hfaultOff : u.fault = false := hfault.trans hf
  have hsound : State.Sound { u with resp := .ok } := { hu with bounded := { hu.bounded with } }
  exact inv_of_sound hsound (by simp [State.flagsInv, herrOk, hfaultOff]) (by simpa only [hdin, hparams] using hle)

theorem inv_raise {s : State} (h : s.Inv) {e : Response} (he : Raises s e) : (s.raise e).Inv := by
  obtain ⟨hp, hmem, hkind, ⟨hok, hne, _⟩, hlists⟩ := h
  refine ⟨hp, hmem, hkind, ?_, hlists⟩
  obtain ⟨hf, rfl⟩ | ⟨hf, hnotOk, hnotFaulted⟩ := he
  · have herr : s.err ≠ .ok := fun herr => by simp [hok.mpr herr] at hf
    simp [State.flagsInv, hf, herr, hne]
  · simp [State.flagsInv, hf, hnotOk, hnotFaulted]

theorem inv_failConstruct {s : State} (h : s.Inv) {e : Response} (hok : e ≠ .ok) (hfaulted : e ≠ .faulted) :
    (s.failConstruct e).Inv := by
  obtain ⟨hp, _, _, _, hlists⟩ := h
  exact ⟨hp, ⟨Memory.wf_nil, Memory.within_nil _⟩, by simp [State.kindInv, State.noneInv],
    by simp [State.flagsInv, hok, hfaulted], hlists⟩

/-- A unit built over `cap` bytes, all of them a reader's data or none of them (R130 to R132). -/
theorem inv_construct {s : State} (h : s.Inv) {k : Kind} {m : Memory} {len cap : Nat} (hk : k ≠ .none)
    (hcap : cap ≤ s.params.maxCapacity) (hreader : k = .reader → len = cap) (hwriter : k = .writer → len = 0) (hwf : m.wf)
    (hwithin : m.within cap) : (s.construct k m len cap).Inv := by
  obtain ⟨hp, _, _, _, hdout, hdin⟩ := h
  have hreg := reg_toNat_of_le hp hcap
  have hsound : (s.construct k m len cap).Sound := {
    legal := hp
    built := hk
    bounded := ⟨le_refl _, Nat.zero_le _,
      by simpa only [State.construct_cap, State.construct_params, hreg] using hcap, by simp⟩
    lenFits := ⟨fun hr => congrArg reg (hreader hr), fun hw => congrArg reg (hwriter hw)⟩
    mem := ⟨hwf, by simpa only [State.construct_mem, State.construct_cap, hreg] using hwithin⟩
    dout := hdout }
  exact inv_of_sound hsound (by simp [State.flagsInv]) hdin

theorem inv_of_construct {i : Instr} {s t : State} (h : s.Inv) (hc : isConstruct i = true) (ht : exec i s = .next t) :
    t.Inv := by
  obtain ⟨⟨_, _, hdefault⟩, _, _, _, _, hdin⟩ := id h
  cases i with
  | constructReader =>
    cases ht
    exact inv_construct h (by decide) hdin (fun _ => rfl) (by simp) (Memory.wf_ofBytes _) (Memory.within_ofBytes _)
  | constructWriter =>
    cases ht
    exact inv_construct h (by decide) hdefault (by simp) (fun _ => rfl) Memory.wf_nil (Memory.within_nil _)
  | constructWriterCap =>
    rw [exec_constructWriterCap] at ht
    split at ht
    · rename_i hcap
      cases ht
      exact inv_construct h (by decide) hcap (by simp) (fun _ => rfl) Memory.wf_nil (Memory.within_nil _)
    · cases ht
      exact inv_failConstruct h (by decide) (by decide)
  | _ => cases hc

theorem kind_ne_none_of_takes {i : Instr} {k : Kind} (hc : isConstruct i = false) (hk : k ∈ kindsOf i) : k ≠ .none := by
  rintro rfl
  cases i with
  | constructReader | constructWriter | constructWriterCap => cases hc
  | _ => simp [kindsOf] at hk

theorem exec_keeps_inv {i : Instr} {s t : State} (h : s.Inv) (ht : exec i s = .next t) : t.Inv := by
  cases hc : isConstruct i with
  | true => exact inv_of_construct h hc ht
  | false =>
    obtain ⟨e, he, rfl⟩ | ⟨hf, hk, hm, u, hu, rfl⟩ := exec_next hc ht
    · exact inv_raise h he
    · obtain ⟨hfault, herr⟩ := latch_of_effect hu
      obtain ⟨hparams, _, hdin, _⟩ := (writesOnly_of_effect hu).inputs
      have hsound := sound_of_inv h (kind_ne_none_of_takes hc hk)
      exact inv_completed h hf (sound_of_effect hsound hk hm hu) hfault herr hparams hdin

theorem inv_rejectWord {s : State} (h : s.Inv) (e : DecodeError) : (s.rejectWord e).Inv := by
  obtain ⟨ht, _⟩ | ⟨hf, ht⟩ | ⟨hf, ht⟩ := State.rejectWord_cases e s
  · rw [ht]
    exact inv_failConstruct h (by decide) (by decide)
  · rw [ht, State.refuseFaulted_eq_raise hf]
    exact inv_raise h (.inl ⟨hf, rfl⟩)
  · rw [ht]
    exact inv_raise h (.inr ⟨hf, by decide, by decide⟩)

/-- Everything a step that answers can be. -/
theorem step_next {s t : State} (h : step s = .next t) :
    t = s ∨ ∃ c rest, s.pending = c :: rest ∧ c.din.length ≤ s.params.maxCapacity ∧
      ((∃ i, exec i (s.load c rest) = .next t) ∨ ∃ e, t = (s.load c rest).rejectWord e) := by
  cases hp : s.pending with
  | nil =>
    cases (idleUnitKeepsItsState s hp).symm.trans h
    exact .inl rfl
  | cons c rest =>
    refine .inr ⟨c, rest, rfl, ?_⟩
    rcases Nat.lt_or_ge s.params.maxCapacity c.din.length with hlt | hle
    · cases (step_of_overlong hp hlt).symm.trans h
    · refine ⟨hle, ?_⟩
      cases hw : decode c.cmd with
      | ok i => exact .inl ⟨i, (step_of_decode_ok hp hle hw).symm.trans h⟩
      | error e =>
        cases (step_of_decode_error hp hle hw).symm.trans h
        exact .inr ⟨e, rfl⟩

/-- Settles O16: a step changes nothing, or runs a command or rejects a word on the state with its operands presented, and each of
these keeps the invariant. -/
theorem stepKeepsTheInvariant : Obligations.StepKeepsTheInvariant := by
  intro s t h ht
  obtain rfl | ⟨c, rest, _, hdin, hrun⟩ := step_next ht
  · exact h
  · have hload : (s.load c rest).Inv := by
      obtain ⟨hp, hmem, hkind, hflags, hdout, _⟩ := h
      exact ⟨hp, hmem, hkind, hflags, hdout, hdin⟩
    obtain ⟨i, hi⟩ | ⟨e, rfl⟩ := hrun
    · exact exec_keeps_inv hload hi
    · exact inv_rejectWord hload e

end Sys2Proof.Machine

/-! ## Operands a command does not name (30_encoding.md R35, R102)

Putting other operands beside a state commutes with every primitive, so it commutes with every command that does not read them. -/

namespace Sys2Proof.Machine

open Claims

/-! ### The primitives -/

/-- The state with other operands presented. -/
def State.withInputs (a : DWord) (d : List Byte) (s : State) : State := { s with opA := a, opDin := d }

/-- An outcome whose next state, if it has one, is changed by `f`. -/
def mapNext (f : State → State) : Host.Outcome State Fault Refusal → Host.Outcome State Fault Refusal
  | .next t => .next (f t)
  | .fault r => .fault r
  | .refused r => .refused r

theorem State.cover_withInputs (need : Nat) (s : State) (a : DWord) (d : List Byte) :
    (s.withInputs a d).cover need = (s.cover need).map (State.withInputs a d) := by
  rcases Nat.lt_or_ge s.params.maxCapacity need with h | h
  · rw [State.cover_of_gt h, State.cover_of_gt (s := s.withInputs a d) h]
    rfl
  · rw [State.cover_of_le h, State.cover_of_le (s := s.withInputs a d) h]
    change Except.ok (if s.cap.toNat < need then (s.grow need).withInputs a d else s.withInputs a d) = _
    rw [← apply_ite (State.withInputs a d)]
    rfl

theorem State.emitSized_withInputs (n : Nat) (bytes : Unit → List Byte) (s : State) (a : DWord) (d : List Byte) :
    (s.withInputs a d).emitSized n bytes = (s.emitSized n bytes).map (State.withInputs a d) := by
  have hcover := State.cover_withInputs (s.cursor.toNat + n) s a d
  unfold State.emitSized
  cases hu : s.cover (s.cursor.toNat + n) with
  | error e => rw [hu] at hcover; exact congrArg _ hcover
  | ok u => rw [hu] at hcover; exact congrArg _ hcover

theorem State.take_withInputs (n : Nat) (s : State) (a : DWord) (d : List Byte) :
    (s.withInputs a d).take n = (s.take n).map fun x => (x.1, x.2.withInputs a d) := by
  rcases Nat.lt_or_ge s.len.toNat (s.cursor.toNat + n) with h | h
  · rw [State.take_of_gt h, State.take_of_gt (s := s.withInputs a d) h]
    rfl
  · rw [State.take_of_le h, State.take_of_le (s := s.withInputs a d) h]
    rfl

theorem State.takeSmart_withInputs (short long : Nat) (s : State) (a : DWord) (d : List Byte) :
    (s.withInputs a d).takeSmart short long = (s.takeSmart short long).map fun x => (x.1, x.2.withInputs a d) := by
  by_cases h : s.cursor.toNat < s.len.toNat ∧ s.cursor.toNat + s.smartLength short long ≤ s.len.toNat
  · rw [State.takeSmart_of_le h.1 h.2, State.takeSmart_of_le (s := s.withInputs a d) h.1 h.2]
    rfl
  · have h : s.len.toNat ≤ s.cursor.toNat ∨ s.len.toNat < s.cursor.toNat + s.smartLength short long := by omega
    rw [State.takeSmart_of_gt h, State.takeSmart_of_gt (s := s.withInputs a d) h]
    rfl

theorem State.usmartRead_withInputs (s : State) (a : DWord) (d : List Byte) :
    (s.withInputs a d).usmartRead = s.usmartRead.map fun x => (x.1, x.2.withInputs a d) := by
  unfold State.usmartRead
  rw [State.takeSmart_withInputs]
  cases s.takeSmart 1 2 <;> rfl

theorem xsmartLoop_withInputs (rounds : Nat) (acc : DWord) (s : State) (a : DWord) (d : List Byte) :
    xsmartLoop rounds acc (s.withInputs a d) = (xsmartLoop rounds acc s).map fun x => (x.1, x.2.withInputs a d) := by
  induction rounds generalizing acc s with
  | zero => rfl
  | succ rounds ih =>
    rw [xsmartLoop, xsmartLoop, State.usmartRead_withInputs]
    cases s.usmartRead with
    | error e => rfl
    | ok x =>
      simp only [Except.map]
      split
      · exact ih _ _
      · rfl

/-! ### The bodies -/

/-- A body that answers the same, but for the operands themselves, when `s` has `a` and `d` presented. -/
def Ignores (a : DWord) (d : List Byte) (body : State → Except Response State) (s : State) : Prop :=
  body (s.withInputs a d) = (body s).map (State.withInputs a d)

section

variable {a : DWord} {d : List Byte} {s : State}

theorem ignores_map {α : Type} {read : State → Except Response (α × State)} {g : α × State → State}
    (hread : read (s.withInputs a d) = (read s).map fun x => (x.1, x.2.withInputs a d))
    (hg : ∀ x : α × State, g (x.1, x.2.withInputs a d) = (g x).withInputs a d) : Ignores a d (fun s => (read s).map g) s := by
  unfold Ignores
  beta_reduce
  rw [hread]
  cases read s with
  | error e => rfl
  | ok x => exact congrArg Except.ok (hg x)

theorem ignores_readScalar (widen : Nat → Nat → DWord) (f : ScalarField) : Ignores a d (State.readScalar widen f) s :=
  ignores_map (State.take_withInputs _ s a d) fun _ => rfl

theorem ignores_readBlock (f : List Byte → List Byte) : Ignores s.opA d (State.readBlock f) s :=
  ignores_map (read := fun u => u.take s.opA.toNat) (State.take_withInputs _ s s.opA d) fun _ => rfl

theorem ignores_readFlagged : Ignores a d State.readFlagged s := by
  unfold Ignores
  rcases Nat.lt_or_ge s.cursor.toNat s.len.toNat with hlt | hge
  · by_cases hz : s.mem.read s.cursor.toNat = 0#8
    · rw [State.readFlagged_of_zero hlt hz, State.readFlagged_of_zero (s := s.withInputs a d) hlt hz]
      rfl
    · rw [State.readFlagged_of_ne hlt hz, State.readFlagged_of_ne (s := s.withInputs a d) hlt hz]
      rfl
  · rw [State.readFlagged_of_ge hge, State.readFlagged_of_ge (s := s.withInputs a d) hge]
    rfl

theorem ignores_writeString : Ignores a s.opDin State.writeString s := by
  unfold Ignores
  by_cases hz : 0#8 ∈ s.opDin
  · rw [State.writeString_of_mem hz, State.writeString_of_mem (s := s.withInputs a s.opDin) hz]
    rfl
  · rw [State.writeString_of_not_mem hz, State.writeString_of_not_mem (s := s.withInputs a s.opDin) hz]
    exact State.emitSized_withInputs _ _ s a s.opDin

theorem ignores_requireRange {lo hi : Int} {body : Int → State → Except Response State}
    (h : ∀ v, Ignores s.opA d (body v) s) : Ignores s.opA d (State.requireRange lo hi body) s := by
  unfold Ignores
  by_cases hr : lo ≤ s.opA.toInt ∧ s.opA.toInt ≤ hi
  · rw [State.requireRange_of_mem hr, State.requireRange_of_mem (s := s.withInputs s.opA d) hr]
    exact h _
  · rw [State.requireRange_of_not_mem hr, State.requireRange_of_not_mem (s := s.withInputs s.opA d) hr]
    rfl

theorem ignores_putField (n : Nat) : Ignores s.opA d (State.putField n) s := by
  have hcover := State.cover_withInputs (s.bitIdx.toNat >>> 3 + touchedBytes s.bitIdx.toNat n) s s.opA d
  unfold Ignores State.putField
  cases hu : s.cover (s.bitIdx.toNat >>> 3 + touchedBytes s.bitIdx.toNat n) with
  | error e => rw [hu] at hcover; exact congrArg _ hcover
  | ok u => rw [hu] at hcover; exact congrArg _ hcover

theorem ignores_getField (n : Nat) : Ignores a d (State.getField n) s := by
  unfold Ignores State.getField
  by_cases h : s.bitIdx.toNat >>> 3 + touchedBytes s.bitIdx.toNat n ≤ s.len.toNat
  · rw [if_pos h]
    exact if_pos h
  · rw [if_neg h]
    exact if_neg h

/-! ### The commands -/

/-- A command that runs the same, but for the operands themselves, when `s` has `a` and `d` presented. -/
def RunsAlike (a : DWord) (d : List Byte) (s : State) (run : State → Host.Outcome State Fault Refusal) : Prop :=
  run (s.withInputs a d) = mapNext (State.withInputs a d) (run s)

theorem runCommand_withInputs {α : Type} {need : KindNeed} {field : Option α} {mode : Mode}
    {body : α → State → Except Response State} (h : ∀ f, Ignores a d (body f) s) :
    RunsAlike a d s (runCommand need field mode body) := by
  unfold RunsAlike
  cases hf : s.fault with
  | true =>
    rw [runCommand_of_fault hf, runCommand_of_fault (s := s.withInputs a d) hf]
    rfl
  | false =>
    by_cases hk : kindTakes need s.kind = true
    · cases field with
      | none =>
        rw [runCommand_of_field hf hk rfl, runCommand_of_field (s := s.withInputs a d) hf hk rfl]
        rfl
      | some f =>
        by_cases hm : s.mode = mode
        · have hbody := h f
          unfold Ignores at hbody
          cases hb : body f s with
          | ok t =>
            rw [hb] at hbody
            rw [runCommand_of_ok hf hk rfl hm hb, runCommand_of_ok (s := s.withInputs a d) hf hk rfl hm hbody]
            rfl
          | error e =>
            rw [hb] at hbody
            rw [runCommand_of_error hf hk rfl hm hb, runCommand_of_error (s := s.withInputs a d) hf hk rfl hm hbody]
            rfl
        · rw [runCommand_of_mode hf hk rfl hm, runCommand_of_mode (s := s.withInputs a d) hf hk rfl hm]
          rfl
    · rw [runCommand_of_kind hf hk, runCommand_of_kind (s := s.withInputs a d) hf hk]
      rfl

theorem runPlain_withInputs {need : KindNeed} {mode : Mode} {body : State → Except Response State} (h : Ignores a d body s) :
    RunsAlike a d s (runPlain need mode body) :=
  runCommand_withInputs fun _ => h

theorem runPlain_ok_withInputs {need : KindNeed} {mode : Mode} {effect : State → State}
    (h : effect (s.withInputs a d) = (effect s).withInputs a d) :
    RunsAlike a d s (runPlain need mode fun s => .ok (effect s)) :=
  runPlain_withInputs (congrArg Except.ok h)

/-- A command runs the same with other operands in the columns its row of R97 leaves empty. -/
theorem exec_withInputs {i : Instr} (ha : readsA i = true → a = s.opA) (hd : readsDin i = true → d = s.opDin) :
    RunsAlike a d s (exec i) := by
  cases i with
  | constructReader =>
    obtain rfl := hd rfl
    rfl
  | constructWriter => rfl
  | constructWriterCap =>
    obtain rfl := ha rfl
    unfold RunsAlike
    rw [exec_constructWriterCap, exec_constructWriterCap]
    by_cases hcap : s.opA.toNat ≤ s.params.maxCapacity
    · rw [if_pos hcap]
      exact if_pos hcap
    · rw [if_neg hcap]
      exact if_neg hcap
  | finalizeExact | finalizeFull | mark | resetCursor | enterBit | enterByte | getStr =>
    refine runPlain_ok_withInputs ?_
    rfl
  | put =>
    obtain rfl := ha rfl
    exact runCommand_withInputs fun _ => State.emitSized_withInputs _ _ _ _ _
  | putBlkT =>
    obtain rfl := hd rfl
    exact runCommand_withInputs fun _ => State.emitSized_withInputs _ _ _ _ _
  | putBlk | putBlkRev =>
    obtain rfl := hd rfl
    exact runPlain_withInputs (State.emitSized_withInputs _ _ _ _ _)
  | putStr | putFstr =>
    obtain rfl := hd rfl
    exact runPlain_withInputs ignores_writeString
  | putUsmart | putSsmart | putXsmart | putBsmart =>
    obtain rfl := ha rfl
    exact runPlain_withInputs (ignores_requireRange fun _ => State.emitSized_withInputs _ _ _ _ _)
  | putBits =>
    obtain rfl := ha rfl
    exact runCommand_withInputs ignores_putField
  | getBits => exact runCommand_withInputs ignores_getField
  | getS | getU => exact runCommand_withInputs fun _ => ignores_readScalar _ _
  | getUsmart => exact runPlain_withInputs (ignores_map (State.usmartRead_withInputs s a d) fun _ => rfl)
  | getSsmart | getBsmart => exact runPlain_withInputs (ignores_map (State.takeSmart_withInputs _ _ s a d) fun _ => rfl)
  | getXsmart => exact runPlain_withInputs (ignores_map (xsmartLoop_withInputs _ _ s a d) fun _ => rfl)
  | getFstr => exact runPlain_withInputs ignores_readFlagged
  | getBlk | getBlkRev =>
    obtain rfl := ha rfl
    exact runPlain_withInputs (ignores_readBlock _)
  | getBlkT =>
    obtain rfl := ha rfl
    exact runCommand_withInputs fun _ => ignores_readBlock _

end

/-- Settles O20: `exec_withInputs` with one operand changed; the command itself writes neither. -/
theorem unnamedOperandsAreIgnored : Obligations.UnnamedOperandsAreIgnored := by
  intro i s t h
  obtain ⟨_, hopA, hopDin, _⟩ := (writesOnly_of_exec h).inputs
  refine ⟨fun ha a => ?otherA, fun hd d => ?otherDin⟩
  case otherA =>
    have hrun := exec_withInputs (i := i) (s := s) (a := a) (d := s.opDin) (by simp [ha]) fun _ => rfl
    rw [RunsAlike, h] at hrun
    refine hrun.trans ?_
    rw [← hopDin]
    rfl
  case otherDin =>
    have hrun := exec_withInputs (i := i) (s := s) (a := s.opA) (d := d) (fun _ => rfl) (by simp [hd])
    rw [RunsAlike, h] at hrun
    refine hrun.trans ?_
    rw [← hopA]
    rfl

end Sys2Proof.Machine

/-! ## Construction, access mode, growth and the host's view

(40_lifecycle.md R130 to R135, 41_access_mode.md, 00_scope.md R11, 10_state.md R34.) -/

namespace Sys2Proof.Machine

open Claims

/-! ### CONSTRUCT (R130 to R132, R135) -/

/-- Every field a successful CONSTRUCT writes (R39, R391). -/
theorem State.construct_eq {s : State} {k : Kind} {m : Memory} {len cap : Nat} :
    s.construct k m len cap = { s with
      kind := k, mode := .byte, cursor := 0, bitIdx := 0, len := reg len, cap := reg cap, mark := 0, mem := m,
      resp := .ok, fault := false, err := .ok } := rfl

/-- Settles O21: the unit is built over `Memory.ofBytes` of DIN, which reads as DIN. -/
theorem constructReaderLoadsDin : Obligations.ConstructReaderLoadsDin := by
  intro s hp hdin
  have hlen := reg_toNat_of_le hp hdin
  refine ⟨_, rfl, rfl, hlen, ⟨Memory.wf_ofBytes _, ?_⟩, fun k _ => Memory.read_ofBytes s.opDin k⟩
  rw [State.construct_mem, State.construct_cap, hlen]
  exact Memory.within_ofBytes _

/-- Settles O22: both commands build over the empty storage; past MAX_CAPACITY the second fails. -/
theorem constructWriterStartsEmpty : Obligations.ConstructWriterStartsEmpty := by
  intro s hp
  refine ⟨⟨_, rfl, rfl, reg_toNat_of_le hp hp.2.2, Memory.read_nil⟩, fun hA => ?fits, fun hA => ?overflow⟩
  case fits =>
    refine ⟨s.construct .writer [] 0 s.opA.toNat, ?_, ?_, Memory.read_nil⟩
    · rw [exec_constructWriterCap, if_pos hA]
    · rw [State.construct_eq, reg_self]
      rfl
  case overflow =>
    rw [exec_constructWriterCap, if_neg (Nat.not_le.mpr hA)]
    rfl

/-! ### Access mode (R160, R161) -/

theorem exec_enterBit (s : State) :
    exec .enterBit s = runPlain .built .byte (fun u => .ok { u with bitIdx := reg (u.cursor.toNat * 8), mode := .bit }) s := rfl

theorem exec_enterByte (s : State) :
    exec .enterByte s =
      runPlain .built .bit (fun u => .ok { u with cursor := reg ((u.bitIdx.toNat + 7) / 8), mode := .byte }) s := rfl

/-- Settles O25: each command sets the other cursor behind the checks of KIND and MODE, and neither value wraps. -/
theorem accessModeSwitchesSetTheOtherCursor : Obligations.AccessModeSwitchesSetTheOtherCursor := by
  refine ⟨by decide, by decide, fun s hf => ?_⟩
  rw [exec_enterBit, exec_enterByte]
  refine ⟨fun hk hm hcursor => ?enterBit, fun hk hm => ?enterByte, fun hk hm => ?inBit, fun hk hm => ?inByte, fun hk => ?noKind⟩
  case enterBit => exact ⟨_, runPlain_of_ok hf (kindTakes_built_iff.mpr hk) hm rfl, rfl, reg_toNat (by omega)⟩
  case enterByte => exact ⟨_, runPlain_of_ok hf (kindTakes_built_iff.mpr hk) hm rfl, rfl, reg_toNat (by omega)⟩
  case inBit => exact runPlain_of_mode hf (kindTakes_built_iff.mpr hk) (by simp [hm])
  case inByte => exact runPlain_of_mode hf (kindTakes_built_iff.mpr hk) (by simp [hm])
  case noKind =>
    have hrejects := mt kindTakes_built_iff.mp (not_not.mpr hk)
    exact ⟨runPlain_of_kind hf hrejects, runPlain_of_kind hf hrejects⟩

/-! ### Transforms (R184) -/

/-- Adding and subtracting 0x80 are the same change of bit 7. -/
theorem add_128_eq_xor : ∀ b : Byte, b + 128#8 = b ^^^ 0x80#8 := by decide

theorem encByte_eq_decByte (t : Transform) (b : Byte) : encByte t b = decByte t b := by
  cases t with
  | none | subtract | negate => rfl
  | add => rw [encByte_add, decByte_add, BitVec.sub_eq_add_neg]; rfl

theorem decByte_encByte (t : Transform) (b : Byte) : decByte t (encByte t b) = b := by
  cases t with
  | none => rfl
  | add => rw [encByte_add, decByte_add, BitVec.add_sub_cancel]
  | subtract => rw [encByte_subtract, decByte_subtract, sub_sub_cancel]
  | negate => rw [encByte_negate, decByte_negate, BitVec.neg_neg]

/-- Settles O27: each transform undoes itself, and a sum with 0x80 carries out of bit 7 alone. -/
theorem transformsAreTheirOwnInverse : Obligations.TransformsAreTheirOwnInverse :=
  fun t b => ⟨decByte_encByte t b, encByte_eq_decByte t b, add_128_eq_xor b⟩

/-! ### Growth (R11) -/

/-- The table that holds the growths of `f` on the pairs met. -/
def growthTable (f : Nat → Nat → Nat) (met : List (Nat × Nat)) : List Config.GrowthRow :=
  met.map fun c => ⟨c.1, c.2, f c.1 c.2⟩

/-- A pair met has a row, and any row found for it holds the value of `f`. -/
theorem find?_growthTable {f : Nat → Nat → Nat} {met : List (Nat × Nat)} {cap need : Nat} (h : (cap, need) ∈ met) :
    (growthTable f met).find? (fun g => g.cap == cap && g.need == need) = some ⟨cap, need, f cap need⟩ := by
  have hfound : ((growthTable f met).find? (fun g => g.cap == cap && g.need == need)).isSome :=
    List.find?_isSome.mpr ⟨_, List.mem_map_of_mem h, by simp⟩
  obtain ⟨g, hg⟩ := Option.isSome_iff_exists.mp hfound
  have hkey : g.cap = cap ∧ g.need = need := by simpa using List.find?_some hg
  obtain ⟨c, _, rfl⟩ := List.mem_map.mp (List.mem_of_find?_eq_some hg)
  obtain ⟨rfl, rfl⟩ := hkey
  exact hg

/-- Settles O55: the rule's bounds hold of every table; the table of the pairs met gives a legal GROW its own values. -/
theorem growthTablesAreTheLegalGrowths : Obligations.GrowthTablesAreTheLegalGrowths := by
  refine ⟨fun p cap need h => ⟨growTo_ge p cap need, growTo_le h⟩, fun max dflt f met hf => ?_⟩
  refine ⟨⟨max, dflt, growthTable f met⟩, rfl, rfl, fun c hc hle => ?_⟩
  simp only [growTo, find?_growthTable hc, if_pos (hf c.1 c.2 hle)]

/-! ### The host's view (R34) -/

theorem toNat_responseCode (e : Response) : (responseCode e).toNat = codeOf e := by
  cases e <;> rfl

theorem toNat_kindCode (k : Kind) : (kindCode k).toNat = kindBits k := by
  cases k <;> rfl

theorem toNat_modeCode (m : Mode) : (modeCode m).toNat = (decide (m = .bit)).toNat := by
  cases m <;> rfl

theorem respWord_eq (s : State) : respWord s = BitVec.ofNat 32 (codeOf s.resp) := by
  rw [respWord, ← toNat_responseCode, BitVec.ofNat_toNat]

/-- The four fields of STATUS lie in bits of their own, so their union is their sum. -/
theorem statusWord_eq (s : State) :
    statusWord s = BitVec.ofNat 32
      (s.fault.toNat + 2 * (decide (s.mode = .bit)).toNat + 4 * kindBits s.kind + 16 * codeOf s.err) := by
  have hsum : ∀ (f : Bool) (m : BitVec 1) (k : BitVec 2) (e : BitVec 3),
      (BitVec.ofBool f).setWidth 32 ||| m.setWidth 32 <<< 1 ||| k.setWidth 32 <<< 2 ||| e.setWidth 32 <<< 4 =
        BitVec.ofNat 32 (f.toNat + 2 * m.toNat + 4 * k.toNat + 16 * e.toNat) := by decide
  rw [statusWord, hsum, toNat_modeCode, toNat_kindCode, toNat_responseCode]

theorem lenRegister_eq (s : State) :
    lenRegister s = if s.kind = .reader then s.len else if s.kind = .writer then s.cursor else 0 := by
  cases hk : s.kind <;> simp [lenRegister, hk]

theorem capRegister_eq (s : State) :
    capRegister s = if s.kind = .writer then s.cap else if s.kind = .reader then s.len else 0 := by
  cases hk : s.kind <;> simp [capRegister, hk]

/-- Settles O53: STATUS, RESP, LEN and CAP by their own equations; the other registers read as they are. -/
theorem hostReadsTheRegisterMap : Obligations.HostReadsTheRegisterMap :=
  ⟨rfl, fun s => ⟨congrArg _ (statusWord_eq s), congrArg _ (respWord_eq s), rfl, rfl, congrArg _ (lenRegister_eq s),
    congrArg _ (capRegister_eq s), rfl, rfl, rfl⟩⟩

end Sys2Proof.Machine

/-! ## Writing and reading bytes (00_scope.md R15)

Every writing command in BYTE mode is `emit` behind its checks, and every reading one is `take`; what each leaves is said once
here, for all of them, in the words of the statements (`emits`, `consumed`, `latched`). -/

namespace Sys2Proof.Machine

open Claims

/-! ### A reader's commands -/

section

variable {α : Type} {field : Option α} {mode : Mode} {body : α → State → Except Response State} {s t : State} {f : α}
  {e : Response} {bodyPlain : State → Except Response State}

theorem runReader_of_ok (h : ready .reader mode s) (hd : field = some f) (hb : body f s = .ok t) :
    runCommand .reader field mode body s = .next { t with resp := .ok } :=
  runCommand_of_ok h.1 (kindTakes_reader_iff.mpr h.2.1) hd h.2.2 hb

theorem runReader_of_error (h : ready .reader mode s) (hd : field = some f) (hb : body f s = .error e) :
    runCommand .reader field mode body s = .next (latched e s) := by
  rw [runCommand_of_error h.1 (kindTakes_reader_iff.mpr h.2.1) hd h.2.2 hb, State.raise_of_not_fault h.1]

theorem runPlainReader_of_ok (h : ready .reader mode s) (hb : bodyPlain s = .ok t) :
    runPlain .reader mode bodyPlain s = .next { t with resp := .ok } :=
  runReader_of_ok h rfl hb

theorem runPlainReader_of_error (h : ready .reader mode s) (hb : bodyPlain s = .error e) :
    runPlain .reader mode bodyPlain s = .next (latched e s) :=
  runReader_of_error h rfl hb

/-! ### A writer's commands -/

theorem runWriter_of_ok (h : ready .writer mode s) (hd : field = some f) (hb : body f s = .ok t) :
    runCommand .writer field mode body s = .next { t with resp := .ok } :=
  runCommand_of_ok h.1 (kindTakes_writer_iff.mpr h.2.1) hd h.2.2 hb

theorem runWriter_of_error (h : ready .writer mode s) (hd : field = some f) (hb : body f s = .error e) :
    runCommand .writer field mode body s = .next (latched e s) := by
  rw [runCommand_of_error h.1 (kindTakes_writer_iff.mpr h.2.1) hd h.2.2 hb, State.raise_of_not_fault h.1]

/-- What `emit` leaves is what the statements call `emitted` (R15). -/
theorem exists_emitted_of_le {bytes : List Byte} (hp : s.params.legal) (hm : s.memInv)
    (h : s.cursor.toNat + bytes.length ≤ s.params.maxCapacity) :
    ∃ t, s.emit bytes = .ok t ∧ emitted s { t with resp := .ok } bytes := by
  obtain ⟨t, ht, hframe, hcursor, hcap, hmem, _⟩ := State.emitSized_of_le (f := fun _ => bytes) rfl hp hm h
  refine ⟨t, ht, ?frame, hcursor, hcap, fun k hk => ?new, fun a ha => ?old⟩
  case frame =>
    conv_lhs => rw [hframe]
  case new =>
    simp only [hmem]
    rw [Memory.read_writeBytes hm.1, if_pos (by omega), Nat.add_sub_cancel_left]
    rfl
  case old =>
    simp only [hmem]
    rw [Memory.read_writeBytes hm.1, if_neg (by omega)]

/-- A command whose body is `emit` of some bytes `emits` them. -/
theorem emits_of_runCommand {i : Instr} {bytes : List Byte} (hs : writing s)
    (hrun : exec i s = runCommand .writer field .byte body s) (hd : field = some f) (hb : body f s = s.emit bytes) :
    emits i s bytes := by
  obtain ⟨hready, hp, hm⟩ := hs
  refine ⟨fun hle => ?fits, fun hgt => ?tooLong⟩
  case fits =>
    obtain ⟨t, ht, hemitted⟩ := exists_emitted_of_le hp hm hle
    exact ⟨_, hrun.trans (runWriter_of_ok hready hd (hb.trans ht)), hemitted⟩
  case tooLong => exact hrun.trans (runWriter_of_error hready hd (hb.trans (State.emitSized_of_gt hgt)))

theorem emits_of_runPlain {i : Instr} {bytes : List Byte} (hs : writing s)
    (hrun : exec i s = runPlain .writer .byte bodyPlain s) (hb : bodyPlain s = s.emit bytes) : emits i s bytes :=
  emits_of_runCommand hs hrun rfl hb

/-- A command that emits and completes has emitted: past MAX_CAPACITY it would not complete. -/
theorem emitted_of_emits {i : Instr} {bytes : List Byte} (h : emits i s bytes) (ht : exec i s = .next t) (hok : t.resp = .ok) :
    emitted s t bytes := by
  rcases Nat.lt_or_ge s.params.maxCapacity (s.cursor.toNat + bytes.length) with hgt | hle
  · cases (h.2 hgt).symm.trans ht
    cases hok
  · obtain ⟨u, hu, hemitted⟩ := h.1 hle
    cases hu.symm.trans ht
    exact hemitted

theorem resp_ne_ok_of_latched {i : Instr} (he : e ≠ .ok) (h : exec i s = .next (latched e s)) (ht : exec i s = .next t) :
    t.resp ≠ .ok := by
  cases h.symm.trans ht
  exact he

theorem emitted_length {bytes : List Byte} (h : emitted s t bytes) : t.cursor.toNat - s.cursor.toNat = bytes.length := by
  obtain ⟨_, hcursor, _⟩ := h
  rw [hcursor, Nat.add_sub_cancel_left]

/-- A reader over the bytes written has them at its CURSOR. -/
theorem read_of_holdsAt {u : State} {bytes : List Byte} (h : emitted s t bytes)
    (hu : holdsAt u t.mem s.cursor.toNat bytes.length) {k : Nat} (hk : k < bytes.length) :
    u.mem.read (u.cursor.toNat + k) = bytes.getD k 0 := by
  obtain ⟨_, _, _, hnew, _⟩ := h
  rw [hu.2 k hk, hnew k hk]

theorem readBytes_of_holdsAt {u : State} {bytes : List Byte} (h : emitted s t bytes)
    (hu : holdsAt u t.mem s.cursor.toNat bytes.length) : u.mem.readBytes u.cursor.toNat bytes.length = bytes :=
  Memory.readBytes_eq fun _ => read_of_holdsAt h hu

end

/-! ## Scalar fields (42_scalar.md R182 to R188)

A number is given by its bytes: a field's value is the one number whose byte j is what the reader finds at the position of
byte j. -/

/-! ### The bytes of a number -/

theorem getLsbD_byteOf (v j k : Nat) : (byteOf v j).getLsbD k = (decide (k < 8) && v.testBit (8 * j + k)) := by
  simp [byteOf, BitVec.getLsbD_ofNat, Nat.testBit_shiftRight]

theorem byteOf_mod {v n j : Nat} (hj : j < n) : byteOf (v % 2 ^ (8 * n)) j = byteOf v j := by
  refine BitVec.eq_of_getLsbD_eq fun k hk => ?_
  rw [getLsbD_byteOf, getLsbD_byteOf, Nat.testBit_mod_two_pow, decide_eq_true (show 8 * j + k < 8 * n by omega),
    Bool.true_and]

/-- Two numbers of n bytes with the same bytes are equal. -/
theorem eq_of_byteOf_eq {v v' n : Nat} (hv : v < 2 ^ (8 * n)) (hv' : v' < 2 ^ (8 * n))
    (h : ∀ j < n, byteOf v j = byteOf v' j) : v = v' := by
  refine Nat.eq_of_testBit_eq fun i => ?_
  rcases Nat.lt_or_ge i (8 * n) with hlt | hge
  · have hbit := congrArg (·.getLsbD (i % 8)) (h (i / 8) (by omega))
    have hlt8 : i % 8 < 8 := by omega
    simpa only [getLsbD_byteOf, decide_eq_true hlt8, Bool.true_and, Nat.div_add_mod] using hbit
  · have hpow : 2 ^ (8 * n) ≤ 2 ^ i := Nat.pow_le_pow_right (by decide) hge
    rw [Nat.testBit_eq_false_of_lt (hv.trans_le hpow), Nat.testBit_eq_false_of_lt (hv'.trans_le hpow)]

/-- The number assembled from bytes has those bits and no other. -/
theorem testBit_foldl_bytes (g : Nat → Byte) (n i : Nat) :
    ((List.range n).foldl (fun v j => v ||| ((g j).toNat <<< (8 * j))) 0).testBit i =
      (decide (i < 8 * n) && (g (i / 8)).getLsbD (i % 8)) := by
  induction n with
  | zero => simp
  | succ n ih =>
    rw [List.range_succ, List.foldl_append, List.foldl_cons, List.foldl_nil, Nat.testBit_or, ih, Nat.testBit_shiftLeft,
      BitVec.testBit_toNat]
    rcases Nat.lt_trichotomy (i / 8) n with hlt | rfl | hgt
    · simp [show i < 8 * n by omega, show i < 8 * (n + 1) by omega, show ¬ 8 * n ≤ i by omega]
    · simp [show ¬ i < 8 * (i / 8) by omega, show i < 8 * (i / 8 + 1) by omega, show 8 * (i / 8) ≤ i by omega,
        show i - 8 * (i / 8) = i % 8 by omega]
    · rw [BitVec.getLsbD_of_ge _ _ (show 8 ≤ i - 8 * n by omega)]
      simp [show ¬ i < 8 * n by omega, show ¬ i < 8 * (n + 1) by omega]

/-! ### Assembling a field (R185) -/

/-- Value byte j of a field, from the bytes taken. -/
def fieldByte (f : ScalarField) (bytes : List Byte) (j : Nat) : Byte :=
  if j = 0 then decByte f.transform (bytes.getD (streamPos f.order (widthBytes f.width) j) 0)
  else bytes.getD (streamPos f.order (widthBytes f.width) j) 0

theorem assemble_eq (f : ScalarField) (bytes : List Byte) :
    assemble f bytes =
      (List.range (widthBytes f.width)).foldl (fun v j => v ||| ((fieldByte f bytes j).toNat <<< (8 * j))) 0 := rfl

theorem assemble_lt (f : ScalarField) (bytes : List Byte) : assemble f bytes < 2 ^ (8 * widthBytes f.width) := by
  refine Nat.lt_pow_two_of_testBit _ fun i hi => ?_
  rw [assemble_eq, testBit_foldl_bytes, decide_eq_false (by omega), Bool.false_and]

theorem byteOf_assemble {f : ScalarField} (bytes : List Byte) {j : Nat} (hj : j < widthBytes f.width) :
    byteOf (assemble f bytes) j = fieldByte f bytes j := by
  refine BitVec.eq_of_getLsbD_eq fun k hk => ?_
  rw [getLsbD_byteOf, assemble_eq, testBit_foldl_bytes, decide_eq_true hk, decide_eq_true (by omega), Bool.true_and,
    Bool.true_and, show (8 * j + k) / 8 = j by omega, show (8 * j + k) % 8 = k by omega]

/-- What PUT's bytes give at the position of value byte j is that byte, its transform undone. -/
theorem fieldByte_scalarBytes {f : ScalarField} (hf : combines f = true) (v : Nat) {j : Nat} (hj : j < widthBytes f.width) :
    fieldByte f (scalarBytes f v) j = byteOf v j := by
  rw [fieldByte, scalarBytes_getD_streamPos v hf hj]
  split
  · exact decByte_encByte _ _
  · rfl

theorem assemble_scalarBytes {f : ScalarField} (hf : combines f = true) {v : Nat} (hv : v < 2 ^ (8 * widthBytes f.width)) :
    assemble f (scalarBytes f v) = v :=
  eq_of_byteOf_eq (assemble_lt f _) hv fun j hj => by rw [byteOf_assemble _ hj, fieldByte_scalarBytes hf v hj]

/-! ### The commands -/

theorem combines_of_scalarField {wid : BitVec 4} {ord tr : BitVec 3} {f : ScalarField} (h : scalarField wid ord tr = some f) :
    combines f = true := by
  unfold scalarField at h
  split at h
  · split at h
    · cases h
      assumption
    · cases h
  · cases h

theorem unsignedField_of_scalarField {wid : BitVec 4} {ord tr : BitVec 3} {f : ScalarField}
    (h : scalarField wid ord tr = some f) (hw : wid ≠ 8#4) : unsignedField wid ord tr = some f := by
  rw [unsignedField_eq, ← h, scalarField_eq]
  simp only [hw, ne_eq, not_false_eq_true, and_true]

theorem ofNat_mod_two_pow (n v : Nat) : BitVec.ofNat n (v % 2 ^ n) = BitVec.ofNat n v :=
  BitVec.eq_of_toNat_eq (by rw [BitVec.toNat_ofNat, BitVec.toNat_ofNat, Nat.mod_mod])

theorem zext_of_lt {n v : Nat} (hv : v < 2 ^ n) : zext n v = BitVec.ofNat 64 v := by
  refine BitVec.eq_of_toNat_eq ?_
  rw [zext, BitVec.toNat_setWidth, BitVec.toNat_ofNat, BitVec.toNat_ofNat, Nat.mod_eq_of_lt hv]

/-- Settles O29: PUT emits the field's bytes; the value's byte j, cut to the field, is A's. -/
theorem putWritesTheField : Obligations.PutWritesTheField := by
  intro s wid ord tr f hs hf
  refine ⟨scalarBytes f (s.opA.toNat % 2 ^ (8 * widthBytes f.width)), length_scalarBytes _ _,
    emits_of_runCommand hs rfl hf rfl, fun j hj => ?_⟩
  rw [scalarBytes_getD_streamPos _ (combines_of_scalarField hf) hj, byteOf_mod hj, byteOf_eq_ofNat_div]
  split
  · rename_i h0
    rw [h0, pow_zero, Nat.div_one]
  · rfl

section

variable {s : State} {wid : BitVec 4} {ord tr : BitVec 3} {f : ScalarField}

theorem State.readScalar_of_le (widen : Nat → Nat → DWord) (h : s.cursor.toNat + widthBytes f.width ≤ s.len.toNat) :
    s.readScalar widen f = .ok { s with
      cursor := reg (s.cursor.toNat + widthBytes f.width)
      r := widen (8 * widthBytes f.width) (assemble f (s.mem.readBytes s.cursor.toNat (widthBytes f.width))) } := by
  rw [State.readScalar, State.take_of_le h]
  rfl

theorem State.readScalar_of_gt (widen : Nat → Nat → DWord) (h : s.len.toNat < s.cursor.toNat + widthBytes f.width) :
    s.readScalar widen f = .error .boundsError := by
  rw [State.readScalar, State.take_of_gt h]
  rfl

theorem exec_getS_of_le (hs : ready .reader .byte s) (hf : scalarField wid ord tr = some f)
    (h : s.cursor.toNat + widthBytes f.width ≤ s.len.toNat) :
    exec (.getS wid ord tr) s = .next { consumed (widthBytes f.width) s with
      r := sext (8 * widthBytes f.width) (assemble f (s.mem.readBytes s.cursor.toNat (widthBytes f.width))) } :=
  runReader_of_ok hs hf (State.readScalar_of_le sext h)

theorem exec_getU_of_le (hs : ready .reader .byte s) (hf : scalarField wid ord tr = some f) (hw : wid ≠ 8#4)
    (h : s.cursor.toNat + widthBytes f.width ≤ s.len.toNat) :
    exec (.getU wid ord tr) s = .next { consumed (widthBytes f.width) s with
      r := BitVec.ofNat 64 (assemble f (s.mem.readBytes s.cursor.toNat (widthBytes f.width))) } := by
  rw [← zext_of_lt (assemble_lt f _)]
  exact runReader_of_ok hs (unsignedField_of_scalarField hf hw) (State.readScalar_of_le zext h)

end

/-- Settles O30: v is what the field's bytes assemble to. -/
theorem getReadsTheField : Obligations.GetReadsTheField := by
  intro s wid ord tr f hs hf
  refine ⟨fun hle => ?fits, fun hgt => ?tooFew⟩
  case fits =>
    refine ⟨_, assemble_lt f (s.mem.readBytes s.cursor.toNat (widthBytes f.width)), fun j hj => ?_, exec_getS_of_le hs hf hle,
      fun hw => exec_getU_of_le hs hf hw hle⟩
    obtain ⟨hpos, _⟩ := streamPos_lt_and_byteIndexAt_streamPos (combines_of_scalarField hf) hj
    have hbyte := Memory.getD_readBytes s.mem s.cursor.toNat _ _ hpos
    rw [← byteOf_eq_ofNat_div, byteOf_assemble _ hj, fieldByte, ← hbyte]
    split <;> rfl
  case tooFew =>
    exact ⟨runReader_of_error hs hf (State.readScalar_of_gt sext hgt), fun hw =>
      runReader_of_error hs (unsignedField_of_scalarField hf hw) (State.readScalar_of_gt zext hgt)⟩

/-- Settles O31: the reader has PUT's bytes at its CURSOR, and they assemble to the value. -/
theorem scalarFieldsRoundTrip : Obligations.ScalarFieldsRoundTrip := by
  intro s t u wid ord tr f hs hf ht hok hu hheld
  have hemits : emits (.put wid ord tr) s (scalarBytes f (s.opA.toNat % 2 ^ (8 * widthBytes f.width))) :=
    emits_of_runCommand hs rfl hf rfl
  rw [← length_scalarBytes f (s.opA.toNat % 2 ^ (8 * widthBytes f.width))] at hheld
  have hbytes := readBytes_of_holdsAt (emitted_of_emits hemits ht hok) hheld
  rw [length_scalarBytes] at hheld hbytes
  have hvalue := assemble_scalarBytes (combines_of_scalarField hf)
    (Nat.mod_lt s.opA.toNat (Nat.two_pow_pos (8 * widthBytes f.width)))
  refine ⟨?signed, fun hw => ?unsigned⟩
  case signed =>
    rw [exec_getS_of_le hu hf hheld.1, hbytes, hvalue, sext, ofNat_mod_two_pow]
  case unsigned =>
    rw [exec_getU_of_le hu hf hw hheld.1, hbytes, hvalue]

end Sys2Proof.Machine

/-! ## Smart integers (44_varint.md)

A smart is a big-endian number of one to four bytes. Reading and writing are each said once for that number; the forms differ in
its width and in what is added to it. -/

namespace Sys2Proof.Machine

open Claims

/-! ### Big-endian numbers -/

theorem beValue_append (bytes : List Byte) (b : Byte) : beValue (bytes ++ [b]) = 256 * beValue bytes + b.toNat := by
  rw [beValue, List.foldl_append, List.foldl_cons, List.foldl_nil, ← Nat.shiftLeft_add_eq_or_of_lt b.isLt,
    Nat.shiftLeft_eq, Nat.mul_comm]
  rfl

theorem beValue_one (b0 : Byte) : beValue [b0] = b0.toNat := by
  rw [← List.nil_append [b0], beValue_append, beValue, List.foldl_nil, Nat.mul_zero, Nat.zero_add]

theorem beValue_two (b0 b1 : Byte) : beValue [b0, b1] = 256 * b0.toNat + b1.toNat := by
  rw [show [b0, b1] = [b0] ++ [b1] from rfl, beValue_append, beValue_one]

theorem beValue_four (b0 b1 b2 b3 : Byte) :
    beValue [b0, b1, b2, b3] = 2 ^ 24 * b0.toNat + 2 ^ 16 * b1.toNat + 2 ^ 8 * b2.toNat + b3.toNat := by
  rw [show [b0, b1, b2, b3] = [b0, b1] ++ [b2] ++ [b3] from rfl, beValue_append, beValue_append, beValue_two]
  omega

theorem beBytes_one (v : Nat) : beBytes 1 v = [BitVec.ofNat 8 v] := rfl

theorem beBytes_two (v : Nat) : beBytes 2 v = [BitVec.ofNat 8 (v / 256), BitVec.ofNat 8 (v % 256)] := by
  have hlow : BitVec.ofNat 8 (v % 256) = BitVec.ofNat 8 v := ofNat_mod_two_pow 8 v
  rw [hlow, show beBytes 2 v = [byteOf v 1, byteOf v 0] from rfl, byteOf_eq_ofNat_div, byteOf_eq_ofNat_div, pow_zero, pow_one,
    Nat.div_one]

theorem beBytes_four (v : Nat) :
    beBytes 4 v = [BitVec.ofNat 8 (v / 2 ^ 24), BitVec.ofNat 8 (v / 2 ^ 16), BitVec.ofNat 8 (v / 2 ^ 8), BitVec.ofNat 8 v] := by
  rw [show beBytes 4 v = [byteOf v 3, byteOf v 2, byteOf v 1, byteOf v 0] from rfl]
  simp only [byteOf_eq_ofNat_div, pow_zero, Nat.div_one, ← pow_mul, show 256 = 2 ^ 8 from rfl]

/-! ### Reading a smart (R260) -/

section

variable {s : State}

theorem readBytes_one (m : Memory) (c : Nat) : m.readBytes c 1 = [m.read c] := rfl

theorem readBytes_two (m : Memory) (c : Nat) : m.readBytes c 2 = [m.read c, m.read (c + 1)] := rfl

theorem readBytes_four (m : Memory) (c : Nat) :
    m.readBytes c 4 = [m.read c, m.read (c + 1), m.read (c + 2), m.read (c + 3)] := rfl

theorem smartLength_of_lt {short long : Nat} (h : (s.mem.read s.cursor.toNat).toNat < 128) : s.smartLength short long = short :=
  if_pos h

theorem smartLength_of_ge {short long : Nat} (h : 128 ≤ (s.mem.read s.cursor.toNat).toNat) : s.smartLength short long = long :=
  if_neg (Nat.not_lt.mpr h)

theorem takeSmart_of_short {short long : Nat} (h : (s.mem.read s.cursor.toNat).toNat < 128) (hpos : 0 < short)
    (hle : s.cursor.toNat + short ≤ s.len.toNat) :
    s.takeSmart short long = .ok ((false, beValue (s.mem.readBytes s.cursor.toNat short)),
      { s with cursor := reg (s.cursor.toNat + short) }) := by
  rw [State.takeSmart_of_le (by omega) (by rw [smartLength_of_lt h]; exact hle), smartLength_of_lt h,
    decide_eq_false (Nat.not_le.mpr h)]

theorem takeSmart_of_long {short long : Nat} (h : 128 ≤ (s.mem.read s.cursor.toNat).toNat) (hpos : 0 < long)
    (hle : s.cursor.toNat + long ≤ s.len.toNat) :
    s.takeSmart short long = .ok ((true, beValue (s.mem.readBytes s.cursor.toNat long)),
      { s with cursor := reg (s.cursor.toNat + long) }) := by
  rw [State.takeSmart_of_le (by omega) (by rw [smartLength_of_ge h]; exact hle), smartLength_of_ge h, decide_eq_true h]

/-- Too few bytes are left: none, or fewer than bit 7 of the first asks for. -/
theorem takeSmart_of_few {short long : Nat} {b0 : Nat} (hb0 : b0 = (s.mem.read s.cursor.toNat).toNat)
    (h : s.len.toNat ≤ s.cursor.toNat ∨ b0 < 128 ∧ s.len.toNat < s.cursor.toNat + short ∨
      128 ≤ b0 ∧ s.len.toNat < s.cursor.toNat + long) : s.takeSmart short long = .error .boundsError := by
  subst hb0
  refine State.takeSmart_of_gt ?_
  obtain hend | ⟨hlt, hfew⟩ | ⟨hge, hfew⟩ := h
  · exact .inl hend
  · exact .inr (by rw [smartLength_of_lt hlt]; exact hfew)
  · exact .inr (by rw [smartLength_of_ge hge]; exact hfew)

theorem usmartRead_of_short (h : (s.mem.read s.cursor.toNat).toNat < 128) (hle : s.cursor.toNat + 1 ≤ s.len.toNat) :
    s.usmartRead = .ok ((s.mem.read s.cursor.toNat).toNat, { s with cursor := reg (s.cursor.toNat + 1) }) := by
  rw [State.usmartRead, takeSmart_of_short h Nat.one_pos hle, readBytes_one, beValue_one]
  rfl

theorem usmartRead_of_long (h : 128 ≤ (s.mem.read s.cursor.toNat).toNat) (hle : s.cursor.toNat + 2 ≤ s.len.toNat) :
    s.usmartRead = .ok
      (256 * (s.mem.read s.cursor.toNat).toNat + (s.mem.read (s.cursor.toNat + 1)).toNat - 32768,
        { s with cursor := reg (s.cursor.toNat + 2) }) := by
  rw [State.usmartRead, takeSmart_of_long h Nat.two_pos hle, readBytes_two, beValue_two]
  simp only [Except.map, usmartValue, if_true]

theorem usmartRead_of_few (h : s.len.toNat ≤ s.cursor.toNat ∨
    128 ≤ (s.mem.read s.cursor.toNat).toNat ∧ s.len.toNat < s.cursor.toNat + 2) : s.usmartRead = .error .boundsError := by
  rw [State.usmartRead, takeSmart_of_few rfl (by omega)]
  rfl

end

/-! ### The reading commands (R261, R263, R268) -/

/-- A number that `read` gives, put into R by `toR`. -/
theorem runPlainReader_map_r {α : Type} {read : State → Except Response (α × State)} {toR : α → DWord} {s t : State} {x : α}
    (hs : ready .reader .byte s) (h : read s = .ok (x, t)) :
    runPlain .reader .byte (fun u => (read u).map fun y => { y.2 with r := toR y.1 }) s =
      .next { t with r := toR x, resp := .ok } :=
  runPlainReader_of_ok (t := { t with r := toR x }) hs (by rw [h]; rfl)

theorem runPlainReader_map_error {α : Type} {read : State → Except Response (α × State)} {g : α × State → State} {s : State}
    {e : Response} (hs : ready .reader .byte s) (h : read s = .error e) :
    runPlain .reader .byte (fun u => (read u).map g) s = .next (latched e s) :=
  runPlainReader_of_error hs (by rw [h]; rfl)

section

variable {s t : State} {e : Response}

theorem exec_getUsmart_of_ok {u : Nat} (hs : ready .reader .byte s) (h : s.usmartRead = .ok (u, t)) :
    exec .getUsmart s = .next { t with r := zext 16 u, resp := .ok } :=
  runPlainReader_map_r hs h

theorem exec_getUsmart_of_error (hs : ready .reader .byte s) (h : s.usmartRead = .error e) :
    exec .getUsmart s = .next (latched e s) :=
  runPlainReader_map_error hs h

theorem exec_getSsmart_of_ok {x : Bool × Nat} (hs : ready .reader .byte s) (h : s.takeSmart 1 2 = .ok (x, t)) :
    exec .getSsmart s = .next { t with r := BitVec.ofInt 64 (ssmartValue x), resp := .ok } :=
  runPlainReader_map_r (read := State.takeSmart 1 2) (toR := fun x => BitVec.ofInt 64 (ssmartValue x)) hs h

theorem exec_getSsmart_of_error (hs : ready .reader .byte s) (h : s.takeSmart 1 2 = .error e) :
    exec .getSsmart s = .next (latched e s) :=
  runPlainReader_map_error (read := State.takeSmart 1 2) hs h

theorem exec_getBsmart_of_ok {x : Bool × Nat} (hs : ready .reader .byte s) (h : s.takeSmart 2 4 = .ok (x, t)) :
    exec .getBsmart s = .next { t with r := zext 32 (bsmartValue x), resp := .ok } :=
  runPlainReader_map_r (read := State.takeSmart 2 4) (toR := fun x => zext 32 (bsmartValue x)) hs h

theorem exec_getBsmart_of_error (hs : ready .reader .byte s) (h : s.takeSmart 2 4 = .error e) :
    exec .getBsmart s = .next (latched e s) :=
  runPlainReader_map_error (read := State.takeSmart 2 4) hs h

theorem exec_getXsmart_of_ok {v : DWord} (hs : ready .reader .byte s) (h : s.xsmartRead = .ok (v, t)) :
    exec .getXsmart s = .next { t with r := v, resp := .ok } :=
  runPlainReader_map_r (toR := id) hs h

theorem exec_getXsmart_of_error (hs : ready .reader .byte s) (h : s.xsmartRead = .error e) :
    exec .getXsmart s = .next (latched e s) :=
  runPlainReader_map_error hs h

end

/-- Settles O38: the smart read, zero-extended. -/
theorem getUsmartReadsOneOrTwoBytes : Obligations.GetUsmartReadsOneOrTwoBytes := by
  intro s b0 b1 hs hb0 hb1
  subst hb0 hb1
  refine ⟨fun h hle => ?short, fun h hle => ?long, fun h => exec_getUsmart_of_error hs (usmartRead_of_few h)⟩
  case short =>
    rw [exec_getUsmart_of_ok hs (usmartRead_of_short h hle), zext_of_lt (by omega)]
    rfl
  case long =>
    rw [exec_getUsmart_of_ok hs (usmartRead_of_long h hle), zext_of_lt (by omega)]
    rfl

/-- Settles O39: the smart read, less the offset of its form. -/
theorem getSsmartReadsOneOrTwoBytes : Obligations.GetSsmartReadsOneOrTwoBytes := by
  intro s b0 b1 hs hb0 hb1
  subst hb0 hb1
  refine ⟨fun h hle => ?short, fun h hle => ?long,
    fun h => exec_getSsmart_of_error hs (takeSmart_of_few rfl (by omega))⟩
  case short =>
    rw [exec_getSsmart_of_ok hs (takeSmart_of_short h Nat.one_pos hle), readBytes_one, beValue_one]
    rfl
  case long =>
    rw [exec_getSsmart_of_ok hs (takeSmart_of_long h Nat.two_pos hle), readBytes_two, beValue_two]
    simp only [ssmartValue, if_true, Nat.cast_add, Nat.cast_mul, Nat.cast_ofNat]
    rfl

/-- Clearing the top bit of a 4-byte number whose first byte has bit 7 set (R268). -/
theorem bsmartValue_long (b0 b1 b2 b3 : Byte) (h : 128 ≤ b0.toNat) :
    bsmartValue (true, beValue [b0, b1, b2, b3]) =
      2 ^ 24 * (b0.toNat - 128) + 2 ^ 16 * b1.toNat + 2 ^ 8 * b2.toNat + b3.toNat := by
  rw [bsmartValue, if_pos rfl, beValue_four, show 0x7FFFFFFF = 2 ^ 31 - 1 from rfl, Nat.and_two_pow_sub_one_eq_mod]
  omega

/-- Settles O40: two bytes as they are, or four with the top bit cleared. -/
theorem getBsmartReadsTwoOrFourBytes : Obligations.GetBsmartReadsTwoOrFourBytes := by
  intro s b0 b1 b2 b3 hs hb0 hb1 hb2 hb3
  subst hb0 hb1 hb2 hb3
  refine ⟨fun h hle => ?short, fun h hle => ?long, fun h => exec_getBsmart_of_error hs (takeSmart_of_few rfl h)⟩
  case short =>
    rw [exec_getBsmart_of_ok hs (takeSmart_of_short h Nat.two_pos hle), readBytes_two, beValue_two,
      bsmartValue, zext_of_lt (by simp only [Bool.false_eq_true, if_false]; omega)]
    rfl
  case long =>
    rw [exec_getBsmart_of_ok hs (takeSmart_of_long h (by decide) hle), readBytes_four, bsmartValue_long _ _ _ _ h,
      zext_of_lt (by omega)]
    rfl

/-! ### The chain (R265, R267) -/

theorem reg_add (a b : Nat) : reg (a + b) = reg a + reg b := BitVec.ofNat_add a b

/-- Two bytes FF FF are the sentinel. -/
theorem usmartRead_of_sentinel {s : State} (h0 : s.mem.read s.cursor.toNat = 0xFF#8)
    (h1 : s.mem.read (s.cursor.toNat + 1) = 0xFF#8)
    (hle : s.cursor.toNat + 2 ≤ s.len.toNat) :
    s.usmartRead = .ok (sentinel, { s with cursor := reg (s.cursor.toNat + 2) }) := by
  rw [usmartRead_of_long (by rw [h0]; decide) hle, h0, h1]
  rfl

/-- q sentinels and then a smart whose value is no sentinel (R265). -/
theorem xsmartLoop_of_chain {rounds : Nat} {acc : DWord} {s : State} {q u : Nat} {t : State} (hrounds : q < rounds)
    (hff : ∀ k < 2 * q, s.mem.read (s.cursor.toNat + k) = 0xFF#8) (hle : s.cursor.toNat + 2 * q ≤ s.len.toNat)
    (hlast : State.usmartRead { s with cursor := reg (s.cursor.toNat + 2 * q) } = .ok (u, t)) (hu : u ≠ sentinel) :
    xsmartLoop rounds acc s = .ok (acc + reg (sentinel * q + u), t) := by
  induction rounds generalizing acc s q with
  | zero => omega
  | succ rounds ih =>
    rw [xsmartLoop]
    cases q with
    | zero =>
      rw [Nat.mul_zero, Nat.add_zero, reg_self] at hlast
      simp only [hlast, if_neg hu, Nat.mul_zero, Nat.zero_add]
    | succ q =>
      have hcursor := State.take_cursor (s := s) (n := 2) (by omega)
      rw [usmartRead_of_sentinel (hff 0 (by omega)) (hff 1 (by omega)) (by omega)]
      simp only [if_true]
      rw [ih (q := q) (by omega) (fun k hk => ?ff) ?le ?last, BitVec.add_assoc, ← reg_add]
      case ff =>
        simp only [hcursor]
        rw [show s.cursor.toNat + 2 + k = s.cursor.toNat + (2 + k) by omega]
        exact hff (2 + k) (by omega)
      case le => simp only [hcursor]; omega
      case last =>
        simp only [hcursor]
        rw [show s.cursor.toNat + 2 + 2 * q = s.cursor.toNat + 2 * (q + 1) by omega]
        exact hlast
      rw [show sentinel + (sentinel * q + u) = sentinel * (q + 1) + u by rw [Nat.mul_succ]; omega]

/-- The chained read of a chain whose last smart is `u` (R265). -/
theorem xsmartRead_of_chain {s : State} {q u n : Nat} (hff : ∀ k < 2 * q, s.mem.read (s.cursor.toNat + k) = 0xFF#8)
    (hle : s.cursor.toNat + 2 * q ≤ s.len.toNat)
    (hlast : State.usmartRead { s with cursor := reg (s.cursor.toNat + 2 * q) } =
      .ok (u, { s with cursor := reg (s.cursor.toNat + 2 * q + n) })) (hu : u ≠ 32767) :
    s.xsmartRead = .ok (reg (32767 * q + u), { s with cursor := reg (s.cursor.toNat + (2 * q + n)) }) := by
  rw [State.xsmartRead, xsmartLoop_of_chain (by omega) hff hle hlast hu, zero_add, Nat.add_assoc]
  rfl

/-- A chain of sentinels that LEN or a last smart with too few bytes cuts off (R267). -/
theorem xsmartLoop_of_cut {rounds : Nat} {acc : DWord} {s : State} {q : Nat}
    (hff : ∀ k < 2 * q, s.mem.read (s.cursor.toNat + k) = 0xFF#8)
    (hcut : s.len.toNat ≤ s.cursor.toNat + 2 * q ∨
      128 ≤ (s.mem.read (s.cursor.toNat + 2 * q)).toNat ∧ s.len.toNat < s.cursor.toNat + 2 * q + 2) :
    xsmartLoop rounds acc s = .error .boundsError := by
  induction rounds generalizing acc s q with
  | zero => rfl
  | succ rounds ih =>
    rw [xsmartLoop]
    cases q with
    | zero => rw [usmartRead_of_few hcut]
    | succ q =>
      have hff0 : s.mem.read s.cursor.toNat = 0xFF#8 := hff 0 (by omega)
      rcases Nat.lt_or_ge s.len.toNat (s.cursor.toNat + 2) with hshort | hroom
      · rw [usmartRead_of_few (.inr ⟨by rw [hff0]; decide, hshort⟩)]
      · have hcursor := State.take_cursor hroom
        rw [usmartRead_of_sentinel hff0 (hff 1 (by omega)) hroom]
        simp only [if_true]
        refine ih (q := q) (fun k hk => ?ff) ?cut
        case ff =>
          simp only [hcursor]
          rw [show s.cursor.toNat + 2 + k = s.cursor.toNat + (2 + k) by omega]
          exact hff (2 + k) (by omega)
        case cut =>
          simp only [hcursor]
          rw [show s.cursor.toNat + 2 + 2 * q = s.cursor.toNat + 2 * (q + 1) by omega]
          exact hcut

/-- Settles O41: the chain's last smart is read where the sentinels end. -/
theorem getXsmartAddsTheChain : Obligations.GetXsmartAddsTheChain := by
  intro s q c b0 b1 hs hc hff hb0 hb1
  subst hc hb0 hb1
  refine ⟨fun h hle => ?short, fun h hne hle => ?long, fun h => ?cut⟩
  case short =>
    have hcursor := State.take_cursor (s := s) (n := 2 * q) (by omega)
    have hlast := usmartRead_of_short (s := { s with cursor := reg (s.cursor.toNat + 2 * q) })
      (by simpa only [hcursor] using h) (by simpa only [hcursor] using hle)
    simp only [hcursor] at hlast
    rw [exec_getXsmart_of_ok hs (xsmartRead_of_chain hff (by omega) hlast (by omega))]
    rfl
  case long =>
    have hcursor := State.take_cursor (s := s) (n := 2 * q) (by omega)
    have hlast := usmartRead_of_long (s := { s with cursor := reg (s.cursor.toNat + 2 * q) })
      (by simpa only [hcursor] using h) (by simpa only [hcursor] using hle)
    simp only [hcursor] at hlast
    rw [exec_getXsmart_of_ok hs (xsmartRead_of_chain hff (by omega) hlast (by omega))]
    rfl
  case cut => exact exec_getXsmart_of_error hs (xsmartLoop_of_cut hff h)

end Sys2Proof.Machine

/-! ## Writing smarts, and the round trips (44_varint.md R262 to R270) -/

namespace Sys2Proof.Machine

open Claims

/-! ### A as a signed number (R102) -/

theorem toNat_toInt_of_nonneg {a : DWord} (h : 0 ≤ a.toInt) : a.toInt.toNat = a.toNat := by
  have := a.isLt
  rw [BitVec.toInt_eq_toNat_cond] at h ⊢
  split <;> omega

theorem toInt_eq_toNat {a : DWord} (h : a.toNat < 2 ^ 63) : a.toInt = a.toNat := by
  rw [BitVec.toInt_eq_toNat_cond, if_pos (by omega)]

theorem toInt_le (a : DWord) : a.toInt ≤ 2 ^ 63 - 1 := by
  have := a.isLt
  rw [BitVec.toInt_eq_toNat_cond]
  split <;> omega

theorem ofNat_toNat_dword (a : DWord) : BitVec.ofNat 64 a.toNat = a := reg_self a

section

variable {i : Instr} {s : State} {lo hi : Int} {body : Int → State → Except Response State}

/-- A command that emits some bytes for each A in its range (R262, R264, R266, R269). -/
theorem emits_of_requireRange {bytes : List Byte} (hs : writing s)
    (hrun : exec i s = runPlain .writer .byte (State.requireRange lo hi body) s) (hA : lo ≤ s.opA.toInt ∧ s.opA.toInt ≤ hi)
    (hb : body s.opA.toInt s = s.emit bytes) : emits i s bytes :=
  emits_of_runPlain hs hrun (by rw [State.requireRange_of_mem hA, hb])

theorem exec_of_out_of_range (hs : writing s)
    (hrun : exec i s = runPlain .writer .byte (State.requireRange lo hi body) s) (hA : s.opA.toInt < lo ∨ hi < s.opA.toInt) :
    exec i s = .next (latched .rangeError s) :=
  hrun.trans (runWriter_of_error hs.1 rfl (State.requireRange_of_not_mem (by omega)))

end

/-! ### The bytes of the forms -/

theorem usmartBytes_eq (v : Nat) : usmartBytes v = usmartForm v := by
  rw [usmartBytes, usmartForm, beBytes_one, beBytes_two]

theorem ofInt_eq_ofNat {n : Nat} {v : Int} (h : 0 ≤ v) : BitVec.ofInt n v = BitVec.ofNat n v.toNat := by
  obtain ⟨x, rfl⟩ := Int.eq_ofNat_of_zero_le h
  exact BitVec.ofInt_natCast n x

theorem ssmartBytes_of_short {v : Int} (hmin : -64 ≤ v) (hmax : v ≤ 63) : ssmartBytes v = [BitVec.ofInt 8 (v + 64)] := by
  rw [ssmartBytes, if_pos ⟨hmin, hmax⟩, beBytes_one, ofInt_eq_ofNat (by omega)]

theorem ssmartBytes_of_long {v : Int} (h : -16384 ≤ v ∧ v < -64 ∨ 63 < v ∧ v ≤ 16383) :
    ssmartBytes v = [BitVec.ofInt 8 ((v + 49152) / 256), BitVec.ofInt 8 ((v + 49152) % 256)] := by
  rw [ssmartBytes, if_neg (by omega), beBytes_two, ofInt_eq_ofNat (by omega), ofInt_eq_ofNat (by omega),
    show ((v + 49152) / 256).toNat = (v + 49152).toNat / 256 by omega,
    show ((v + 49152) % 256).toNat = (v + 49152).toNat % 256 by omega]

theorem xsmartBytes_eq (v : Nat) :
    xsmartBytes v = List.replicate (2 * (v / 32767)) 0xFF#8 ++ usmartForm (v % 32767) := by
  rw [xsmartBytes, usmartBytes_eq, show beBytes 2 0xFFFF = List.replicate 2 0xFF#8 by decide,
    List.flatten_replicate_replicate, Nat.mul_comm]
  rfl

theorem bsmartBytes_of_short {v : Nat} (h : v ≤ 32767) :
    bsmartBytes v = [BitVec.ofNat 8 (v / 256), BitVec.ofNat 8 (v % 256)] := by
  rw [bsmartBytes, if_pos h, beBytes_two]

/-- Setting bit 31 adds 2^31, which is 0x80 in the first of the four bytes and nothing in the others. -/
theorem bsmartBytes_of_long {v : Nat} (hmin : 32767 < v) (hmax : v < 2 ^ 31) :
    bsmartBytes v =
      [BitVec.ofNat 8 (v / 2 ^ 24 + 128), BitVec.ofNat 8 (v / 2 ^ 16), BitVec.ofNat 8 (v / 2 ^ 8), BitVec.ofNat 8 v] := by
  have hset : v ||| 0x80000000 = v + 2 ^ 31 := by
    rw [Nat.or_comm, Nat.add_comm]
    exact (Nat.two_pow_add_eq_or_of_lt hmax 1).symm
  have hbyte {x y : Nat} (h : x % 256 = y % 256) : BitVec.ofNat 8 x = BitVec.ofNat 8 y := BitVec.eq_of_toNat_eq h
  have hb0 : BitVec.ofNat 8 ((v + 2 ^ 31) / 2 ^ 24) = BitVec.ofNat 8 (v / 2 ^ 24 + 128) := hbyte (by omega)
  have hb1 : BitVec.ofNat 8 ((v + 2 ^ 31) / 2 ^ 16) = BitVec.ofNat 8 (v / 2 ^ 16) := hbyte (by omega)
  have hb2 : BitVec.ofNat 8 ((v + 2 ^ 31) / 2 ^ 8) = BitVec.ofNat 8 (v / 2 ^ 8) := hbyte (by omega)
  have hb3 : BitVec.ofNat 8 (v + 2 ^ 31) = BitVec.ofNat 8 v := hbyte (by omega)
  rw [bsmartBytes, if_neg (by omega), hset, beBytes_four, hb0, hb1, hb2, hb3]

/-! ### The writing commands -/

/-- Settles O42: the range of A, then the smart's bytes. -/
theorem putUsmartWritesTheSmart : Obligations.PutUsmartWritesTheSmart := by
  intro s hs
  refine ⟨fun hmin hmax => emits_of_requireRange hs rfl ⟨hmin, hmax⟩ ?_, exec_of_out_of_range hs rfl⟩
  rw [toNat_toInt_of_nonneg hmin, usmartBytes_eq]

/-- Settles O43: the range of A, then the smart's bytes. -/
theorem putSsmartWritesTheSmart : Obligations.PutSsmartWritesTheSmart := by
  intro s v hs hv
  subst hv
  refine ⟨fun hmin hmax => ?short, fun h => ?long, exec_of_out_of_range hs rfl⟩
  case short => exact emits_of_requireRange hs rfl (by omega) (by rw [ssmartBytes_of_short hmin hmax])
  case long => exact emits_of_requireRange hs rfl (by omega) (by rw [ssmartBytes_of_long h])

/-- The chain's room is that of its bytes, asked for before they are built. -/
theorem emitSized_xsmartBytes (v : Nat) (s : State) :
    s.emitSized (xsmartLength v) (fun _ => xsmartBytes v) = s.emit (xsmartBytes v) := by
  rw [State.emit, length_xsmartBytes]

/-- Settles O44: every A from 0 on is in range. -/
theorem putXsmartWritesTheChain : Obligations.PutXsmartWritesTheChain := by
  intro s hs
  refine ⟨fun hmin => emits_of_requireRange hs rfl ⟨hmin, toInt_le _⟩ ?_, fun h => exec_of_out_of_range hs rfl (.inl h)⟩
  rw [toNat_toInt_of_nonneg hmin, emitSized_xsmartBytes, xsmartBytes_eq]

/-- Settles O45: the range of A, then the smart's bytes. -/
theorem putBsmartWritesTheSmart : Obligations.PutBsmartWritesTheSmart := by
  intro s v hs hv
  subst hv
  refine ⟨fun hmax => ?short, fun hmin hmax => ?long, exec_of_out_of_range hs rfl⟩
  case short =>
    have hA := toInt_eq_toNat (a := s.opA) (by omega)
    refine emits_of_requireRange hs rfl (by omega) ?_
    rw [hA, Int.toNat_natCast, bsmartBytes_of_short hmax]
  case long =>
    have hA := toInt_eq_toNat (a := s.opA) (by omega)
    refine emits_of_requireRange hs rfl (by omega) ?_
    rw [hA, Int.toNat_natCast, bsmartBytes_of_long hmin (by omega)]

/-! ### Reading back (R270) -/

/-- Reader `u` has exactly these bytes at its CURSOR, and LEN does not cut them off. -/
def HasBytes (u : State) (bytes : List Byte) : Prop :=
  u.cursor.toNat + bytes.length ≤ u.len.toNat ∧ ∀ k < bytes.length, u.mem.read (u.cursor.toNat + k) = bytes.getD k 0

/-- A reader over what a completed command emitted has its bytes, and their count is what CURSOR moved by. -/
theorem hasBytes_of_emits {i : Instr} {s t u : State} {bytes : List Byte} {n : Nat} (h : emits i s bytes)
    (ht : exec i s = .next t) (hok : t.resp = .ok) (hn : n = t.cursor.toNat - s.cursor.toNat)
    (hu : holdsAt u t.mem s.cursor.toNat n) : n = bytes.length ∧ HasBytes u bytes := by
  have hemitted := emitted_of_emits h ht hok
  rw [emitted_length hemitted] at hn
  subst hn
  exact ⟨rfl, hu.1, fun _ => read_of_holdsAt hemitted hu⟩

/-- What the reader of a round trip gives: A back, over exactly the bytes written. -/
def GivesBack (put get : Instr) : Prop :=
  ∀ (s t u : State) (n : Nat), writing s → exec put s = .next t → t.resp = .ok →
    n = t.cursor.toNat - s.cursor.toNat → ready .reader .byte u → holdsAt u t.mem s.cursor.toNat n →
      exec get u = .next { consumed n u with r := s.opA }

/-- The two bytes of an unsigned smart from 128 on. -/
theorem usmartForm_long_digits {v : Nat} (hmin : 128 ≤ v) (hmax : v ≤ 32767) :
    128 ≤ (BitVec.ofNat 8 ((v + 0x8000) / 256)).toNat ∧
      256 * (BitVec.ofNat 8 ((v + 0x8000) / 256)).toNat + (BitVec.ofNat 8 ((v + 0x8000) % 256)).toNat = v + 32768 := by
  rw [BitVec.toNat_ofNat, BitVec.toNat_ofNat]
  omega

theorem usmartForm_of_short {v : Nat} (h : v < 128) : usmartForm v = [BitVec.ofNat 8 v] := if_pos h

theorem usmartForm_of_long {v : Nat} (h : 128 ≤ v) :
    usmartForm v = [BitVec.ofNat 8 ((v + 0x8000) / 256), BitVec.ofNat 8 ((v + 0x8000) % 256)] := if_neg (Nat.not_lt.mpr h)

theorem HasBytes.read_getD {u : State} {bytes : List Byte} (h : HasBytes u bytes) (k : Nat) (hk : k < bytes.length) :
    u.mem.read (u.cursor.toNat + k) = bytes.getD k 0 := h.2 k hk

theorem usmart_givesBack : GivesBack .putUsmart .getUsmart := by
  intro s t u n hs ht hok hn hu hheld
  obtain ⟨hput, hrange⟩ := putUsmartWritesTheSmart s hs
  by_cases hA : 0 ≤ s.opA.toInt ∧ s.opA.toInt ≤ 32767
  · obtain ⟨rfl, hhas⟩ := hasBytes_of_emits (hput hA.1 hA.2) ht hok hn hheld
    have hnat := toNat_toInt_of_nonneg hA.1
    obtain ⟨hshort, hlong, _⟩ := getUsmartReadsOneOrTwoBytes u _ _ hu rfl rfl
    rcases Nat.lt_or_ge s.opA.toNat 128 with hlt | hge
    · rw [usmartForm_of_short hlt] at hhas ⊢
      have hb0 : u.mem.read u.cursor.toNat = _ := hhas.read_getD 0 (by simp)
      have hvalue : (u.mem.read u.cursor.toNat).toNat = s.opA.toNat := by
        rw [hb0, List.getD_cons_zero, BitVec.toNat_ofNat]
        omega
      rw [hvalue] at hshort
      exact (hshort hlt hhas.1).trans (by rw [ofNat_toNat_dword]; rfl)
    · rw [usmartForm_of_long hge] at hhas ⊢
      have hb0 : u.mem.read u.cursor.toNat = _ := hhas.read_getD 0 (by simp)
      have hb1 := hhas.read_getD 1 (by simp)
      obtain ⟨hdiscr, hvalue⟩ := usmartForm_long_digits hge (by omega)
      rw [hb0, hb1, List.getD_cons_zero, List.getD_cons_succ, List.getD_cons_zero, hvalue, Nat.add_sub_cancel] at hlong
      exact (hlong hdiscr hhas.1).trans (by rw [ofNat_toNat_dword]; rfl)
  · exact absurd hok (resp_ne_ok_of_latched (by decide) (hrange (by omega)) ht)

theorem ssmart_givesBack : GivesBack .putSsmart .getSsmart := by
  intro s t u n hs ht hok hn hu hheld
  obtain ⟨hputShort, hputLong, hrange⟩ := putSsmartWritesTheSmart s _ hs rfl
  obtain ⟨hshort, hlong, _⟩ := getSsmartReadsOneOrTwoBytes u _ _ hu rfl rfl
  by_cases hA : -64 ≤ s.opA.toInt ∧ s.opA.toInt ≤ 63
  · obtain ⟨rfl, hhas⟩ := hasBytes_of_emits (hputShort hA.1 hA.2) ht hok hn hheld
    have hb0 : u.mem.read u.cursor.toNat = _ := hhas.read_getD 0 (by simp)
    have hvalue : ((u.mem.read u.cursor.toNat).toNat : Int) = s.opA.toInt + 64 := by
      rw [hb0, List.getD_cons_zero, ofInt_eq_ofNat (by omega), BitVec.toNat_ofNat]
      omega
    rw [hvalue, Int.add_sub_cancel, BitVec.ofInt_toInt] at hshort
    exact hshort (by omega) hhas.1
  · by_cases hA' : -16384 ≤ s.opA.toInt ∧ s.opA.toInt ≤ 16383
    · obtain ⟨rfl, hhas⟩ := hasBytes_of_emits (hputLong (by omega)) ht hok hn hheld
      have hb0 : u.mem.read u.cursor.toNat = _ := hhas.read_getD 0 (by simp)
      have hb1 := hhas.read_getD 1 (by simp)
      have hvalue0 : ((u.mem.read u.cursor.toNat).toNat : Int) = (s.opA.toInt + 49152) / 256 := by
        rw [hb0, List.getD_cons_zero, ofInt_eq_ofNat (by omega), BitVec.toNat_ofNat]
        omega
      have hvalue1 : ((u.mem.read (u.cursor.toNat + 1)).toNat : Int) = (s.opA.toInt + 49152) % 256 := by
        rw [hb1, List.getD_cons_succ, List.getD_cons_zero, ofInt_eq_ofNat (by omega), BitVec.toNat_ofNat]
        omega
      rw [hvalue0, hvalue1, Int.mul_ediv_add_emod, Int.add_sub_cancel, BitVec.ofInt_toInt] at hlong
      exact hlong (by omega) hhas.1
    · exact absurd hok (resp_ne_ok_of_latched (by decide) (hrange (by omega)) ht)

theorem HasBytes.read_append_left {u : State} {l r : List Byte} (h : HasBytes u (l ++ r)) {k : Nat} (hk : k < l.length) :
    u.mem.read (u.cursor.toNat + k) = l.getD k 0 := by
  rw [h.read_getD k (by rw [List.length_append]; omega), List.getD_append _ _ _ _ hk]

theorem HasBytes.read_append_right {u : State} {l r : List Byte} (h : HasBytes u (l ++ r)) {k : Nat} (hk : k < r.length) :
    u.mem.read (u.cursor.toNat + l.length + k) = r.getD k 0 := by
  rw [Nat.add_assoc, h.read_getD (l.length + k) (by rw [List.length_append]; omega),
    List.getD_append_right _ _ _ _ (Nat.le_add_right _ _), Nat.add_sub_cancel_left]

theorem xsmart_givesBack : GivesBack .putXsmart .getXsmart := by
  intro s t u n hs ht hok hn hu hheld
  obtain ⟨hput, hrange⟩ := putXsmartWritesTheChain s hs
  by_cases hA : 0 ≤ s.opA.toInt
  · obtain ⟨rfl, hhas⟩ := hasBytes_of_emits (hput hA) ht hok hn hheld
    generalize hq : s.opA.toNat / 32767 = q at hhas ⊢
    generalize hr : s.opA.toNat % 32767 = v at hhas ⊢
    have hff (k : Nat) (hk : k < 2 * q) : u.mem.read (u.cursor.toNat + k) = 0xFF#8 := by
      rw [hhas.read_append_left (by rw [List.length_replicate]; exact hk), List.getD_replicate _ hk]
    have hsum : 32767 * q + v = s.opA.toNat := by omega
    have hroom := hhas.1
    have hlast (k : Nat) (hk : k < (usmartForm v).length) := hhas.read_append_right hk
    rw [List.length_append, List.length_replicate] at hroom ⊢
    rw [List.length_replicate] at hlast
    obtain ⟨hshort, hlong, _⟩ := getXsmartAddsTheChain u q _ _ _ hu rfl hff rfl rfl
    rcases Nat.lt_or_ge v 128 with hlt | hge
    · rw [usmartForm_of_short hlt] at hroom hlast ⊢
      have hb0 : u.mem.read (u.cursor.toNat + 2 * q) = _ := hlast 0 (by simp)
      have hvalue : (u.mem.read (u.cursor.toNat + 2 * q)).toNat = v := by
        rw [hb0, List.getD_cons_zero, BitVec.toNat_ofNat]
        omega
      rw [hvalue, hsum] at hshort
      exact (hshort hlt hroom).trans (by rw [ofNat_toNat_dword]; rfl)
    · rw [usmartForm_of_long hge] at hroom hlast ⊢
      have hb0 : u.mem.read (u.cursor.toNat + 2 * q) = _ := hlast 0 (by simp)
      have hb1 := hlast 1 (by simp)
      obtain ⟨hdiscr, hvalue⟩ := usmartForm_long_digits hge (by omega)
      rw [hb0, hb1, List.getD_cons_zero, List.getD_cons_succ, List.getD_cons_zero, hvalue, Nat.add_sub_cancel, hsum] at hlong
      exact (hlong hdiscr (by omega) hroom).trans (by rw [ofNat_toNat_dword]; rfl)
  · exact absurd hok (resp_ne_ok_of_latched (by decide) (hrange (by omega)) ht)

theorem bsmart_givesBack : GivesBack .putBsmart .getBsmart := by
  intro s t u n hs ht hok hn hu hheld
  obtain ⟨hputShort, hputLong, hrange⟩ := putBsmartWritesTheSmart s _ hs rfl
  obtain ⟨hshort, hlong, _⟩ := getBsmartReadsTwoOrFourBytes u _ _ _ _ hu rfl rfl rfl rfl
  by_cases hA : s.opA.toNat ≤ 32767
  · obtain ⟨rfl, hhas⟩ := hasBytes_of_emits (hputShort hA) ht hok hn hheld
    have hb0 : u.mem.read u.cursor.toNat = _ := hhas.read_getD 0 (by simp)
    have hb1 := hhas.read_getD 1 (by simp)
    rw [List.getD_cons_zero] at hb0
    rw [List.getD_cons_succ, List.getD_cons_zero] at hb1
    have hvalue : 256 * (u.mem.read u.cursor.toNat).toNat + (u.mem.read (u.cursor.toNat + 1)).toNat = s.opA.toNat := by
      rw [hb0, hb1, BitVec.toNat_ofNat, BitVec.toNat_ofNat]
      omega
    rw [hvalue] at hshort
    exact (hshort (by omega) hhas.1).trans (by rw [ofNat_toNat_dword]; rfl)
  · by_cases hA' : s.opA.toNat ≤ 2 ^ 31 - 1
    · obtain ⟨rfl, hhas⟩ := hasBytes_of_emits (hputLong (by omega) hA') ht hok hn hheld
      have hb0 : u.mem.read u.cursor.toNat = _ := hhas.read_getD 0 (by simp)
      have hb1 := hhas.read_getD 1 (by simp)
      have hb2 := hhas.read_getD 2 (by simp)
      have hb3 := hhas.read_getD 3 (by simp)
      simp only [List.getD_cons_zero, List.getD_cons_succ] at hb0 hb1 hb2 hb3
      rw [hb0, hb1, hb2, hb3] at hlong
      simp only [BitVec.toNat_ofNat] at hlong
      rw [show 2 ^ 24 * ((s.opA.toNat / 2 ^ 24 + 128) % 2 ^ 8 - 128) + 2 ^ 16 * (s.opA.toNat / 2 ^ 16 % 2 ^ 8) +
          2 ^ 8 * (s.opA.toNat / 2 ^ 8 % 2 ^ 8) + s.opA.toNat % 2 ^ 8 = s.opA.toNat by omega] at hlong
      exact (hlong (by omega) hhas.1).trans (by rw [ofNat_toNat_dword]; rfl)
    · have hbound := toNat_toInt_of_nonneg (a := s.opA)
      exact absurd hok (resp_ne_ok_of_latched (by decide) (hrange (by omega)) ht)

/-- Settles O46: one round trip for each form. -/
theorem smartsRoundTrip : Obligations.SmartsRoundTrip := by
  intro p hp
  simp only [List.mem_cons, List.not_mem_nil, or_false] at hp
  obtain rfl | rfl | rfl | rfl := hp
  · exact usmart_givesBack
  · exact ssmart_givesBack
  · exact xsmart_givesBack
  · exact bsmart_givesBack

end Sys2Proof.Machine

/-! ## Strings and byte blocks (45_string_block.md)

A string read is a scan for the first 0x00 and a read of the bytes before it; a block read is `take`. Both give `bytesFrom`. -/

namespace Sys2Proof.Machine

open Claims

theorem readBytes_eq_bytesFrom (m : Memory) (c n : Nat) : m.readBytes c n = bytesFrom m c n := by
  refine List.ext_getElem (by simp [bytesFrom]) fun k h1 h2 => ?_
  rw [Memory.getElem_readBytes]
  simp [bytesFrom]

/-! ### Reading strings (R311, R313) -/

section

variable {s : State} {n : Nat}

theorem readString_of_terminated (hlt : s.cursor.toNat + n < s.len.toNat)
    (hstr : ∀ k < n, s.mem.read (s.cursor.toNat + k) ≠ 0#8) (hz : s.mem.read (s.cursor.toNat + n) = 0#8) :
    s.readString = { s with
      cursor := reg (s.cursor.toNat + (n + 1)), dout := bytesFrom s.mem s.cursor.toNat n } := by
  have hscan : scanString s.mem s.cursor.toNat (s.len.toNat - s.cursor.toNat) = n :=
    scanString_eq (by omega) hstr fun _ => hz
  simp only [State.readString, hscan, if_pos hlt, readBytes_eq_bytesFrom]
  rfl

theorem readString_of_unterminated (hend : s.cursor.toNat + n = s.len.toNat)
    (hstr : ∀ k < n, s.mem.read (s.cursor.toNat + k) ≠ 0#8) :
    s.readString = { s with cursor := reg (s.cursor.toNat + n), dout := bytesFrom s.mem s.cursor.toNat n } := by
  have hscan : scanString s.mem s.cursor.toNat (s.len.toNat - s.cursor.toNat) = n :=
    scanString_eq (by omega) hstr (by omega)
  simp only [State.readString, hscan, readBytes_eq_bytesFrom, hend, if_neg (Nat.lt_irrefl _), reg_self]

theorem exec_getStr_of_ready (hs : ready .reader .byte s) : exec .getStr s = .next { s.readString with resp := .ok } :=
  runPlainReader_of_ok (bodyPlain := fun u => .ok u.readString) hs rfl

theorem exec_getFstr_of_ne (hs : ready .reader .byte s) (hlt : s.cursor.toNat < s.len.toNat)
    (hne : s.mem.read s.cursor.toNat ≠ 0#8) : exec .getFstr s = .next { s.readString with resp := .ok } := by
  rw [exec_getFstr]
  exact runPlainReader_of_ok hs (State.readFlagged_of_ne hlt hne)

end

/-- Settles O47: the scan finds the n bytes, before a terminator or before LEN. -/
theorem getStrReadsToTheTerminator : Obligations.GetStrReadsToTheTerminator := by
  intro s n hs _ hstr
  rw [exec_getStr_of_ready hs]
  refine ⟨fun hlt hz => ?terminated, fun hend => ?unterminated⟩
  case terminated =>
    rw [readString_of_terminated hlt hstr hz]
    rfl
  case unterminated =>
    rw [readString_of_unterminated hend hstr]
    rfl

/-- Settles O48: no byte left, a zero flag, or a string whose first byte is the flag. -/
theorem getFstrReadsTheFlaggedString : Obligations.GetFstrReadsTheFlaggedString := by
  intro s hs
  refine ⟨fun hend => ?atEnd, fun hlt hz => ?zero, fun n hn hle hstr => ?string⟩
  case atEnd =>
    rw [exec_getFstr]
    exact runPlainReader_of_error hs (State.readFlagged_of_ge hend)
  case zero =>
    rw [exec_getFstr]
    exact runPlainReader_of_ok hs (State.readFlagged_of_zero hlt hz)
  case string =>
    rw [exec_getFstr_of_ne hs (by omega) (hstr 0 (by omega)), ← exec_getStr_of_ready hs]
    exact getStrReadsToTheTerminator s n hs hle hstr

/-! ### Writing strings and blocks (R310, R312, R314, R316, R318, R320) -/

theorem exec_putString {i : Instr} (h : i = .putStr ∨ i = .putFstr) (s : State) :
    exec i s = runPlain .writer .byte State.writeString s := by
  obtain rfl | rfl := h
  · rfl
  · rfl

/-- Settles O49: `writeString` behind the checks, for both commands. -/
theorem putStringsWriteTheTerminator : Obligations.PutStringsWriteTheTerminator := by
  intro s i hi hs
  exact ⟨fun hz => emits_of_runPlain hs (exec_putString hi s) (State.writeString_of_not_mem hz),
    fun hz => (exec_putString hi s).trans (runWriter_of_error hs.1 rfl (State.writeString_of_mem hz))⟩

theorem transformOf_of_legal {tr : BitVec 3} (h : legalTr tr) : transformOf tr = some (transformName tr.toNat) := by
  rw [transformOf_eq, if_pos h]

/-- Settles O50: each command emits its bytes. -/
theorem putBlocksWriteTheirBytes : Obligations.PutBlocksWriteTheirBytes :=
  fun _ hs => ⟨emits_of_runPlain (bodyPlain := fun u => u.emit u.opDin) hs rfl rfl,
    emits_of_runPlain (bodyPlain := fun u => u.emit u.opDin.reverse) hs rfl rfl,
    fun _ htr => emits_of_runCommand hs rfl (transformOf_of_legal htr) rfl⟩

/-! ### Reading blocks (R315, R317, R319) -/

theorem readBlock_of_le {s : State} (f : List Byte → List Byte) (h : s.cursor.toNat + s.opA.toNat ≤ s.len.toNat) :
    s.readBlock f = .ok { s with
      cursor := reg (s.cursor.toNat + s.opA.toNat), dout := f (bytesFrom s.mem s.cursor.toNat s.opA.toNat) } := by
  rw [State.readBlock, State.take_of_le h, readBytes_eq_bytesFrom]
  rfl

theorem readBlock_of_gt {s : State} (f : List Byte → List Byte) (h : s.len.toNat < s.cursor.toNat + s.opA.toNat) :
    s.readBlock f = .error .boundsError := by
  rw [State.readBlock, State.take_of_gt h]
  rfl

/-- What GET_BLK_T does behind its checks (R319). -/
def State.readBlockT (t : Transform) (s : State) : Except Response State := s.readBlock (List.map (decByte t))

/-- Settles O51: the three reads differ in what is made of the bytes taken. -/
theorem getBlocksReadTheirBytes : Obligations.GetBlocksReadTheirBytes := by
  intro s hs
  refine ⟨fun hle => ⟨?_, ?_, fun tr htr => ?_⟩, fun hgt => ⟨?_, ?_, fun tr htr => ?_⟩⟩
  · exact runPlainReader_of_ok hs (readBlock_of_le id hle)
  · exact runPlainReader_of_ok hs (readBlock_of_le List.reverse hle)
  · exact runReader_of_ok (body := State.readBlockT) hs (transformOf_of_legal htr) (readBlock_of_le _ hle)
  · exact runPlainReader_of_error hs (readBlock_of_gt id hgt)
  · exact runPlainReader_of_error hs (readBlock_of_gt List.reverse hgt)
  · exact runReader_of_error (body := State.readBlockT) hs (transformOf_of_legal htr) (readBlock_of_gt _ hgt)

/-! ### Round trips (R321) -/

/-- A reader that has some bytes at its CURSOR reads them. -/
theorem HasBytes.bytesFrom_eq {u : State} {bytes : List Byte} (h : HasBytes u bytes) :
    bytesFrom u.mem u.cursor.toNat bytes.length = bytes := by
  rw [← readBytes_eq_bytesFrom]
  exact Memory.readBytes_eq h.2

/-- A reader that has a string and its terminator at its CURSOR reads the string with GET_STR. -/
theorem exec_getStr_of_hasBytes {u : State} {d : List Byte} (hu : ready .reader .byte u) (h : HasBytes u (d ++ [0]))
    (hd : (0 : Byte) ∉ d) :
    exec .getStr u = .next { consumed (d.length + 1) u with dout := d } := by
  have hread : HasBytes u d :=
    ⟨by have := h.1; rw [List.length_append] at this; omega, fun k hk => h.read_append_left hk⟩
  have hroom : u.cursor.toNat + (d.length + 1) ≤ u.len.toNat := by simpa using h.1
  have hstr (k : Nat) (hk : k < d.length) : u.mem.read (u.cursor.toNat + k) ≠ 0 := by
    rw [hread.read_getD k hk, List.getD_eq_getElem _ _ hk]
    exact fun hz => hd (hz ▸ List.getElem_mem hk)
  have hz : u.mem.read (u.cursor.toNat + d.length) = 0 := h.read_append_right (k := 0) (by simp)
  obtain ⟨hterminated, _⟩ := getStrReadsToTheTerminator u d.length hu hread.1 hstr
  rw [hterminated (by omega) hz, hread.bytesFrom_eq]

/-- GET_FSTR reads the same string; an empty one is its zero flag. -/
theorem exec_getFstr_of_hasBytes {u : State} {d : List Byte} (hu : ready .reader .byte u) (h : HasBytes u (d ++ [0]))
    (hd : (0 : Byte) ∉ d) : exec .getFstr u = .next { consumed (d.length + 1) u with dout := d } := by
  have hroom : u.cursor.toNat + (d.length + 1) ≤ u.len.toNat := by simpa using h.1
  cases d with
  | nil =>
    obtain ⟨_, hzero, _⟩ := getFstrReadsTheFlaggedString u hu
    exact hzero (by omega) (h.read_getD 0 (by simp))
  | cons b d =>
    have hfirst : u.mem.read u.cursor.toNat = b := h.read_append_left (k := 0) (by simp)
    have hne : u.mem.read u.cursor.toNat ≠ 0#8 := by
      rw [hfirst]
      exact fun hz => hd (hz ▸ List.mem_cons_self)
    rw [exec_getFstr_of_ne hu (by omega) hne, ← exec_getStr_of_ready hu, exec_getStr_of_hasBytes hu h hd]

/-- A reader given the count of the bytes at its CURSOR as A has a block of them. -/
theorem HasBytes.bytesFrom_opA {u : State} {bytes : List Byte} (h : HasBytes u bytes) (hA : u.opA.toNat = bytes.length) :
    u.cursor.toNat + u.opA.toNat ≤ u.len.toNat ∧ bytesFrom u.mem u.cursor.toNat u.opA.toNat = bytes := by
  rw [hA]
  exact ⟨h.1, h.bytesFrom_eq⟩

/-- What the reader of a round trip gives: DIN back, over exactly the bytes written. -/
def GivesDinBack (put get : Instr) : Prop :=
  ∀ (s t u : State) (n : Nat), writing s → exec put s = .next t → t.resp = .ok →
    n = t.cursor.toNat - s.cursor.toNat → ready .reader .byte u → holdsAt u t.mem s.cursor.toNat n →
    (get ≠ .getStr → get ≠ .getFstr → u.opA.toNat = s.opDin.length) →
      exec get u = .next { consumed n u with dout := s.opDin }

theorem string_givesBack {put get : Instr} (hput : put = .putStr ∨ put = .putFstr)
    (hget : ∀ (u : State) (d : List Byte), ready .reader .byte u → HasBytes u (d ++ [0]) → (0 : Byte) ∉ d →
      exec get u = .next { consumed (d.length + 1) u with dout := d }) : GivesDinBack put get := by
  intro s t u n hs ht hok hn hu hheld _
  obtain ⟨hemits, hrange⟩ := putStringsWriteTheTerminator s put hput hs
  by_cases hz : (0 : Byte) ∈ s.opDin
  · exact absurd hok (resp_ne_ok_of_latched (by decide) (hrange hz) ht)
  · obtain ⟨rfl, hhas⟩ := hasBytes_of_emits (hemits hz) ht hok hn hheld
    rw [hget u s.opDin hu hhas hz, List.length_append]
    rfl

theorem blk_givesBack : GivesDinBack .putBlk .getBlk := by
  intro s t u n hs ht hok hn hu hheld hopA
  obtain ⟨hemits, _, _⟩ := putBlocksWriteTheirBytes s hs
  obtain ⟨rfl, hhas⟩ := hasBytes_of_emits hemits ht hok hn hheld
  have hA := hopA (by simp) (by simp)
  obtain ⟨hroom, hbytes⟩ := hhas.bytesFrom_opA hA
  obtain ⟨hget, _⟩ := getBlocksReadTheirBytes u hu
  rw [(hget hroom).1, hbytes, hA]

theorem blkRev_givesBack : GivesDinBack .putBlkRev .getBlkRev := by
  intro s t u n hs ht hok hn hu hheld hopA
  obtain ⟨_, hemits, _⟩ := putBlocksWriteTheirBytes s hs
  obtain ⟨rfl, hhas⟩ := hasBytes_of_emits hemits ht hok hn hheld
  have hA : u.opA.toNat = s.opDin.reverse.length := by rw [List.length_reverse]; exact hopA (by simp) (by simp)
  obtain ⟨hroom, hbytes⟩ := hhas.bytesFrom_opA hA
  obtain ⟨hget, _⟩ := getBlocksReadTheirBytes u hu
  rw [(hget hroom).2.1, hbytes, hA, List.reverse_reverse]

/-- Each byte's transform is undone by the same transform (R184). -/
theorem map_decByte_map_encByte (t : Transform) (d : List Byte) : (d.map (encByte t)).map (decByte t) = d := by
  rw [List.map_map]
  exact (List.map_congr_left fun b _ => decByte_encByte t b).trans (List.map_id d)

theorem blkT_givesBack {tr : BitVec 3} (htr : legalTr tr) : GivesDinBack (.putBlkT tr) (.getBlkT tr) := by
  intro s t u n hs ht hok hn hu hheld hopA
  obtain ⟨_, _, hemits⟩ := putBlocksWriteTheirBytes s hs
  obtain ⟨rfl, hhas⟩ := hasBytes_of_emits (hemits tr htr) ht hok hn hheld
  have hA : u.opA.toNat = (s.opDin.map (encByte (transformName tr.toNat))).length := by
    rw [List.length_map]
    exact hopA (by simp) (by simp)
  obtain ⟨hroom, hbytes⟩ := hhas.bytesFrom_opA hA
  obtain ⟨hget, _⟩ := getBlocksReadTheirBytes u hu
  rw [(hget hroom).2.2 tr htr, hbytes, hA, map_decByte_map_encByte]

/-- Settles O52: one round trip for each form. -/
theorem stringsAndBlocksRoundTrip : Obligations.StringsAndBlocksRoundTrip := by
  intro put get h
  obtain ⟨rfl, rfl⟩ | ⟨rfl, rfl⟩ | ⟨rfl, rfl⟩ | ⟨rfl, rfl⟩ | ⟨tr, htr, rfl, rfl⟩ := h
  · exact string_givesBack (.inl rfl) fun _ _ => exec_getStr_of_hasBytes
  · exact string_givesBack (.inr rfl) fun _ _ => exec_getFstr_of_hasBytes
  · exact blk_givesBack
  · exact blkRev_givesBack
  · exact blkT_givesBack htr

end Sys2Proof.Machine

/-! ## Bit fields (43_bits.md)

Both loops walk the storage byte by byte from a position `off` bits before the end of byte `p`, which is stream index
`8 * p + (8 - off)`. What each loop does to one stream bit is proved by induction on its rounds. -/

namespace Sys2Proof.Machine

open Claims

/-! ### Stream bits (R236) and masks (R231) -/

theorem streamBit_of_byte (m : Memory) (p : Nat) {k : Nat} (hk : k < 8) :
    streamBit m (8 * p + k) = (m.read p).getLsbD (7 - k) := by
  rw [streamBit, show (8 * p + k) / 8 = p by omega, show (8 * p + k) % 8 = k by omega]

theorem testBit_and_maskOf {w : Nat} (hw : w ≤ 8) (x i : Nat) :
    (x &&& maskOf w).testBit i = (x.testBit i && decide (i < w)) := by
  rw [maskOf_eq_two_pow_sub_one (by omega), Nat.testBit_and, Nat.testBit_two_pow_sub_one]

theorem touched_eq_fieldEnd (b n : Nat) : b >>> 3 + touchedBytes b n = fieldEnd b n := by
  simp only [touchedBytes, fieldEnd, Nat.shiftRight_eq_div_pow]
  omega

/-! ### The unpack loop (R234) -/

/-- Bit by bit, the loop puts the next `rem` stream bits below the bits of `v`, most significant first. -/
theorem testBit_unpackLoop {m : Memory} {rounds p off rem v : Nat} (hoff : 1 ≤ off ∧ off ≤ 8) (hrem : 1 ≤ rem)
    (hrounds : rem + (8 - off) ≤ 8 * rounds) (hv : ∀ i < rem, v.testBit i = false) (i : Nat) :
    (unpackLoop m rounds p off rem v).testBit i =
      if i < rem then streamBit m (8 * p + (8 - off) + (rem - 1 - i)) else v.testBit i := by
  induction rounds generalizing p off rem v with
  | zero => omega
  | succ rounds ih =>
    rw [unpackLoop]
    split
    · rename_i hmore
      rw [ih (by omega) (by omega) (by omega) fun j hj => ?low]
      case low => simp [Nat.testBit_or, Nat.testBit_shiftLeft, hv j (by omega), show ¬ rem - off ≤ j by omega]
      rw [Nat.testBit_or, Nat.testBit_shiftLeft, testBit_and_maskOf hoff.2, BitVec.testBit_toNat]
      rcases Nat.lt_or_ge i (rem - off) with hlt | hge
      · rw [if_pos hlt, if_pos (by omega)]
        congr 1
        omega
      · rw [if_neg (by omega)]
        rcases Nat.lt_or_ge i rem with hi | hi
        · rw [if_pos hi, hv i hi, Nat.add_assoc, streamBit_of_byte m p (by omega),
            show 7 - (8 - off + (rem - 1 - i)) = i - (rem - off) by omega]
          simp [hge, show i - (rem - off) < off by omega]
        · simp [show ¬ i < rem by omega, show ¬ i - (rem - off) < off by omega]
    · split
      · rename_i hsame
        subst hsame
        rw [Nat.testBit_or, testBit_and_maskOf hoff.2, BitVec.testBit_toNat]
        split
        · rename_i hi
          rw [hv i hi, Nat.add_assoc, streamBit_of_byte m p (by omega), show 7 - (8 - rem + (rem - 1 - i)) = i by omega]
          simp [hi]
        · rename_i hi
          simp [hi]
      · rw [Nat.testBit_or, testBit_and_maskOf (by omega), Nat.testBit_shiftRight, BitVec.testBit_toNat]
        split
        · rename_i hi
          rw [hv i hi, Nat.add_assoc, streamBit_of_byte m p (by omega),
            show 7 - (8 - off + (rem - 1 - i)) = off - rem + i by omega]
          simp [hi]
        · rename_i hi
          simp [hi]

theorem testBit_unpack (m : Memory) (b : Nat) {n : Nat} (hn : 1 ≤ n) (i : Nat) :
    (unpack m b n).testBit i = (decide (i < n) && streamBit m (b + (n - 1 - i))) := by
  rw [unpack, testBit_unpackLoop (by omega) hn (by simp only [touchedBytes]; omega) fun j _ => Nat.zero_testBit j,
    Nat.shiftRight_eq_div_pow, show 8 * (b / 2 ^ 3) + (8 - (8 - b % 8)) = b by omega, Nat.zero_testBit]
  split <;> simp [*]

theorem unpack_lt (m : Memory) (b : Nat) {n : Nat} (hn : 1 ≤ n) : unpack m b n < 2 ^ n :=
  Nat.lt_pow_two_of_testBit _ fun i hi => by
    rw [testBit_unpack m b hn, decide_eq_false (Nat.not_lt.mpr hi), Bool.false_and]

/-- Settles O33: the loop's bits are `testBit_unpack`, and none lies past the width. -/
theorem unpackLoopReadsTheStreamBits : Obligations.UnpackLoopReadsTheStreamBits := by
  intro m b n hn _
  refine ⟨unpack_lt m b hn, fun j hj => ?_⟩
  rw [testBit_unpack m b hn, decide_eq_true (by omega), Bool.true_and, show n - 1 - (n - 1 - j) = j by omega]

/-! ### The pack loop (R235) -/

theorem getLsbD_mergeByte (old : Byte) (clear new k : Nat) :
    (mergeByte old clear new).getLsbD k =
      (decide (k < 8) && (old.getLsbD k && !clear.testBit k || new.testBit k)) := by
  rw [mergeByte, BitVec.getLsbD_ofNat, Nat.testBit_or, Nat.testBit_and, Nat.testBit_xor, BitVec.testBit_toNat,
    show 0xFF = 2 ^ 8 - 1 from rfl, Nat.testBit_two_pow_sub_one]
  by_cases hk : k < 8 <;> simp [hk]

/-- What one round's write does to a stream bit: in byte p the bits of `clear` are replaced by those of `new`. -/
theorem streamBit_write_mergeByte {m : Memory} (hm : m.wf) (p clear new q : Nat) :
    streamBit (m.write p (mergeByte (m.read p) clear new)) q =
      if q / 8 = p then streamBit m q && !clear.testBit (7 - q % 8) || new.testBit (7 - q % 8) else streamBit m q := by
  rw [streamBit, Memory.read_write hm]
  split
  · rename_i hp
    subst hp
    rw [getLsbD_mergeByte, decide_eq_true (by omega), Bool.true_and]
    rfl
  · rfl

theorem testBit_maskOf {w : Nat} (hw : w ≤ 8) (i : Nat) : (maskOf w).testBit i = decide (i < w) := by
  rw [maskOf_eq_two_pow_sub_one (by omega), Nat.testBit_two_pow_sub_one]

/-- One round's write: the `w` stream bits from `off` bits before the end of byte p become the low bits of `x`. -/
theorem streamBit_round {m : Memory} (hm : m.wf) (p : Nat) {off w : Nat} (hw : w ≤ off) (hoff : off ≤ 8) (x q : Nat) :
    streamBit (m.write p (mergeByte (m.read p) (maskOf w <<< (off - w)) ((x &&& maskOf w) <<< (off - w)))) q =
      if 8 * p + (8 - off) ≤ q ∧ q < 8 * p + (8 - off) + w then x.testBit (w - 1 - (q - (8 * p + (8 - off))))
      else streamBit m q := by
  rw [streamBit_write_mergeByte hm, Nat.testBit_shiftLeft, Nat.testBit_shiftLeft, testBit_and_maskOf (by omega),
    testBit_maskOf (by omega)]
  by_cases hfield : 8 * p + (8 - off) ≤ q ∧ q < 8 * p + (8 - off) + w
  · rw [if_pos hfield, if_pos (by omega), decide_eq_true (show 7 - q % 8 ≥ off - w by omega),
      decide_eq_true (show 7 - q % 8 - (off - w) < w by omega),
      show w - 1 - (q - (8 * p + (8 - off))) = 7 - q % 8 - (off - w) by omega]
    simp
  · rw [if_neg hfield]
    split
    · have hout : ¬ (7 - q % 8 ≥ off - w ∧ 7 - q % 8 - (off - w) < w) := by omega
      rcases Classical.not_and_iff_not_or_not.mp hout with h | h <;> simp [h]
    · rfl

/-- A round that fills its byte needs no shift. -/
theorem mergeByte_full (old : Byte) (off x : Nat) :
    mergeByte old (maskOf off) (x &&& maskOf off) =
      mergeByte old (maskOf off <<< (off - off)) ((x &&& maskOf off) <<< (off - off)) := by
  rw [Nat.sub_self, Nat.shiftLeft_zero, Nat.shiftLeft_zero]

/-- Bit by bit, the loop replaces the next `rem` stream bits by the low bits of `v`, most significant first. -/
theorem streamBit_packLoop {v rounds : Nat} {m : Memory} {p off rem : Nat} (hm : m.wf) (hoff : 1 ≤ off ∧ off ≤ 8)
    (hrem : 1 ≤ rem) (hrounds : rem + (8 - off) ≤ 8 * rounds) (q : Nat) :
    streamBit (packLoop v rounds m p off rem) q =
      if 8 * p + (8 - off) ≤ q ∧ q < 8 * p + (8 - off) + rem then v.testBit (rem - 1 - (q - (8 * p + (8 - off))))
      else streamBit m q := by
  induction rounds generalizing m p off rem with
  | zero => omega
  | succ rounds ih =>
    rw [packLoop]
    split
    · rename_i hmore
      rw [ih (Memory.wf_write hm _ _) (by omega) (by omega) (by omega), mergeByte_full,
        streamBit_round hm p (le_refl _) hoff.2, Nat.testBit_shiftRight]
      by_cases hlater : 8 * (p + 1) + (8 - 8) ≤ q ∧ q < 8 * (p + 1) + (8 - 8) + (rem - off)
      · rw [if_pos hlater, if_pos (by omega)]
        congr 1
        omega
      · rw [if_neg hlater]
        by_cases hbyte : 8 * p + (8 - off) ≤ q ∧ q < 8 * p + (8 - off) + off
        · rw [if_pos hbyte, if_pos (by omega)]
          congr 1
          omega
        · rw [if_neg hbyte, if_neg (by omega)]
    · split
      · rename_i hsame
        rw [mergeByte_full, streamBit_round hm p (le_refl _) hoff.2, hsame]
      · exact streamBit_round hm p (by omega) hoff.2 v q

theorem streamBit_pack {m : Memory} (hm : m.wf) (b : Nat) {n : Nat} (hn : 1 ≤ n) (v q : Nat) :
    streamBit (pack m b n v) q = if b ≤ q ∧ q < b + n then v.testBit (n - 1 - (q - b)) else streamBit m q := by
  rw [pack, streamBit_packLoop hm (by omega) hn (by simp only [touchedBytes]; omega), Nat.shiftRight_eq_div_pow,
    show 8 * (b / 2 ^ 3) + (8 - (8 - b % 8)) = b by omega]

/-- Settles O34: every write of the loop keeps the canonical form, and its bits are `streamBit_pack`. -/
theorem packLoopSetsExactlyTheStreamBits : Obligations.PackLoopSetsExactlyTheStreamBits :=
  fun _ b n v hm hn _ _ => ⟨pack_wf hm b n v, streamBit_pack hm b hn v⟩

/-! ### PUT_BITS (R238) -/

theorem bitWidthOf_of_legal {nbits : BitVec 6} (h : legalNbits nbits) : bitWidthOf nbits = some nbits.toNat := if_pos h

theorem fieldEnd_spec (b n : Nat) : b + n ≤ 8 * fieldEnd b n ∧ 8 * fieldEnd b n < b + n + 8 := by
  simp only [fieldEnd]
  omega

/-- Within MAX_CAPACITY: CAP covers the field, its bits are packed, BITIDX moves over it, and nothing else changes. -/
theorem exec_putBits_of_le {s : State} {nbits : BitVec 6} (hs : ready .writer .bit s) (hp : s.params.legal) (hm : s.memInv)
    (hn : legalNbits nbits) (hle : fieldEnd s.bitIdx.toNat nbits.toNat ≤ s.params.maxCapacity) :
    ∃ cap : DWord, exec (.putBits nbits) s = .next { s with
        bitIdx := reg (s.bitIdx.toNat + nbits.toNat), cap := cap,
        mem := pack s.mem s.bitIdx.toNat nbits.toNat (s.opA.toNat % 2 ^ nbits.toNat), resp := .ok } ∧
      cap.toNat = (if s.cap.toNat < fieldEnd s.bitIdx.toNat nbits.toNat then
        growTo s.params s.cap.toNat (fieldEnd s.bitIdx.toNat nbits.toNat) else s.cap.toNat) ∧
      fieldEnd s.bitIdx.toNat nbits.toNat ≤ cap.toNat ∧ s.cap.toNat ≤ cap.toNat := by
  obtain ⟨u, hu⟩ : ∃ u, s.cover (fieldEnd s.bitIdx.toNat nbits.toNat) = .ok u := ⟨_, State.cover_of_le hle⟩
  obtain ⟨hroom, hmono, _, hcap⟩ := State.cover_cap hp hu
  have hframe := State.cover_frame hm.2 hu
  refine ⟨u.cap, ?_, hcap, hroom, hmono⟩
  rw [exec_putBits]
  refine runWriter_of_ok (t := { s with
    bitIdx := reg (s.bitIdx.toNat + nbits.toNat), cap := u.cap,
    mem := pack s.mem s.bitIdx.toNat nbits.toNat (s.opA.toNat % 2 ^ nbits.toNat) }) hs (bitWidthOf_of_legal hn) ?_
  rw [State.putField, touched_eq_fieldEnd, hu, hframe]
  rfl

/-- Settles O35: `exec_putBits_of_le`, with the packed bits of A and the bytes the field does not touch. -/
theorem putBitsWritesTheField : Obligations.PutBitsWritesTheField := by
  intro s nbits hs hp hm hn
  refine ⟨fun hle => ?fits, fun hgt => ?tooLong⟩
  case fits =>
    obtain ⟨cap, hrun, hcap, _, _⟩ := exec_putBits_of_le hs hp hm hn hle
    have hend := (fieldEnd_spec s.bitIdx.toNat nbits.toNat).1
    refine ⟨_, hrun, rfl, reg_toNat (legal_bits_lt hp (by omega)), hcap, fun q => ?bits, fun a ha => ?bytes⟩
    case bits =>
      rw [streamBit_pack hm.1 _ hn.1]
      split
      · rw [Nat.testBit_mod_two_pow, decide_eq_true (by omega), Bool.true_and, BitVec.testBit_toNat]
      · rfl
    case bytes =>
      refine pack_read hm.1 ?_
      rwa [touched_eq_fieldEnd, Nat.shiftRight_eq_div_pow]
  case tooLong =>
    rw [exec_putBits]
    refine runWriter_of_error hs (bitWidthOf_of_legal hn) ?_
    rw [State.putField, touched_eq_fieldEnd, State.cover_of_gt hgt]
    rfl

/-! ### GET_BITS (R239) -/

theorem exec_getBits_of_le {s : State} {nbits : BitVec 6} (hs : ready .reader .bit s) (hn : legalNbits nbits)
    (hle : fieldEnd s.bitIdx.toNat nbits.toNat ≤ s.len.toNat) :
    exec (.getBits nbits) s = .next { s with
      bitIdx := reg (s.bitIdx.toNat + nbits.toNat), r := zext 32 (unpack s.mem s.bitIdx.toNat nbits.toNat), resp := .ok } := by
  rw [exec_getBits]
  refine runReader_of_ok (t := { s with
    bitIdx := reg (s.bitIdx.toNat + nbits.toNat), r := zext 32 (unpack s.mem s.bitIdx.toNat nbits.toNat) })
    hs (bitWidthOf_of_legal hn) ?_
  rw [State.getField, touched_eq_fieldEnd, if_pos hle]

/-- R holds the field unchanged: 32 bits fit. -/
theorem toNat_zext_unpack (m : Memory) (b : Nat) {n : Nat} (hn : 1 ≤ n ∧ n ≤ 32) :
    (zext 32 (unpack m b n)).toNat = unpack m b n := by
  have hlt : unpack m b n < 2 ^ 32 := (unpack_lt m b hn.1).trans_le (Nat.pow_le_pow_right (by decide) hn.2)
  rw [zext_of_lt hlt, BitVec.toNat_ofNat, Nat.mod_eq_of_lt (by omega)]

/-- Settles O36: R is the unpacked number, whose bits are those of O33. -/
theorem getBitsReadsTheField : Obligations.GetBitsReadsTheField := by
  intro s nbits hs hn hlen
  refine ⟨fun hle => ?fits, fun hgt => ?tooFew⟩
  case fits =>
    have hend := (fieldEnd_spec s.bitIdx.toNat nbits.toNat).1
    obtain ⟨hlt, hbits⟩ := unpackLoopReadsTheStreamBits s.mem s.bitIdx.toNat nbits.toNat hn.1 hn.2
    refine ⟨_, exec_getBits_of_le hs hn hle, rfl, reg_toNat (by omega), ?_, fun j hj => ?_⟩
    · simpa only [toNat_zext_unpack _ _ hn] using hlt
    · rw [← hbits j hj, ← BitVec.testBit_toNat, toNat_zext_unpack _ _ hn]
  case tooFew =>
    rw [exec_getBits]
    refine runReader_of_error hs (bitWidthOf_of_legal hn) ?_
    rw [State.getField, touched_eq_fieldEnd, if_neg (Nat.not_le.mpr hgt)]

/-! ### Runs of fields (43_bits.md, 3. Laws) -/

/-- The count of bits of a list of fields. -/
def totalWidth (fields : List (BitVec 6 × DWord)) : Nat := (fields.map (fun f => f.1.toNat)).sum

theorem totalWidth_cons (f : BitVec 6 × DWord) (rest : List (BitVec 6 × DWord)) :
    totalWidth (f :: rest) = f.1.toNat + totalWidth rest := by
  simp [totalWidth]

/-- The stream bits from b on are the values of the fields, each most significant bit first. -/
def FieldsAt (m : Memory) : Nat → List (BitVec 6 × DWord) → Prop
  | _, [] => True
  | b, f :: rest =>
    (∀ j < f.1.toNat, streamBit m (b + j) = f.2.getLsbD (f.1.toNat - 1 - j)) ∧ FieldsAt m (b + f.1.toNat) rest

theorem fieldsAt_congr {m m' : Memory} {b : Nat} {fields : List (BitVec 6 × DWord)}
    (h : ∀ q, b ≤ q → q < b + totalWidth fields → streamBit m q = streamBit m' q) (hm : FieldsAt m b fields) :
    FieldsAt m' b fields := by
  induction fields generalizing b with
  | nil => trivial
  | cons f rest ih =>
    rw [totalWidth_cons] at h
    obtain ⟨hfirst, hrest⟩ := hm
    exact ⟨fun j hj => by rw [← h (b + j) (by omega) (by omega), hfirst j hj],
      ih (fun q hmin hmax => h q (by omega) (by omega)) hrest⟩

/-- The writer's run: every field completes, the fields lie where BITIDX was, and the bits before it stay. -/
theorem putFields_of_le {fields : List (BitVec 6 × DWord)} {s : State} (hs : ready .writer .bit s) (hp : s.params.legal)
    (hm : s.memInv) (hlegal : ∀ f ∈ fields, legalNbits f.1)
    (hle : fieldEnd s.bitIdx.toNat (totalWidth fields) ≤ s.params.maxCapacity) :
    ∃ t, putFields fields s = some t ∧ t.bitIdx.toNat = s.bitIdx.toNat + totalWidth fields ∧
      FieldsAt t.mem s.bitIdx.toNat fields ∧ ∀ q < s.bitIdx.toNat, streamBit t.mem q = streamBit s.mem q := by
  induction fields generalizing s with
  | nil => exact ⟨s, rfl, rfl, trivial, fun _ _ => rfl⟩
  | cons f rest ih =>
    obtain ⟨hn, hrest⟩ := List.forall_mem_cons.mp hlegal
    rw [totalWidth_cons] at hle
    simp only [fieldEnd] at hle
    obtain ⟨cap, hrun, _, hroom, hmono⟩ := exec_putBits_of_le (s := { s with opA := f.2 }) (nbits := f.1) hs hp hm hn
      (by simp only [fieldEnd]; omega)
    have hend := (fieldEnd_spec s.bitIdx.toNat f.1.toNat).1
    have hbitIdx : (reg (s.bitIdx.toNat + f.1.toNat)).toNat = s.bitIdx.toNat + f.1.toNat :=
      reg_toNat (legal_bits_lt hp (by omega))
    have hpacked (q : Nat) := streamBit_pack hm.1 s.bitIdx.toNat hn.1 (f.2.toNat % 2 ^ f.1.toNat) q
    obtain ⟨t, ht, hidx, hfields, hbefore⟩ := ih (s := { s with
        opA := f.2, bitIdx := reg (s.bitIdx.toNat + f.1.toNat), cap := cap,
        mem := pack s.mem s.bitIdx.toNat f.1.toNat (f.2.toNat % 2 ^ f.1.toNat), resp := .ok }) hs hp
      ⟨pack_wf hm.1 _ _ _, pack_within (Memory.within_mono hm.2 hmono) (by rw [touched_eq_fieldEnd]; exact hroom) _⟩ hrest
      (by simp only [hbitIdx, fieldEnd]; omega)
    simp only [hbitIdx] at hidx hfields hbefore
    refine ⟨t, ?run, by rw [hidx, totalWidth_cons, Nat.add_assoc], ⟨fun j hj => ?field, hfields⟩, fun q hq => ?before⟩
    case run => rw [putFields, hrun]; exact ht
    case field =>
      rw [hbefore _ (by omega), hpacked, if_pos (by omega), Nat.testBit_mod_two_pow, decide_eq_true (by omega), Bool.true_and,
        BitVec.testBit_toNat, Nat.add_sub_cancel_left]
    case before => rw [hbefore q (by omega), hpacked, if_neg (by omega)]

/-- A number below 2^n whose bits are those of the field is what GET_BITS gives. -/
theorem zext_unpack_eq {m : Memory} {b n : Nat} {v : DWord} (hn : 1 ≤ n ∧ n ≤ 32) (hv : v.toNat < 2 ^ n)
    (h : ∀ j < n, streamBit m (b + j) = v.getLsbD (n - 1 - j)) : zext 32 (unpack m b n) = v := by
  refine BitVec.eq_of_toNat_eq (Nat.eq_of_testBit_eq fun i => ?_)
  rw [toNat_zext_unpack m b hn, testBit_unpack m b hn.1]
  by_cases hi : i < n
  · rw [h _ (by omega), decide_eq_true hi, Bool.true_and, BitVec.testBit_toNat, show n - 1 - (n - 1 - i) = i by omega]
  · rw [decide_eq_false hi, Bool.false_and,
      Nat.testBit_eq_false_of_lt (hv.trans_le (Nat.pow_le_pow_right (by decide) (Nat.not_lt.mp hi)))]

/-- The reader's run: the fields that lie from BITIDX on are read back. -/
theorem getFields_of_fieldsAt {fields : List (BitVec 6 × DWord)} {u : State} (hu : ready .reader .bit u)
    (hlen : u.len.toNat ≤ 2 ^ 48) (hlegal : ∀ f ∈ fields, legalNbits f.1 ∧ f.2.toNat < 2 ^ f.1.toNat)
    (hle : fieldEnd u.bitIdx.toNat (totalWidth fields) ≤ u.len.toNat) (hfields : FieldsAt u.mem u.bitIdx.toNat fields) :
    ∃ u', getFields (fields.map Prod.fst) u = some (fields.map Prod.snd, u') ∧
      u'.bitIdx.toNat = u.bitIdx.toNat + totalWidth fields := by
  induction fields generalizing u with
  | nil => exact ⟨u, rfl, rfl⟩
  | cons f rest ih =>
    obtain ⟨⟨hn, hv⟩, hrest⟩ := List.forall_mem_cons.mp hlegal
    obtain ⟨hfirst, hfieldsRest⟩ := hfields
    rw [totalWidth_cons] at hle
    simp only [fieldEnd] at hle
    have hbitIdx : (reg (u.bitIdx.toNat + f.1.toNat)).toNat = u.bitIdx.toNat + f.1.toNat := reg_toNat (by omega)
    have hrun := exec_getBits_of_le hu hn (by simp only [fieldEnd]; omega)
    rw [zext_unpack_eq hn hv hfirst] at hrun
    obtain ⟨u', hu', hidx⟩ := ih (u := { u with bitIdx := reg (u.bitIdx.toNat + f.1.toNat), r := f.2, resp := .ok }) hu hlen
      hrest (by simp only [hbitIdx, fieldEnd]; omega) (by simpa only [hbitIdx] using hfieldsRest)
    simp only [hbitIdx] at hidx
    refine ⟨u', ?_, by rw [hidx, totalWidth_cons, Nat.add_assoc]⟩
    rw [List.map_cons, getFields, hrun]
    simp only [if_true, hu', Option.map_some]
    rfl

theorem streamBit_congr {m m' : Memory} {len q : Nat} (h : ∀ a < len, m.read a = m'.read a) (hq : q < 8 * len) :
    streamBit m q = streamBit m' q := by
  rw [streamBit, streamBit, h (q / 8) (by omega)]

/-- Settles O37: the run of writes leaves the fields in the storage, and the run of reads finds them there. -/
theorem bitFieldRunsRoundTrip : Obligations.BitFieldRunsRoundTrip := by
  intro s fields hs hp hm hlegal hle
  obtain ⟨t, ht, hidx, hfields, _⟩ := putFields_of_le hs hp hm (fun f hf => (hlegal f hf).1) hle
  refine ⟨t, ht, hidx, fun u hu hlen hsame hroom hmem => ?_⟩
  have hend := (fieldEnd_spec s.bitIdx.toNat (totalWidth fields)).1
  have hroom : fieldEnd u.bitIdx.toNat (totalWidth fields) ≤ u.len.toNat := by rw [hsame]; exact hroom
  have hread : FieldsAt u.mem u.bitIdx.toNat fields := by
    rw [hsame]
    exact fieldsAt_congr (fun q _ hq => (streamBit_congr hmem (by rw [hsame] at hroom; omega)).symm) hfields
  obtain ⟨u', hu', hidx'⟩ := getFields_of_fieldsAt hu hlen hlegal hroom hread
  exact ⟨u', hu', BitVec.eq_of_toNat_eq (by rw [hidx', hidx, hsame, totalWidth])⟩

end Sys2Proof.Machine
